-- ==== Sys2Proof/Word.lean ====
section
/-! DEFINITION. The word types of the spec (R9, R11) and the two shapes of a message (R17). -/

namespace Sys2Proof

/-- A byte of every stream and every buffer (`BYTE_W = 8`, R9). -/
abbrev Byte := BitVec 8

/-- A 16-bit register or length field (`LEN_W = 16`, R9). -/
abbrev Half := BitVec 16

/-- A 32-bit register (`TIMER_W = 32`, R9). -/
abbrev Word := BitVec 32

/-- A message of the document (R17): a class/id with a payload, or an ordered sequence of text fields, the first of
them the tag. -/
inductive Message where
  | binary (cls id : Byte) (payload : List Byte)
  | text (tag : List Byte) (fields : List (List Byte))
  deriving DecidableEq, Repr

end Sys2Proof
end

