-- ==== Sys2Proof/Config.lean ====
section
/-! DEFINITION. What is fixed for this hardware (R9): sizes, sync bytes, the characters of a sentence (R97), the ten
outcomes (R300) and the formats of the opcode table. The two OPEN parameters `MAX_PAYLOAD` and `CFG_FRAME_DEADLINE` are
the content of the hardwired register `CONFIG` and stand in `State` (log 6). The spec leaves no result of an
instruction undefined, so there is no free value here. -/

namespace Sys2Proof

namespace Config

/-- First sync byte (R9, R90). -/
def sync1 : Byte := 0xB5
/-- Second sync byte (R9, R90). -/
def sync2 : Byte := 0x62
/-- Largest payload length that can be encoded, `LEN_MAX` (R9). -/
def lenMax : Nat := 32767
/-- Size of each payload buffer, `PBUF_BYTES` (R9). -/
def pbufBytes : Nat := 32768

/-- `$`, the first character of a tag (R97). -/
def dollar : Byte := 0x24
/-- `,`, the field separator (R97). -/
def comma : Byte := 0x2C
/-- `*`, the checksum marker (R97). -/
def star : Byte := 0x2A
/-- Carriage return (R97). -/
def cr : Byte := 0x0D
/-- Line feed (R97). -/
def lf : Byte := 0x0A

end Config

/-- The ten values of `RESULT` (R300), named. -/
inductive ResultCode where
  | resIdle | resOk | resNoMessage
  | errPayloadTooLarge | errUnknownMessageType | errFraming | errChecksumMismatch | errTransport
  | errTextFormat | errBadCommand
  deriving DecidableEq, Repr

/-- The formats of the opcode table's rows. Four of them are words that reach the block from outside (a command byte on
`CMD`, a symbol on `SIN`, a frame at the transport, a sentence on `DIN`); `cidrom` words are values of `ARG_NAME`,
`result8` words are values of `RESULT`, and a `pseudo` row has no word (R100, R107, R90, R96, R112, R300, R119). -/
inductive Format where
  | cmd8 | sym10 | frame | sentence | cidrom | result8 | pseudo
  deriving DecidableEq, Repr

end Sys2Proof
end

