-- ==== Sys2Proof/Machine/Checksum.lean ====
section
/-! DEFINITION. The two checksum generators (R130 to R136), the hex digits (R105, R106) and the byte order of the
length field (R66). -/

namespace Sys2Proof.Machine

/-- One step of the dual sum (R130): the second sum takes the NEW first sum. Carries are discarded (R131). -/
def ck2Step (p : Byte × Byte) (x : Byte) : Byte × Byte :=
  let a := p.1 + x
  (a, p.2 + a)

/-- The dual sum continued over a byte sequence, in order (R132). -/
def ck2From (p : Byte × Byte) (bytes : List Byte) : Byte × Byte :=
  bytes.foldl ck2Step p

/-- The dual-sum checksum of a byte sequence (R132). -/
def ck2 (bytes : List Byte) : Byte × Byte :=
  ck2From (0, 0) bytes

/-- One step of the XOR checksum (R134). -/
def ckxStep (acc x : Byte) : Byte := acc ^^^ x

/-- The XOR fold continued over a byte sequence (R136). -/
def ckxFrom (acc : Byte) (bytes : List Byte) : Byte :=
  bytes.foldl ckxStep acc

/-- The XOR checksum of a byte sequence (R136). -/
def ckx (bytes : List Byte) : Byte := ckxFrom 0 bytes

/-- The upper-case hex digit of a nibble (R105). -/
def hexchar (n : BitVec 4) : Byte :=
  if n ≤ 9 then 0x30 + n.setWidth 8 else 0x41 + (n.setWidth 8 - 10)

/-- The nibble of an upper-case hex digit; no other byte has one (R106). -/
def hexval (b : Byte) : Option (BitVec 4) :=
  if 0x30 ≤ b ∧ b ≤ 0x39 then some ((b - 0x30).setWidth 4)
  else if 0x41 ≤ b ∧ b ≤ 0x46 then some ((b - 0x41 + 10).setWidth 4)
  else none

/-- The byte of a 16-bit value that goes first on the wire, bits 7 to 0 (R66, R68). -/
def loByte (v : Half) : Byte := v.extractLsb' 0 8

/-- The byte of a 16-bit value that goes second on the wire, bits 15 to 8 (R66, R68). -/
def hiByte (v : Half) : Byte := v.extractLsb' 8 8

/-- The 16-bit value whose bits 7 to 0 are the byte `lo` (R66, R68). -/
def packHalf (lo hi : Byte) : Half := hi ++ lo

/-- The high nibble of a byte (R67). -/
def hiNibble (b : Byte) : BitVec 4 := b.extractLsb' 4 4

/-- The low nibble of a byte (R67). -/
def loNibble (b : Byte) : BitVec 4 := b.extractLsb' 0 4

/-- The byte of two nibbles, the high one first (R27, R67). -/
def packByte (hi lo : BitVec 4) : Byte := hi ++ lo

end Sys2Proof.Machine
end

