-- ==== Sys2Proof/Machine/Wire.lean ====
section
/-! DEFINITION. The two wire formats as functions on byte sequences: the frame (R90 to R95, R151) and the sentence
(R96 to R99, R181, R261). -/

namespace Sys2Proof.Machine

open Sys2Proof.Config

/-- The bytes of a frame that its checksum covers: class, id, length (low byte first), payload (R93, R151). -/
def ubxBody (cls id : Byte) (payload : List Byte) : List Byte :=
  let n := BitVec.ofNat 16 payload.length
  cls :: id :: loByte n :: hiByte n :: payload

/-- A frame with the given checksum bytes (R90). -/
def ubxFrameBytes (cls id : Byte) (payload : List Byte) (ckA ckB : Byte) : List Byte :=
  sync1 :: sync2 :: (ubxBody cls id payload ++ [ckA, ckB])

/-- `ubx_encode` (R151): the frame with the checksum of R93; it fails with `PayloadTooLarge` where the payload has more
than 32767 bytes. -/
def ubxEncode (cls id : Byte) (payload : List Byte) : Except ResultCode (List Byte) :=
  if lenMax < payload.length then .error .errPayloadTooLarge
  else
    let c := ck2 (ubxBody cls id payload)
    .ok (ubxFrameBytes cls id payload c.1 c.2)

/-- The fields after the tag, each behind its comma (R181). -/
def fieldBytes : List (List Byte) → List Byte
  | [] => []
  | f :: fs => comma :: (f ++ fieldBytes fs)

/-- Tag and fields joined with commas (R180, R181). -/
def nmeaJoined (tag : List Byte) (fields : List (List Byte)) : List Byte :=
  tag ++ fieldBytes fields

/-- The five bytes that end a sentence whose checksum is `c`: marker, two hex digits, carriage return, line feed
(R96, R67). -/
def nmeaTail (c : Byte) : List Byte :=
  [star, hexchar (hiNibble c), hexchar (loNibble c), cr, lf]

/-- `nmea_encode` (R181): the joined text and its tail; the checksum omits the leading `$`. -/
def nmeaEncode (tag : List Byte) (fields : List (List Byte)) : List Byte :=
  let joined := nmeaJoined tag fields
  joined ++ nmeaTail (ckx joined.tail)

/-- Why a byte sequence is no sentence (R261). -/
inductive SentenceError where
  | format
  | checksum
  deriving DecidableEq, Repr

/-- The bytes a sentence's body may not hold: carriage return, line feed and a second `$` (R261). -/
def bodyStopper (b : Byte) : Bool := b = cr ∨ b = lf ∨ b = dollar

/-- The body up to the first `*`, and what follows it; none where a forbidden byte or the end comes first (R261). -/
def takeBody : List Byte → Option (List Byte × List Byte)
  | [] => none
  | b :: bs =>
    if b = star then some ([], bs)
    else if bodyStopper b then none
    else (takeBody bs).map fun p => (b :: p.1, p.2)

/-- A byte sequence split at every comma (R261). -/
def splitCommas : List Byte → List (List Byte)
  | [] => [[]]
  | b :: bs =>
    if b = comma then [] :: splitCommas bs
    else match splitCommas bs with
      | [] => [[b]]
      | f :: fs => (b :: f) :: fs

/-- The last five bytes of a sentence, the marker already taken: two hex digits, carriage return, line feed, and only
then the comparison (R261, R274). Answers what follows the sentence. -/
def checkTail (c : Byte) : List Byte → Except SentenceError (List Byte)
  | h :: l :: r :: n :: rest =>
    match hexval h, hexval l with
    | some hv, some lv =>
      if r ≠ cr ∨ n ≠ lf then .error .format
      else if packByte hv lv = c then .ok rest
      else .error .checksum
    | _, _ => .error .format
  | _ => .error .format

/-- `nmea_decode` (R261): the fields of the sentence a byte sequence begins with, and the bytes after it. Field 0 is the
tag with its `$`. -/
def nmeaDecode : List Byte → Except SentenceError (List (List Byte) × List Byte)
  | [] => .error .format
  | d :: bs =>
    if d ≠ dollar then .error .format
    else match takeBody bs with
      | none => .error .format
      | some (body, tail) =>
        match checkTail (ckx body) tail with
        | .error e => .error e
        | .ok rest => .ok (splitCommas (d :: body), rest)

end Sys2Proof.Machine
end

