-- ==== Sys2Proof/Syntax.lean ====
section
/-! DEFINITION. The syntax: one constructor for each of the 35 rows of the opcode table. -/

namespace Sys2Proof

/-- The rows of the opcode table, in the table's order. -/
inductive Instr where
  /-- `CK2`, command 0x01 (R138). -/
  | ck2
  /-- `CKX`, command 0x02 (R140). -/
  | ckx
  /-- `LOOKUP`, command 0x03 (R152). -/
  | lookup
  /-- `UBXENC`, command 0x04 (R156). -/
  | ubxenc
  /-- `UBXRECV`, command 0x05 (R212). -/
  | ubxrecv
  /-- `NMEAENC`, command 0x06 (R182). -/
  | nmeaenc
  /-- `NMEADEC`, command 0x07 (R262). -/
  | nmeadec
  /-- `RESERVED.CMD`: every other command byte (R101). -/
  | reservedCmd (op : Byte)
  /-- `SYM.CH`: the symbol `CH(b)` (R107). -/
  | symCh (b : Byte)
  /-- `SYM.FS`: a field ends; the data bits `d` are ignored on input (R107). -/
  | symFs (d : Byte)
  /-- `SYM.END`: the message ends; the data bits `d` are ignored on input (R107). -/
  | symEnd (d : Byte)
  /-- `SYM.RESERVED`: the reserved symbol kind (R108). -/
  | symReserved (d : Byte)
  /-- `UBX.FRAME`: a binary frame on the wire (R90). -/
  | ubxFrame (cls id : Byte) (payload : List Byte) (ckA ckB : Byte)
  /-- `NMEA.SENTENCE`: a text sentence on the wire (R96); `tag` holds the leading `$`. -/
  | nmeaSentence (tag : List Byte) (fields : List (List Byte))
  /-- `NAME.CFG-MSG`, index 0x00 (R112). -/
  | nameCfgMsg
  /-- `NAME.CFG-NAV5`, index 0x01 (R112). -/
  | nameCfgNav5
  /-- `NAME.CFG-CFG`, index 0x02 (R112). -/
  | nameCfgCfg
  /-- `NAME.GLL`, index 0x80 (R112). -/
  | nameGll
  /-- `NAME.RMC`, index 0x81 (R112). -/
  | nameRmc
  /-- `NAME.GSV`, index 0x82 (R112). -/
  | nameGsv
  /-- `RES_IDLE`, 0x00: no operation has completed since reset (R300). -/
  | resIdle
  /-- `RES_OK`, 0x01 (R300). -/
  | resOk
  /-- `RES_NO_MESSAGE`, 0x02 (R308). -/
  | resNoMessage
  /-- `ERR_PAYLOAD_TOO_LARGE`, 0x10 (R301). -/
  | errPayloadTooLarge
  /-- `ERR_UNKNOWN_MESSAGE_TYPE`, 0x11 (R302). -/
  | errUnknownMessageType
  /-- `ERR_FRAMING`, 0x12 (R303). -/
  | errFraming
  /-- `ERR_CHECKSUM_MISMATCH`, 0x13 (R304). -/
  | errChecksumMismatch
  /-- `ERR_TRANSPORT`, 0x14 (R305). -/
  | errTransport
  /-- `ERR_TEXT_FORMAT`, 0x15 (R306). -/
  | errTextFormat
  /-- `ERR_BAD_COMMAND`, 0x16 (R307). -/
  | errBadCommand
  /-- `UBXENC.NAMED name`, with the payload the host fills in (R170). -/
  | ubxencNamed (name : Byte) (payload : List Byte)
  /-- `PUBX.SETBAUD`: the five fields after the tag and the subtype `41` (R200). -/
  | pubxSetbaud (port inMask outMask baud autobaud : List Byte)
  /-- `PUBX.SETRATE`: tag, subtype, message-type code and five rates, all host-supplied (R201). -/
  | pubxSetrate (tag subtype code rate1 rate2 rate3 rate4 rate5 : List Byte)
  /-- `EXCHANGE`: one encode, then two receives, each with the budget `timeout` (R290). -/
  | exchange (message : Message) (timeout : Word)
  /-- `UBXDECODE bytes`: one receive fed exactly `bytes` (R244). -/
  | ubxdecode (bytes : List Byte)
  deriving DecidableEq, Repr

end Sys2Proof
end

