-- ==== Sys2Proof/WellFormed.lean ====
section
/-! DEFINITION. Which instructions are well formed: the operands the spec's own encodings and buffers admit. No meaning asks
for it: a pseudo-operation with other operands runs, and the block refuses what its rules refuse (R151, R186; log 12). -/

namespace Sys2Proof

open Sys2Proof.Machine Sys2Proof.Config

/-- The seven command codes of R100. -/
def definedOp (op : Byte) : Bool := 1 ≤ op ∧ op ≤ 7

/-- A character that a field may hold if the sentence is to be split back into the same fields (R278). -/
def fieldChar (b : Byte) : Bool := !(b = comma ∨ b = star ∨ b = cr ∨ b = lf ∨ b = dollar)

/-- A tag: `$`, then field characters (R96, R278). -/
def tagOk : List Byte → Bool
  | [] => false
  | d :: t => d = dollar && t.all fieldChar

/-- A payload that fits the length field (R90: `0 <= N <= 32767`). -/
def payloadOk (p : List Byte) : Bool := p.length ≤ lenMax

/-- A payload the host can write to TXBUF (R60, R64). -/
def bufferOk (p : List Byte) : Bool := p.length ≤ pbufBytes

/-- A tag that begins with `$` (R17); nothing is asked of the other characters (R196). -/
def startsDollar (t : List Byte) : Bool := t.head? = some dollar

/-- The message of an exchange (R290): a payload TXBUF can hold, or a tag that begins with `$`. -/
def Message.wf : Message → Bool
  | .binary _ _ p => bufferOk p
  | .text tag _ => startsDollar tag

/-- The checks, row by row. -/
def Instr.wf : Instr → Bool
  | .ck2 => true
  | .ckx => true
  | .lookup => true
  | .ubxenc => true
  | .ubxrecv => true
  | .nmeaenc => true
  | .nmeadec => true
  | .reservedCmd op => !definedOp op
  | .symCh _ => true
  | .symFs _ => true
  | .symEnd _ => true
  | .symReserved _ => true
  | .ubxFrame c i p a b => payloadOk p && decide (Machine.ck2 (ubxBody c i p) = (a, b))
  | .nmeaSentence tag fields => tagOk tag && fields.all fun f => f.all fieldChar
  | .nameCfgMsg => true
  | .nameCfgNav5 => true
  | .nameCfgCfg => true
  | .nameGll => true
  | .nameRmc => true
  | .nameGsv => true
  | .resIdle => true
  | .resOk => true
  | .resNoMessage => true
  | .errPayloadTooLarge => true
  | .errUnknownMessageType => true
  | .errFraming => true
  | .errChecksumMismatch => true
  | .errTransport => true
  | .errTextFormat => true
  | .errBadCommand => true
  | .ubxencNamed _ p => bufferOk p
  | .pubxSetbaud _ _ _ _ _ => true
  | .pubxSetrate tag _ _ _ _ _ _ _ => startsDollar tag
  | .exchange m _ => m.wf
  | .ubxdecode _ => true

end Sys2Proof
end

