-- ==== Sys2Proof/Decode.lean ====
section
/-! DEFINITION. The decoder, total on any bytes and rejecting by name, one function per format; after it the encoder.
A decoder answers the instruction and the bytes that follow it: every wire form ends itself (R92, R95, R99). -/

namespace Sys2Proof

open Sys2Proof.Machine Sys2Proof.Config

/-- Why bytes are not an instruction of a format. -/
inductive DecodeError where
  /-- The bytes end before the instruction does. -/
  | truncated
  /-- A symbol word with a bit set above bit 9 (R107: a symbol is 10 bits). -/
  | symbolWidth
  /-- A frame that does not begin with the two sync bytes (R90). -/
  | sync
  /-- A frame whose length field is negative (R94). -/
  | negativeLength
  /-- A frame whose last two bytes are not the checksum of its body (R93). -/
  | frameChecksum
  /-- Bytes that have not the form of a sentence (R96, R261). -/
  | sentenceForm
  /-- A sentence whose two digits are not its checksum (R98, R261). -/
  | sentenceChecksum
  /-- An index that names no entry of CIDROM (R113). -/
  | unknownName
  /-- A byte that is none of the ten result codes (R300). -/
  | unknownResult
  /-- A pseudo-operation has no word (R119). -/
  | noWord
  deriving DecidableEq, Repr

/-- The command a byte written to `CMD` selects (R100, R101): every byte selects one. -/
def decodeCommand (op : Byte) : Instr :=
  if op = 0x01 then .ck2
  else if op = 0x02 then .ckx
  else if op = 0x03 then .lookup
  else if op = 0x04 then .ubxenc
  else if op = 0x05 then .ubxrecv
  else if op = 0x06 then .nmeaenc
  else if op = 0x07 then .nmeadec
  else .reservedCmd op

/-- The symbol a 10-bit word stands for (R107): kind in bits 9 to 8, data in bits 7 to 0. -/
def decodeSymbol (w : BitVec 10) : Instr :=
  let d : Byte := w.extractLsb' 0 8
  if w.extractLsb' 8 2 = 0b00#2 then .symCh d
  else if w.extractLsb' 8 2 = 0b01#2 then .symFs d
  else if w.extractLsb' 8 2 = 0b10#2 then .symEnd d
  else .symReserved d

/-- The CIDROM row an index names (R112); every other index names nothing (R113). -/
def decodeName (n : Byte) : Option Instr :=
  if n = 0x00 then some .nameCfgMsg
  else if n = 0x01 then some .nameCfgNav5
  else if n = 0x02 then some .nameCfgCfg
  else if n = 0x80 then some .nameGll
  else if n = 0x81 then some .nameRmc
  else if n = 0x82 then some .nameGsv
  else none

/-- The outcome a value of `RESULT` shows (R300). -/
def decodeResult (c : Byte) : Option Instr :=
  if c = 0x00 then some .resIdle
  else if c = 0x01 then some .resOk
  else if c = 0x02 then some .resNoMessage
  else if c = 0x10 then some .errPayloadTooLarge
  else if c = 0x11 then some .errUnknownMessageType
  else if c = 0x12 then some .errFraming
  else if c = 0x13 then some .errChecksumMismatch
  else if c = 0x14 then some .errTransport
  else if c = 0x15 then some .errTextFormat
  else if c = 0x16 then some .errBadCommand
  else none

/-- The frame that bytes behind the two sync bytes hold (R90, R94, R95): the end is found from the length field. -/
def decodeFrameBody : List Byte → Except DecodeError (Instr × List Byte)
  | c :: i :: l :: h :: rest =>
    let n := packHalf l h
    if n.getLsbD 15 then .error .negativeLength
    else match rest.drop n.toNat with
      | a :: b :: tail =>
        let p := rest.take n.toNat
        if Machine.ck2 (ubxBody c i p) = (a, b) then .ok (.ubxFrame c i p a b, tail)
        else .error .frameChecksum
      | _ => .error .truncated
  | _ => .error .truncated

/-- The frame a byte sequence begins with (R90). -/
def decodeFrame : List Byte → Except DecodeError (Instr × List Byte)
  | s1 :: s2 :: rest => if s1 = sync1 ∧ s2 = sync2 then decodeFrameBody rest else .error .sync
  | _ => .error .truncated

/-- The sentence a byte sequence begins with (R96, R261). -/
def decodeSentence (bs : List Byte) : Except DecodeError (Instr × List Byte) :=
  match nmeaDecode bs with
  | .error .format => .error .sentenceForm
  | .error .checksum => .error .sentenceChecksum
  | .ok (tag :: fields, rest) => .ok (.nmeaSentence tag fields, rest)
  | .ok ([], _) => .error .sentenceForm

/-- The decoder: the instruction that bytes of a format begin with, and the bytes after it. A symbol word lies in two
bytes, its bits 7 to 0 first (log 23). -/
def decode (f : Format) (bs : List Byte) : Except DecodeError (Instr × List Byte) :=
  match f with
  | .cmd8 =>
    match bs with
    | op :: rest => .ok (decodeCommand op, rest)
    | [] => .error .truncated
  | .sym10 =>
    match bs with
    | lo :: hi :: rest =>
      if hi < 4 then .ok (decodeSymbol ((packHalf lo hi).setWidth 10), rest) else .error .symbolWidth
    | _ => .error .truncated
  | .frame => decodeFrame bs
  | .sentence => decodeSentence bs
  | .cidrom =>
    match bs with
    | n :: rest =>
      match decodeName n with
      | some i => .ok (i, rest)
      | none => .error .unknownName
    | [] => .error .truncated
  | .result8 =>
    match bs with
    | c :: rest =>
      match decodeResult c with
      | some i => .ok (i, rest)
      | none => .error .unknownResult
    | [] => .error .truncated
  | .pseudo => .error .noWord

/-- The instruction that is the whole of the given bytes, if they are one. -/
def decodeWhole (f : Format) (bs : List Byte) : Option Instr :=
  match decode f bs with
  | .ok (i, []) => some i
  | _ => none

/-- The format of a row (the table's "format"). -/
def Instr.format : Instr → Format
  | .ck2 => .cmd8
  | .ckx => .cmd8
  | .lookup => .cmd8
  | .ubxenc => .cmd8
  | .ubxrecv => .cmd8
  | .nmeaenc => .cmd8
  | .nmeadec => .cmd8
  | .reservedCmd _ => .cmd8
  | .symCh _ => .sym10
  | .symFs _ => .sym10
  | .symEnd _ => .sym10
  | .symReserved _ => .sym10
  | .ubxFrame _ _ _ _ _ => .frame
  | .nmeaSentence _ _ => .sentence
  | .nameCfgMsg => .cidrom
  | .nameCfgNav5 => .cidrom
  | .nameCfgCfg => .cidrom
  | .nameGll => .cidrom
  | .nameRmc => .cidrom
  | .nameGsv => .cidrom
  | .resIdle => .result8
  | .resOk => .result8
  | .resNoMessage => .result8
  | .errPayloadTooLarge => .result8
  | .errUnknownMessageType => .result8
  | .errFraming => .result8
  | .errChecksumMismatch => .result8
  | .errTransport => .result8
  | .errTextFormat => .result8
  | .errBadCommand => .result8
  | .ubxencNamed _ _ => .pseudo
  | .pubxSetbaud _ _ _ _ _ => .pseudo
  | .pubxSetrate _ _ _ _ _ _ _ _ => .pseudo
  | .exchange _ _ => .pseudo
  | .ubxdecode _ => .pseudo

/-- The 10-bit symbol word of a kind and data bits, in two bytes (R107; log 23). -/
def symbolBytes (kind : BitVec 2) (d : Byte) : List Byte := [d, kind.setWidth 8]

/-- The encoder: the bytes of a row, from the spec's encoding tables; a pseudo-operation has none (R119). -/
def encode : Instr → List Byte
  | .ck2 => [0x01]
  | .ckx => [0x02]
  | .lookup => [0x03]
  | .ubxenc => [0x04]
  | .ubxrecv => [0x05]
  | .nmeaenc => [0x06]
  | .nmeadec => [0x07]
  | .reservedCmd op => [op]
  | .symCh b => symbolBytes 0b00 b
  | .symFs d => symbolBytes 0b01 d
  | .symEnd d => symbolBytes 0b10 d
  | .symReserved d => symbolBytes 0b11 d
  | .ubxFrame c i p a b => ubxFrameBytes c i p a b
  | .nmeaSentence tag fields => nmeaEncode tag fields
  | .nameCfgMsg => [0x00]
  | .nameCfgNav5 => [0x01]
  | .nameCfgCfg => [0x02]
  | .nameGll => [0x80]
  | .nameRmc => [0x81]
  | .nameGsv => [0x82]
  | .resIdle => [0x00]
  | .resOk => [0x01]
  | .resNoMessage => [0x02]
  | .errPayloadTooLarge => [0x10]
  | .errUnknownMessageType => [0x11]
  | .errFraming => [0x12]
  | .errChecksumMismatch => [0x13]
  | .errTransport => [0x14]
  | .errTextFormat => [0x15]
  | .errBadCommand => [0x16]
  | .ubxencNamed _ _ => []
  | .pubxSetbaud _ _ _ _ _ => []
  | .pubxSetrate _ _ _ _ _ _ _ _ => []
  | .exchange _ _ => []
  | .ubxdecode _ => []

/-- The lowest `k` bytes of a table word, the first of them bits 7 to 0. -/
def wordBytes : Nat → Nat → List Byte
  | 0, _ => []
  | k + 1, w => BitVec.ofNat 8 (w % 256) :: wordBytes k (w / 256)

/-- The zero bytes that follow a frame's given bytes up to its end, as its length field tells it (a table word may give
a frame fewer bits than it has; the bits above are 0). -/
def frameFill (bs : List Byte) : List Byte :=
  let n := (packHalf (bs.getD 4 0) (bs.getD 5 0)).toNat
  List.replicate (8 + n - bs.length) 0

/-- The format and the bytes of a table word (log 7): one byte is a command byte; up to two bytes with no bit above bit 9
a symbol; bytes that begin with `$` a sentence; all else a frame. -/
def tableWord (nbits w : Nat) : Format × List Byte :=
  if nbits ≤ 8 then (.cmd8, wordBytes 1 w)
  else if nbits ≤ 16 ∧ w < 1024 then (.sym10, wordBytes 2 w)
  else
    let bs := wordBytes ((nbits + 7) / 8) w
    if bs.head? = some dollar then (.sentence, bs) else (.frame, bs ++ frameFill bs)

/-- The instruction the decoder reads from a table word of `nbits` bits. -/
def decodeTableWord (nbits w : Nat) : Option Instr :=
  let t := tableWord nbits w
  decodeWhole t.1 t.2

end Sys2Proof
end

