-- ==== Sys2Proof/Machine/State.lean ====
section
/-! DEFINITION. The state as plain data: everything the spec gives the block, the elements that wait on its streams, and
what the agents outside it will do (the last two are environment, R49; log 1, log 2, log 3). -/

namespace Sys2Proof.Machine

/-- The sequencing register `OPSTATE`, an enumeration of 31 values (R30). -/
inductive OpState where
  | idle
  | eSync1 | eSync2 | eCls | eId | eLen0 | eLen1 | ePay | eCkA | eCkB
  | rSeek | rSync2 | rCls | rId | rLen0 | rLen1 | rPay | rCkA | rCkB
  | tFirst | tBody | tHexHi | tHexLo | tCr | tLf
  | nStart | nBody | nHex1 | nHex2 | nCr | nLf
  deriving DecidableEq, Repr

/-- The fourteen host registers (R34). -/
inductive Reg where
  | cmd | status | result | argClsid | argLen | argName | timeout | elapsed
  | msgClsid | msgLen | ckout | rckout | xout | config
  deriving DecidableEq, Repr

/-- The two buffers the host can address (R60, R64). -/
inductive Buf where
  | txbuf | rxbuf
  deriving DecidableEq, Repr

/-- A symbol on `SIN` or `SOUT`: the three kinds of R107 and the reserved kind of R108. The data bits of the last three
carry nothing (R107). -/
inductive Symbol where
  | ch (b : Byte) | fs | endMsg | reserved
  deriving DecidableEq, Repr

/-- What the transport and the tick source will do next, in order (R49, R70, R213): an answer to a read request (one byte
or none), or a tick. -/
inductive LineEvent where
  | rx (r : Option Byte) | tick
  deriving DecidableEq, Repr

/-- A pseudo-operation the host carries out, with its operands (R119). -/
inductive Pseudo where
  /-- `UBXENC.NAMED` (R170). -/
  | ubxencNamed (name : Byte) (payload : List Byte)
  /-- `PUBX.SETBAUD` (R200). -/
  | pubxSetbaud (port inMask outMask baud autobaud : List Byte)
  /-- `PUBX.SETRATE` (R201). -/
  | pubxSetrate (tag subtype code rate1 rate2 rate3 rate4 rate5 : List Byte)
  /-- `EXCHANGE` (R290). -/
  | exchange (message : Message) (timeout : Word)
  /-- `UBXDECODE` (R244). -/
  | ubxdecode (bytes : List Byte)
  deriving DecidableEq, Repr

/-- The row of the opcode table a pseudo-operation is. -/
def Pseudo.instr : Pseudo → Instr
  | .ubxencNamed name p => .ubxencNamed name p
  | .pubxSetbaud port inMask outMask baud autobaud => .pubxSetbaud port inMask outMask baud autobaud
  | .pubxSetrate tag subtype code r1 r2 r3 r4 r5 => .pubxSetrate tag subtype code r1 r2 r3 r4 r5
  | .exchange m timeout => .exchange m timeout
  | .ubxdecode bytes => .ubxdecode bytes

/-- What an agent outside the block does next: the host sequence notation of R118, and the events of R13 that other
agents drive. Each has an effect in every state: an outcome, which no agent outside the block can issue (R37, R40), is
none of them. -/
inductive Event where
  /-- `WR r, v` (R118). -/
  | wr (r : Reg) (v : Word)
  /-- `RD r` (R118). -/
  | rd (r : Reg)
  /-- `WRBUF TXBUF[a], v` (R118, R64). -/
  | wrbuf (a : BitVec 15) (v : Byte)
  /-- `RDBUF b[a]` (R118, R64). -/
  | rdbuf (b : Buf) (a : BitVec 15)
  /-- `PUT SIN, y` (R118), the symbol as its 10-bit word (R107). -/
  | putSin (w : BitVec 10)
  /-- Bytes arrive at the transport, a frame's or any others (R71, R72, R90). -/
  | arrive (bytes : List Byte)
  /-- `PUT DIN, b` for one byte after the other, a sentence's or any others (R77, R96, R118). -/
  | putDin (bytes : List Byte)
  /-- The host names index `n`: `WR ARG_NAME, n`, then `LOOKUP` (R112, R152; log 9). -/
  | name (n : Byte)
  /-- The host carries out a pseudo-operation (R119). -/
  | call (p : Pseudo)
  /-- `GET SOUT` (R118): the host is ready to take one more symbol. -/
  | getSout
  /-- `WAIT` (R118): the host reads `STATUS` until `DONE = 1`. -/
  | wait
  /-- The host reads `RESULT` and passes over its next `n` actions if it is `code` (R170). -/
  | skipIf (code : Byte) (n : Nat)
  /-- The host copies out the received message (R290, R353). -/
  | copyMsg
  /-- The event `tick` (R213). -/
  | tick
  /-- The event `reset` (R340). -/
  | rst
  /-- The transport has one more answer, to be given when it is asked (R70, R72). -/
  | answer (r : Option Byte)
  /-- The sink becomes ready (`true`) or stops taking bytes (`false`) (R13, R73). -/
  | sink (ready : Bool)
  /-- Nobody outside acts: the block takes one step if it can. -/
  | go
  deriving DecidableEq, Repr

/-- What a read of the host returned (R118, R290). -/
inductive Reading where
  | reg (r : Reg) (v : Word)
  | byte (b : Buf) (a : Nat) (v : Byte)
  | message (result : Byte) (clsid len : Half) (payload : List Byte)
  deriving DecidableEq, Repr

/-- A buffer: the bytes that hold a value, as (address, byte) pairs with strictly rising addresses. An address that is
not listed holds no value (R52; log 4). -/
abbrev Memory := List Host.Cell

/-- Why the machine stops. -/
inductive Fault where
  /-- A buffer byte is read that nothing has written since reset (R52, U3). Raised by CK2, CKX, UBXENC in `E_PAY` and the
  host's buffer reads. Safe: the spec asks a model to fault here. -/
  | unwrittenByte (b : Buf) (a : Nat)
  /-- `CNT` addresses no byte of the buffer (R64: an address above 0x7FFF cannot be formed). Raised in `E_PAY` and `R_PAY`,
  in states that no run reaches (R25, R31). Safe. -/
  | outsideBuffer (b : Buf) (a : Nat)
  deriving DecidableEq, Repr

/-- What the model does not carry out. -/
inductive Refusal where
  /-- An instruction that has no meaning yet. Raised by arms of `exec` only; no arm raises it now. Safe. -/
  | notModelled (mnemonic : String)
  /-- A host access to TXBUF during a UBXENC or to RXBUF during a UBXRECV, which the spec leaves unspecified and asks a
  model to refuse (R351, U5). Raised by the host's buffer accesses. Safe. -/
  | bufferInUse (b : Buf)
  deriving DecidableEq, Repr

/-- The machine's state. -/
structure State where
  /-- `OPSTATE` (R30). -/
  opstate : OpState
  /-- `CK_A` (R21). -/
  ckA : Byte
  /-- `CK_B` (R21). -/
  ckB : Byte
  /-- `XACC` (R22). -/
  xacc : Byte
  /-- `CLS` (R23). -/
  cls : Byte
  /-- `ID` (R23). -/
  id : Byte
  /-- `LEN` (R24). -/
  len : Half
  /-- `CNT` (R25). -/
  cnt : Half
  /-- `RCK_A` (R26). -/
  rckA : Byte
  /-- `RCK_B` (R26). -/
  rckB : Byte
  /-- `RXCK` (R27). -/
  rxck : Byte
  /-- `MSG_CLS` (R28). -/
  msgCls : Byte
  /-- `MSG_ID` (R28). -/
  msgId : Byte
  /-- `MSG_LEN` (R28). -/
  msgLen : Half
  /-- `BUSY` (R32). -/
  busy : Bool
  /-- `DONE` (R32). -/
  done : Bool
  /-- `MSG_VALID` (R32). -/
  msgValid : Bool
  /-- `FE_SYNC2` (R32). -/
  feSync2 : Bool
  /-- `RESULT` (R33). -/
  result : Byte
  /-- `ARG_CLSID` (R38). -/
  argClsid : Half
  /-- `ARG_LEN` (R39). -/
  argLen : Half
  /-- `ARG_NAME` (R41). -/
  argName : Byte
  /-- `TIMEOUT` (R42). -/
  timeout : Word
  /-- `ELAPSED` (R43). -/
  elapsed : Word
  /-- `MAX_PAYLOAD`, bits 14 to 0 of `CONFIG` (R9, R46). -/
  maxPayload : BitVec 15
  /-- `CFG_FRAME_DEADLINE`, bit 15 of `CONFIG` (R9, R46). -/
  frameDeadline : Bool
  /-- `TXBUF` (R61). -/
  txbuf : Memory
  /-- `RXBUF` (R62). -/
  rxbuf : Memory
  /-- The transport's answers and the ticks still to come (R49, R70). -/
  line : List LineEvent
  /-- Symbols the host has offered on `SIN` and NMEAENC has not taken (R74). -/
  sin : List Symbol
  /-- Bytes the host has offered on `DIN` and NMEADEC has not taken (R77). -/
  din : List Byte
  /-- Bytes the sink has taken from the TX stream, in order (R73). -/
  tx : List Byte
  /-- Symbols the host has taken from `SOUT`, in order (R75). -/
  sout : List Symbol
  /-- The sink takes bytes (R13, R73). -/
  txReady : Bool
  /-- How many more symbols the host is ready to take (R13, R75). -/
  soutWanted : Nat
  /-- What the agents outside the block will do, in order (R13, R118). -/
  agenda : List Event
  /-- What the host's reads returned, in order (R118). -/
  seen : List Reading
  deriving DecidableEq, Repr

/-- The machine right after reset (R51): every register and flag 0, `OPSTATE` `IDLE`, no buffer byte holds a value,
`CONFIG` at the parameters' defaults (R9); nothing waits on a stream and nobody has anything to do (log 1, 2, 3, 6). -/
def State.reset : State where
  opstate := .idle
  ckA := 0
  ckB := 0
  xacc := 0
  cls := 0
  id := 0
  len := 0
  cnt := 0
  rckA := 0
  rckB := 0
  rxck := 0
  msgCls := 0
  msgId := 0
  msgLen := 0
  busy := false
  done := false
  msgValid := false
  feSync2 := false
  result := 0
  argClsid := 0
  argLen := 0
  argName := 0
  timeout := 0
  elapsed := 0
  maxPayload := 32767
  frameDeadline := false
  txbuf := []
  rxbuf := []
  line := []
  sin := []
  din := []
  tx := []
  sout := []
  txReady := true
  soutWanted := 0
  agenda := []
  seen := []

/-- What a step answers. -/
abbrev Result := Host.Outcome State Fault Refusal

end Sys2Proof.Machine
end

