-- ==== Sys2Proof/Machine/Flags.lean ====
section
/-! DEFINITION. The status word, the predicates the rules test, and the numbers of the outcomes. -/

namespace Sys2Proof.Machine

/-- The number an outcome has in `RESULT` (R300). -/
def resultCode : ResultCode → Byte
  | .resIdle => 0x00
  | .resOk => 0x01
  | .resNoMessage => 0x02
  | .errPayloadTooLarge => 0x10
  | .errUnknownMessageType => 0x11
  | .errFraming => 0x12
  | .errChecksumMismatch => 0x13
  | .errTransport => 0x14
  | .errTextFormat => 0x15
  | .errBadCommand => 0x16

/-- The values `RESULT` may hold (R37, R300). -/
def legalResult (c : Byte) : Bool :=
  [.resIdle, .resOk, .resNoMessage, .errPayloadTooLarge, .errUnknownMessageType, .errFraming, .errChecksumMismatch,
    .errTransport, .errTextFormat, .errBadCommand].any fun k => resultCode k = c

/-- `STATUS` (R36): `BUSY`, `DONE`, `MSG_VALID`, `FE_SYNC2` in bits 0 to 3, bits 7 to 4 zero. -/
def statusByte (s : State) : Byte :=
  0#4 ++ BitVec.ofBool s.feSync2 ++ BitVec.ofBool s.msgValid ++ BitVec.ofBool s.done ++ BitVec.ofBool s.busy

/-- The output line `done_irq`: equal to `DONE` at all times (R312). -/
def doneIrq (s : State) : Bool := s.done

/-- The nine receiver states (R30). -/
def OpState.isReceiver : OpState → Bool
  | .rSeek => true
  | .rSync2 => true
  | .rCls => true
  | .rId => true
  | .rLen0 => true
  | .rLen1 => true
  | .rPay => true
  | .rCkA => true
  | .rCkB => true
  | _ => false

/-- The nine states of the binary frame encoder (R30). -/
def OpState.isUbxEncoder : OpState → Bool
  | .eSync1 => true
  | .eSync2 => true
  | .eCls => true
  | .eId => true
  | .eLen0 => true
  | .eLen1 => true
  | .ePay => true
  | .eCkA => true
  | .eCkB => true
  | _ => false

/-- The block has a one-byte read request outstanding exactly in the receiver states (R50). -/
def readRequest (s : State) : Bool := s.opstate.isReceiver

/-- `expired`: the elapsed time exceeds the timeout, strictly (R214). -/
def expired (s : State) : Bool := s.timeout < s.elapsed

/-- The frame deadline has passed; the test is absent where `CFG_FRAME_DEADLINE = 0` (R234). -/
def deadlinePassed (s : State) : Bool := s.frameDeadline && expired s

/-- A received length is negative, or above `MAX_PAYLOAD` (R94, R228). -/
def badLength (s : State) (l : Half) : Bool := l.getLsbD 15 || s.maxPayload.toNat < l.toNat

end Sys2Proof.Machine
end

