-- ==== Sys2Proof/Machine/Ops.lean ====
section
/-! DEFINITION. The named operations: one byte of a buffer, a run of bytes, the emitting of a byte or a symbol, the
checksum registers, the acceptance of a command, the ending of an operation (this block's "trap entry", R316), the
tick and the reset event. -/

namespace Sys2Proof.Machine

/-! ### Buffers -/

/-- `MemRead(space, a, 1)` (R12); none where the byte holds no value (R52). -/
def Memory.read : Memory → Nat → Option Byte
  | [], _ => none
  | (x, v) :: m, a => if a = x then some v else Memory.read m a

/-- `MemWrite(space, a, 1, v)` (R12), keeping the addresses strictly rising. -/
def Memory.write : Memory → Nat → Byte → Memory
  | [], a, v => [(a, v)]
  | (x, w) :: m, a, v =>
    if a < x then (a, v) :: (x, w) :: m
    else if a = x then (a, v) :: m
    else (x, w) :: Memory.write m a v

/-- Every address listed is above `lo` and below the next one. -/
def Memory.risingFrom : Nat → Memory → Bool
  | _, [] => true
  | lo, (x, _) :: m => lo ≤ x && Memory.risingFrom (x + 1) m

/-- The canonical form of a buffer: strictly rising addresses, all of them in the buffer (R60). -/
def Memory.wf (m : Memory) : Bool :=
  Memory.risingFrom 0 m && m.all fun c => decide (c.1 < Config.pbufBytes)

/-- The bytes at the `n` addresses from `a` on, in increasing order; the first address without a value if there is one
(R138, R65). -/
def Memory.readFrom (m : Memory) : Nat → Nat → Except Nat (List Byte)
  | _, 0 => .ok []
  | a, n + 1 =>
    match Memory.read m a with
    | none => .error a
    | some b =>
      match Memory.readFrom m (a + 1) n with
      | .error e => .error e
      | .ok bs => .ok (b :: bs)

/-! ### Outputs and checksum registers -/

/-- The event `tx(b)`: the sink takes byte `b` (R13, R73). -/
def emitTx (b : Byte) (s : State) : State :=
  { s with tx := s.tx ++ [b] }

/-- The event `sout(y)`: the host takes symbol `y` (R13, R75). -/
def emitSout (y : Symbol) (s : State) : State :=
  { s with sout := s.sout ++ [y], soutWanted := s.soutWanted - 1 }

/-- `(CK_A, CK_B) <- ck2_step(CK_A, CK_B, x)` (R130). -/
def foldCk2 (x : Byte) (s : State) : State :=
  { s with ckA := (ck2Step (s.ckA, s.ckB) x).1, ckB := (ck2Step (s.ckA, s.ckB) x).2 }

/-- `XACC <- ckx_step(XACC, x)` (R134). -/
def foldXacc (x : Byte) (s : State) : State :=
  { s with xacc := ckxStep s.xacc x }

/-- `OPSTATE <- o` (R12). -/
def goTo (o : OpState) (s : State) : State :=
  { s with opstate := o }

/-! ### Acceptance and completion -/

/-- The acceptance of any command clears `DONE` before the command's own effect (R32). -/
def acceptCmd (s : State) : State :=
  { s with done := false }

/-- `complete(code)` (R14, R316): `RESULT <- code`, `BUSY <- 0`, `DONE <- 1`, `OPSTATE <- IDLE`, nothing else. It is what
takes an exception here: `raise E` is `complete` of the code of `E`. Nothing is saved and there is no return (R318). -/
def complete (c : ResultCode) (s : State) : State :=
  { s with result := resultCode c, busy := false, done := true, opstate := .idle }

/-- A command that ends in the step that accepts it (R32, R33): `RESULT <- code`, `DONE <- 1`; `BUSY` stays 0 and
`OPSTATE` stays `IDLE` (R101, R138). -/
def report (c : ResultCode) (s : State) : State :=
  { s with result := resultCode c, done := true }

/-- An accepted operation begins: `BUSY <- 1`, `OPSTATE <- o` (R156, R182, R212, R262). -/
def beginOp (o : OpState) (s : State) : State :=
  { s with busy := true, opstate := o }

/-- The event `cmd` of a command with the given effect: enabled only while `BUSY = 0`; a write to `CMD` while `BUSY = 1` is
no event and is ignored (R35, R40). Acceptance comes before the effect (R32). -/
def onCmd (effect : State → Result) (s : State) : Result :=
  if s.busy then .next s else effect (acceptCmd s)

/-! ### A step that emits a byte -/

/-- A step that emits byte `b` and has the effect `f`: it happens when the sink is ready; otherwise the block waits and
nothing changes (R13, R73, U6). -/
def txStep (b : Byte) (f : State → State) (s : State) : Result :=
  if s.txReady then .next (emitTx b (f s)) else .next s

/-! ### Time and reset -/

/-- The event `tick` (R213): `ELAPSED` counts in the receiver states, saturating; elsewhere nothing changes. -/
def tickEvent (s : State) : State :=
  if s.opstate.isReceiver then
    { s with elapsed := if s.elapsed = 0xFFFFFFFF then s.elapsed else s.elapsed + 1 }
  else s

/-- The event `reset` (R340, R341): every register, flag and `OPSTATE` to its reset value; the parameters stay, and so
does everything outside the block: what was emitted stays emitted, what was consumed stays consumed, what waits on a
stream still waits. No buffer byte has been written since this reset, so none holds a value (R51, R52; log 5). -/
def resetEvent (s : State) : State :=
  { State.reset with
    maxPayload := s.maxPayload, frameDeadline := s.frameDeadline,
    line := s.line, sin := s.sin, din := s.din, tx := s.tx, sout := s.sout,
    txReady := s.txReady, soutWanted := s.soutWanted, agenda := s.agenda, seen := s.seen }

end Sys2Proof.Machine
end

