-- ==== Sys2Proof/Machine/Operands.lean ====
section
/-! DEFINITION. The operand forms: the host register file (R34 to R46), the name ROM (R112), symbol words (R107), and
the field list as symbols (R107). -/

namespace Sys2Proof.Machine

/-- `CIDROM` (R63, R112): the class and id an index names; every other index names nothing (R113). -/
def cidRom (n : Byte) : Option (Byte × Byte) :=
  if n = 0x00 then some (0x06, 0x01)
  else if n = 0x01 then some (0x06, 0x24)
  else if n = 0x02 then some (0x06, 0x09)
  else if n = 0x80 then some (0xF0, 0x01)
  else if n = 0x81 then some (0xF0, 0x04)
  else if n = 0x82 then some (0xF0, 0x03)
  else none

/-- A host read of a register (R34 to R46), zero-extended to 32 bits. It never changes state (R46). -/
def readReg (r : Reg) (s : State) : Word :=
  match r with
  | .cmd => 0
  | .status => (statusByte s).setWidth 32
  | .result => s.result.setWidth 32
  | .argClsid => s.argClsid.setWidth 32
  | .argLen => s.argLen.setWidth 32
  | .argName => s.argName.setWidth 32
  | .timeout => s.timeout
  | .elapsed => s.elapsed
  | .msgClsid => (packHalf s.msgCls s.msgId).setWidth 32
  | .msgLen => s.msgLen.setWidth 32
  | .ckout => (packHalf s.ckA s.ckB).setWidth 32
  | .rckout => (packHalf s.rckA s.rckB).setWidth 32
  | .xout => (packHalf s.xacc s.rxck).setWidth 32
  | .config => 0#16 ++ BitVec.ofBool s.frameDeadline ++ s.maxPayload

/-- A host write of a register other than `CMD` (R34, R46): ignored while `BUSY = 1`; a read-only register ignores it at
any time; the value is cut to the register's width (R12). A write to `CMD` is a command and goes to the decoder. -/
def writeReg (r : Reg) (v : Word) (s : State) : State :=
  if s.busy then s
  else match r with
    | .cmd => s
    | .status => s
    | .result => s
    | .argClsid => { s with argClsid := v.setWidth 16 }
    | .argLen => { s with argLen := v.setWidth 16 }
    | .argName => { s with argName := v.setWidth 8 }
    | .timeout => { s with timeout := v }
    | .elapsed => s
    | .msgClsid => s
    | .msgLen => s
    | .ckout => s
    | .rckout => s
    | .xout => s
    | .config => s

/-- The number of a host register (R34). -/
def regNumber : Reg → Nat
  | .cmd => 0
  | .status => 1
  | .result => 2
  | .argClsid => 3
  | .argLen => 4
  | .argName => 5
  | .timeout => 6
  | .elapsed => 7
  | .msgClsid => 8
  | .msgLen => 9
  | .ckout => 10
  | .rckout => 11
  | .xout => 12
  | .config => 13

/-- The buffer's contents. -/
def bufOf (b : Buf) (s : State) : Memory :=
  match b with
  | .txbuf => s.txbuf
  | .rxbuf => s.rxbuf

/-- The 10-bit word of a symbol as the block emits it: data bits 0 but for `CH` (R107). -/
def symbolWord : Symbol → BitVec 10
  | .ch b => b.setWidth 10
  | .fs => 0x100
  | .endMsg => 0x200
  | .reserved => 0x300

/-- The symbols of the fields after the tag: `FS`, then the field's characters, field by field (R107). -/
def fieldSymbols : List (List Byte) → List Symbol
  | [] => []
  | f :: fs => .fs :: (f.map .ch ++ fieldSymbols fs)

/-- A text message as the symbol sequence of R107: the tag, the fields, `END`. -/
def messageSymbols (tag : List Byte) (fields : List (List Byte)) : List Symbol :=
  tag.map .ch ++ fieldSymbols fields ++ [.endMsg]

end Sys2Proof.Machine
end

