-- ==== Sys2Proof/Machine/NmeaDecoder.lean ====
section
/-! DEFINITION. The NMEA sentence decoder: NMEADEC and its six states (44_nmea_decoder.md), and a sentence offered on
`DIN`. -/

namespace Sys2Proof.Machine

open Sys2Proof.Config

/-- The effect of an accepted NMEADEC (R262). -/
def nmeadecEffect (s : State) : Result := .next (beginOp .nStart { s with xacc := 0, rxck := 0 })

/-- `NMEADEC` (R262). -/
def execNmeadec (s : State) : Result := onCmd nmeadecEffect s

/-- The next byte of `DIN` goes to `f`, which sees the state without it; while there is none the decoder waits (R77,
R279). A step of `f` that cannot happen leaves the byte where it is: `f` also gets the state as it was. -/
def onDin (f : Byte → State → State → Result) (s : State) : Result :=
  match s.din with
  | [] => .next s
  | b :: rest => f b { s with din := rest } s

/-- A decoder step that takes the byte and emits symbol `y` with the effect `f`: when the host is not ready to take the
symbol nothing happens, and the byte stays (R13, R279). -/
def dinEmit (y : Symbol) (f : State → State) (taken whole : State) : Result :=
  if 0 < whole.soutWanted then .next (emitSout y (f taken)) else .next whole

/-- State `N_START` on a byte (R264). -/
def dinStart (b : Byte) (taken whole : State) : Result :=
  if b = dollar then dinEmit (.ch dollar) (goTo .nBody) taken whole
  else .next (complete .errTextFormat taken)

/-- State `N_BODY` on a byte (R266). -/
def dinBody (b : Byte) (taken whole : State) : Result :=
  if b = comma then dinEmit .fs (foldXacc comma) taken whole
  else if b = star then .next (goTo .nHex1 taken)
  else if bodyStopper b then .next (complete .errTextFormat taken)
  else dinEmit (.ch b) (foldXacc b) taken whole

/-- State `N_HEX1` on a byte (R268). -/
def dinHex1 (b : Byte) (taken _whole : State) : Result :=
  match hexval b with
  | some v => .next (goTo .nHex2 { taken with rxck := packByte v (loNibble taken.rxck) })
  | none => .next (complete .errTextFormat taken)

/-- State `N_HEX2` on a byte (R270); the checksum is not compared yet. -/
def dinHex2 (b : Byte) (taken _whole : State) : Result :=
  match hexval b with
  | some v => .next (goTo .nCr { taken with rxck := packByte (hiNibble taken.rxck) v })
  | none => .next (complete .errTextFormat taken)

/-- State `N_CR` on a byte (R272). -/
def dinCr (b : Byte) (taken _whole : State) : Result :=
  if b = cr then .next (goTo .nLf taken) else .next (complete .errTextFormat taken)

/-- State `N_LF` on a byte (R274): the verdict. -/
def dinLf (b : Byte) (taken whole : State) : Result :=
  if b = lf then
    if taken.rxck = taken.xacc then dinEmit .endMsg (complete .resOk) taken whole
    else .next (complete .errChecksumMismatch taken)
  else .next (complete .errTextFormat taken)

/-- State `N_START` (R264). -/
def stepNStart (s : State) : Result := onDin dinStart s

/-- State `N_BODY` (R266). -/
def stepNBody (s : State) : Result := onDin dinBody s

/-- State `N_HEX1` (R268). -/
def stepNHex1 (s : State) : Result := onDin dinHex1 s

/-- State `N_HEX2` (R270). -/
def stepNHex2 (s : State) : Result := onDin dinHex2 s

/-- State `N_CR` (R272). -/
def stepNCr (s : State) : Result := onDin dinCr s

/-- State `N_LF` (R274). -/
def stepNLf (s : State) : Result := onDin dinLf s

/-- The host offers bytes on `DIN`, behind what waits there (R77). -/
def offerBytes (bs : List Byte) (s : State) : State := { s with din := s.din ++ bs }

/-- `NMEA.SENTENCE` (R96): the host offers the sentence's bytes on `DIN`, behind what waits there; the decoder takes them
one at a time (R77; log 11). -/
def execNmeaSentence (tag : List Byte) (fields : List (List Byte)) (s : State) : Result :=
  .next (offerBytes (nmeaEncode tag fields) s)

end Sys2Proof.Machine
end

