-- ==== Sys2Proof/Machine/NmeaEncoder.lean ====
section
/-! DEFINITION. The NMEA sentence encoder: NMEAENC, its six states, and the symbols offered on `SIN`
(42_nmea_encoder.md). -/

namespace Sys2Proof.Machine

open Sys2Proof.Config

/-- The effect of an accepted NMEAENC (R182). -/
def nmeaencEffect (s : State) : Result := .next (beginOp .tFirst { s with xacc := 0 })

/-- `NMEAENC` (R182). -/
def execNmeaenc (s : State) : Result := onCmd nmeaencEffect s

/-- State `T_FIRST` (R186): the first symbol must be the `$` of the tag; any other ends the operation and emits
nothing. -/
def stepTFirst (s : State) : Result :=
  match s.sin with
  | [] => .next s
  | y :: rest =>
    if y = .ch dollar then txStep dollar (fun t => goTo .tBody { t with sin := rest }) s
    else .next (complete .errTextFormat { s with sin := rest })

/-- State `T_BODY` (R188): no character is checked (R196). -/
def stepTBody (s : State) : Result :=
  match s.sin with
  | [] => .next s
  | .ch b :: rest => txStep b (fun t => foldXacc b { t with sin := rest }) s
  | .fs :: rest => txStep comma (fun t => foldXacc comma { t with sin := rest }) s
  | .endMsg :: rest => txStep star (fun t => goTo .tHexHi { t with sin := rest }) s
  | .reserved :: rest => .next (complete .errTextFormat { s with sin := rest })

/-- State `T_HEXHI` (R190). -/
def stepTHexHi (s : State) : Result := txStep (hexchar (hiNibble s.xacc)) (goTo .tHexLo) s

/-- State `T_HEXLO` (R191). -/
def stepTHexLo (s : State) : Result := txStep (hexchar (loNibble s.xacc)) (goTo .tCr) s

/-- State `T_CR` (R192). -/
def stepTCr (s : State) : Result := txStep cr (goTo .tLf) s

/-- State `T_LF` (R193). -/
def stepTLf (s : State) : Result := txStep lf (complete .resOk) s

/-- NMEAENC takes symbols only in `T_FIRST` and `T_BODY` (R74). -/
def takeSymbol (s : State) : Result :=
  match s.opstate with
  | .tFirst => stepTFirst s
  | .tBody => stepTBody s
  | _ => .next s

/-- The host offers a symbol: it goes behind the symbols that wait, and NMEAENC takes the first of them in the same step
if the event `sin` is enabled; otherwise it waits (R13, R74; log 10). -/
def offerSymbol (y : Symbol) (s : State) : Result :=
  takeSymbol { s with sin := s.sin ++ [y] }

/-- `SYM.CH` (R107, R186, R188). -/
def execSymCh (b : Byte) (s : State) : Result := offerSymbol (.ch b) s

/-- `SYM.FS` (R107, R188); the data bits are ignored on input. -/
def execSymFs (_d : Byte) (s : State) : Result := offerSymbol .fs s

/-- `SYM.END` (R107, R188); the data bits are ignored on input. -/
def execSymEnd (_d : Byte) (s : State) : Result := offerSymbol .endMsg s

/-- `SYM.RESERVED` (R108, R186, R188). -/
def execSymReserved (_d : Byte) (s : State) : Result := offerSymbol .reserved s

end Sys2Proof.Machine
end

