-- ==== Sys2Proof/Machine/Receiver.lean ====
section
/-! DEFINITION. The frame receiver: UBXRECV, the synchronizer and the decoder (43_receiver.md), and a frame that arrives
at the transport. -/

namespace Sys2Proof.Machine

open Sys2Proof.Config

/-- The effect of an accepted UBXRECV (R212): the timer starts from 0, the earlier message is given up. -/
def ubxrecvEffect (s : State) : Result :=
  .next (beginOp .rSeek { s with elapsed := 0, feSync2 := false, msgValid := false })

/-- `UBXRECV` (R212). -/
def execUbxrecv (s : State) : Result := onCmd ubxrecvEffect s

/-- State `R_SEEK` on an answer (R216): the timeout test comes first; a short read is an idle poll. -/
def rxSeek (r : Option Byte) (s : State) : Result :=
  if expired s then .next (complete .resNoMessage s)
  else if r = some sync1 then .next (goTo .rSync2 s)
  else .next s

/-- The tests common to the eight mid-frame states: the frame deadline (R234), then the short read (R236), then the
state's own effect `f` of the byte. -/
def midFrame (f : Byte → State → Result) (r : Option Byte) (s : State) : Result :=
  if deadlinePassed s then .next (complete .resNoMessage s)
  else match r with
    | none => .next (complete .errTransport s)
    | some b => f b s

/-- State `R_SYNC2` (R222): a wrong second sync byte is discarded, recorded, and the seek goes on; it is not looked at
again (R223). -/
def rxSync2 (b : Byte) (s : State) : Result :=
  if b = sync2 then .next (goTo .rCls { s with ckA := 0, ckB := 0 })
  else .next (goTo .rSeek { s with feSync2 := true })

/-- State `R_CLS` (R224). -/
def rxCls (b : Byte) (s : State) : Result := .next (goTo .rId (foldCk2 b { s with cls := b }))

/-- State `R_ID` (R225). -/
def rxId (b : Byte) (s : State) : Result := .next (goTo .rLen0 (foldCk2 b { s with id := b }))

/-- State `R_LEN0` (R226): only the low byte of `LEN` is written. -/
def rxLen0 (b : Byte) (s : State) : Result :=
  .next (goTo .rLen1 (foldCk2 b { s with len := packHalf b (hiByte s.len) }))

/-- State `R_LEN1` (R228): the length test is made on the completed `LEN`. -/
def rxLen1 (b : Byte) (s : State) : Result :=
  let l := packHalf (loByte s.len) b
  let t := foldCk2 b { s with len := l, cnt := 0 }
  if badLength s l then .next (complete .errFraming t)
  else if l = 0 then .next (goTo .rCkA t)
  else .next (goTo .rPay t)

/-- State `R_PAY` (R230). -/
def rxPay (b : Byte) (s : State) : Result :=
  if lenMax < s.cnt.toNat then .fault (.outsideBuffer .rxbuf s.cnt.toNat)
  else .next (goTo (if s.cnt + 1 = s.len then .rCkA else .rPay)
    (foldCk2 b { s with rxbuf := s.rxbuf.write s.cnt.toNat b, cnt := s.cnt + 1 }))

/-- State `R_CKA` (R231). -/
def rxCkA (b : Byte) (s : State) : Result := .next (goTo .rCkB { s with rckA := b })

/-- State `R_CKB` (R232): the verdict. -/
def rxCkB (b : Byte) (s : State) : Result :=
  if s.rckA = s.ckA ∧ b = s.ckB then
    .next (complete .resOk
      { s with rckB := b, msgCls := s.cls, msgId := s.id, msgLen := s.len, msgValid := true })
  else .next (complete .errChecksumMismatch { s with rckB := b })

/-- The next thing on the line in a receiver state: an answer goes to `f`, a tick counts, and while there is neither the
block waits (R70, R213, R240). -/
def onLine (f : Option Byte → State → Result) (s : State) : Result :=
  match s.line with
  | [] => .next s
  | .tick :: rest => .next (tickEvent { s with line := rest })
  | .rx r :: rest => f r { s with line := rest }

/-- State `R_SEEK` (R216). -/
def stepRSeek (s : State) : Result := onLine rxSeek s

/-- State `R_SYNC2` (R222). -/
def stepRSync2 (s : State) : Result := onLine (midFrame rxSync2) s

/-- State `R_CLS` (R224). -/
def stepRCls (s : State) : Result := onLine (midFrame rxCls) s

/-- State `R_ID` (R225). -/
def stepRId (s : State) : Result := onLine (midFrame rxId) s

/-- State `R_LEN0` (R226). -/
def stepRLen0 (s : State) : Result := onLine (midFrame rxLen0) s

/-- State `R_LEN1` (R228). -/
def stepRLen1 (s : State) : Result := onLine (midFrame rxLen1) s

/-- State `R_PAY` (R230). -/
def stepRPay (s : State) : Result := onLine (midFrame rxPay) s

/-- State `R_CKA` (R231). -/
def stepRCkA (s : State) : Result := onLine (midFrame rxCkA) s

/-- State `R_CKB` (R232). -/
def stepRCkB (s : State) : Result := onLine (midFrame rxCkB) s

/-- Bytes as answers of the transport (R70). -/
def answers (bs : List Byte) : List LineEvent := bs.map fun b => .rx (some b)

/-- Bytes arrive at the transport, behind what waits there (R70, R71, R72). -/
def arriveBytes (bs : List Byte) (s : State) : State := { s with line := s.line ++ answers bs }

/-- `UBX.FRAME` (R90): the frame's bytes arrive at the transport, behind what waits there; the block takes them one at a
time as it asks for them (R70, R71, R72; log 11). -/
def execUbxFrame (c i : Byte) (p : List Byte) (a b : Byte) (s : State) : Result :=
  .next (arriveBytes (ubxFrameBytes c i p a b) s)

end Sys2Proof.Machine
end

