-- ==== Sys2Proof/Machine/UbxEncoder.lean ====
section
/-! DEFINITION. LOOKUP, the six names of CIDROM, and the UBX binary frame encoder: UBXENC and its nine states
(41_ubx_encoder.md). -/

namespace Sys2Proof.Machine

open Sys2Proof.Config

/-! ### LOOKUP and the names -/

/-- The effect of an accepted LOOKUP (R152). -/
def lookupEffect (s : State) : Result :=
  match cidRom s.argName with
  | some (c, i) => .next (report .resOk { s with argClsid := packHalf c i })
  | none => .next (report .errUnknownMessageType s)

/-- `LOOKUP` (R152). -/
def execLookup (s : State) : Result := onCmd lookupEffect s

/-- The host names an entry: `WR ARG_NAME, n`, then `LOOKUP` (R112, R152, R170; log 9). -/
def namedLookup (n : Byte) (s : State) : Result :=
  onCmd lookupEffect (writeReg .argName (n.setWidth 32) s)

/-- `NAME.CFG-MSG` (R112). -/
def execNameCfgMsg (s : State) : Result := namedLookup 0x00 s

/-- `NAME.CFG-NAV5` (R112). -/
def execNameCfgNav5 (s : State) : Result := namedLookup 0x01 s

/-- `NAME.CFG-CFG` (R112). -/
def execNameCfgCfg (s : State) : Result := namedLookup 0x02 s

/-- `NAME.GLL` (R112). -/
def execNameGll (s : State) : Result := namedLookup 0x80 s

/-- `NAME.RMC` (R112). -/
def execNameRmc (s : State) : Result := namedLookup 0x81 s

/-- `NAME.GSV` (R112). -/
def execNameGsv (s : State) : Result := namedLookup 0x82 s

/-! ### UBXENC -/

/-- The effect of an accepted UBXENC (R156): the length is checked before anything is offered. -/
def ubxencEffect (s : State) : Result :=
  if lenMax < s.argLen.toNat then .next (report .errPayloadTooLarge s)
  else .next (beginOp .eSync1
    { s with cls := loByte s.argClsid, id := hiByte s.argClsid, len := s.argLen, ckA := 0, ckB := 0, cnt := 0 })

/-- `UBXENC` (R156). -/
def execUbxenc (s : State) : Result := onCmd ubxencEffect s

/-- State `E_SYNC1` (R157). -/
def stepESync1 (s : State) : Result := txStep sync1 (goTo .eSync2) s

/-- State `E_SYNC2` (R158). -/
def stepESync2 (s : State) : Result := txStep sync2 (goTo .eCls) s

/-- State `E_CLS` (R159). -/
def stepECls (s : State) : Result := txStep s.cls (fun t => goTo .eId (foldCk2 s.cls t)) s

/-- State `E_ID` (R160). -/
def stepEId (s : State) : Result := txStep s.id (fun t => goTo .eLen0 (foldCk2 s.id t)) s

/-- State `E_LEN0` (R161). -/
def stepELen0 (s : State) : Result :=
  txStep (loByte s.len) (fun t => goTo .eLen1 (foldCk2 (loByte s.len) t)) s

/-- State `E_LEN1` (R162): an empty payload goes straight to the checksum. -/
def stepELen1 (s : State) : Result :=
  txStep (hiByte s.len) (fun t => goTo (if s.len = 0 then .eCkA else .ePay) (foldCk2 (hiByte s.len) t)) s

/-- The effect of emitting payload byte `x` (R163). -/
def ePayEffect (x : Byte) (s : State) : State :=
  goTo (if s.cnt + 1 = s.len then .eCkA else .ePay) (foldCk2 x { s with cnt := s.cnt + 1 })

/-- State `E_PAY` (R163): the byte offered is `TXBUF[CNT]`; a byte that holds no value stops the machine (R52). -/
def stepEPay (s : State) : Result :=
  if s.txReady then
    if lenMax < s.cnt.toNat then .fault (.outsideBuffer .txbuf s.cnt.toNat)
    else match s.txbuf.read s.cnt.toNat with
      | none => .fault (.unwrittenByte .txbuf s.cnt.toNat)
      | some x => txStep x (ePayEffect x) s
  else .next s

/-- State `E_CKA` (R164). -/
def stepECkA (s : State) : Result := txStep s.ckA (goTo .eCkB) s

/-- State `E_CKB` (R165). -/
def stepECkB (s : State) : Result := txStep s.ckB (complete .resOk) s

end Sys2Proof.Machine
end

