-- ==== Sys2Proof/Machine/Block.lean ====
section
/-! DEFINITION. One step of the block itself: the transition rule of its `OPSTATE` (R30, R31). -/

namespace Sys2Proof.Machine

/-- The transition of the current `OPSTATE`; where the step is not enabled the block waits and the state does not change
(R13, R240, U6). In `IDLE` the block does nothing (R342). -/
def blockMove (s : State) : Result :=
  match s.opstate with
  | .idle => .next s
  | .eSync1 => stepESync1 s
  | .eSync2 => stepESync2 s
  | .eCls => stepECls s
  | .eId => stepEId s
  | .eLen0 => stepELen0 s
  | .eLen1 => stepELen1 s
  | .ePay => stepEPay s
  | .eCkA => stepECkA s
  | .eCkB => stepECkB s
  | .rSeek => stepRSeek s
  | .rSync2 => stepRSync2 s
  | .rCls => stepRCls s
  | .rId => stepRId s
  | .rLen0 => stepRLen0 s
  | .rLen1 => stepRLen1 s
  | .rPay => stepRPay s
  | .rCkA => stepRCkA s
  | .rCkB => stepRCkB s
  | .tFirst => stepTFirst s
  | .tBody => stepTBody s
  | .tHexHi => stepTHexHi s
  | .tHexLo => stepTHexLo s
  | .tCr => stepTCr s
  | .tLf => stepTLf s
  | .nStart => stepNStart s
  | .nBody => stepNBody s
  | .nHex1 => stepNHex1 s
  | .nHex2 => stepNHex2 s
  | .nCr => stepNCr s
  | .nLf => stepNLf s

/-- One step in which nobody acts for the host: a tick that is due passes, and changes nothing outside the receiver
states (R213); an answer of the transport waits there until the block asks for it (R72); otherwise the block moves
(log 16). -/
def blockStep (s : State) : Result :=
  if s.opstate.isReceiver then blockMove s
  else match s.line with
    | .tick :: rest => .next (tickEvent { s with line := rest })
    | _ => blockMove s

end Sys2Proof.Machine
end

