-- ==== Sys2Proof/Machine/ChecksumUnits.lean ====
section
/-! DEFINITION. The units CK2 and CKX run alone (40_checksum.md), and the reserved command codes (R101). -/

namespace Sys2Proof.Machine

/-- The bytes `TXBUF[0 .. ARG_LEN-1]` given to `k`, once the count is checked against the buffer (R138, R140, R301); a
byte that holds no value stops the machine (R52). -/
def foldTxbuf (k : List Byte → State → State) (s : State) : Result :=
  if Config.pbufBytes < s.argLen.toNat then .next (report .errPayloadTooLarge s)
  else match s.txbuf.readFrom 0 s.argLen.toNat with
    | .error a => .fault (.unwrittenByte .txbuf a)
    | .ok bs => .next (report .resOk (k bs s))

/-- `CK_A`, `CK_B` take the dual sum of the bytes (R138). -/
def setCk2 (bs : List Byte) (s : State) : State := { s with ckA := (ck2 bs).1, ckB := (ck2 bs).2 }

/-- `XACC` takes the XOR of the bytes (R140). -/
def setCkx (bs : List Byte) (s : State) : State := { s with xacc := ckx bs }

/-- `CK2` (R138). -/
def execCk2 (s : State) : Result := onCmd (foldTxbuf setCk2) s

/-- `CKX` (R140). -/
def execCkx (s : State) : Result := onCmd (foldTxbuf setCkx) s

/-- The effect of a reserved command code (R101): the code itself has no part in it. -/
def badCommandEffect (s : State) : Result := .next (report .errBadCommand s)

/-- `RESERVED.CMD` (R101). -/
def execReservedCmd (_op : Byte) (s : State) : Result := onCmd badCommandEffect s

end Sys2Proof.Machine
end

