-- ==== Sys2Proof/Machine/Outcomes.lean ====
section
/-! DEFINITION. The ten outcomes (R300): each ends the operation in progress with its code, which is what taking an
exception is for this block (R14, R316); `RES_IDLE` is raised by reset only and is the reset event (R300, R340; log 8).
The block raises them; no agent outside it can (R37, R40). -/

namespace Sys2Proof.Machine

/-- `RES_IDLE` (R300): the reset event (R340). -/
def execResIdle (s : State) : Result := .next (resetEvent s)

/-- `RES_OK` (R300). -/
def execResOk (s : State) : Result := .next (complete .resOk s)

/-- `RES_NO_MESSAGE` (R308). -/
def execResNoMessage (s : State) : Result := .next (complete .resNoMessage s)

/-- `ERR_PAYLOAD_TOO_LARGE` (R301). -/
def execErrPayloadTooLarge (s : State) : Result := .next (complete .errPayloadTooLarge s)

/-- `ERR_UNKNOWN_MESSAGE_TYPE` (R302). -/
def execErrUnknownMessageType (s : State) : Result := .next (complete .errUnknownMessageType s)

/-- `ERR_FRAMING` (R303). -/
def execErrFraming (s : State) : Result := .next (complete .errFraming s)

/-- `ERR_CHECKSUM_MISMATCH` (R304). -/
def execErrChecksumMismatch (s : State) : Result := .next (complete .errChecksumMismatch s)

/-- `ERR_TRANSPORT` (R305). -/
def execErrTransport (s : State) : Result := .next (complete .errTransport s)

/-- `ERR_TEXT_FORMAT` (R306). -/
def execErrTextFormat (s : State) : Result := .next (complete .errTextFormat s)

/-- `ERR_BAD_COMMAND` (R307). -/
def execErrBadCommand (s : State) : Result := .next (complete .errBadCommand s)

end Sys2Proof.Machine
end

