-- ==== Sys2Proof/Machine/Pseudo.lean ====
section
/-! DEFINITION. The five pseudo-operations (R119): host sequences, "none is a command of the block". Each puts its
expansion in front of what the host has still to do (log 12). -/

namespace Sys2Proof.Machine

/-- `<MNEMONIC>` alone: `WR CMD, op` (R118). -/
def cmdEvent (op : Byte) : Event := .wr .cmd (op.setWidth 32)

/-- `PUT SIN, y` (R118). -/
def putSym (y : Symbol) : Event := .putSin (symbolWord y)

/-- `WRBUF TXBUF[a ..], bytes`, one byte a line (R118). -/
def bufferWrites : Nat → List Byte → List Event
  | _, [] => []
  | a, b :: bs => .wrbuf (BitVec.ofNat 15 a) b :: bufferWrites (a + 1) bs

/-- The part of a payload the host can write to TXBUF: an address above 0x7FFF cannot be formed (R64; log 12). -/
def txbufPart (p : List Byte) : List Byte := p.take Config.pbufBytes

/-- The count the host writes to `ARG_LEN` for a payload: its length, or the greatest 16-bit value where the length is no
16-bit value (R39; log 12). Either way UBXENC refuses what R151 calls too large (R156). -/
def argLenOf (p : List Byte) : Word := BitVec.ofNat 32 (min p.length 65535)

/-- The host does `es` first, and then what it had still to do. -/
def prepend (es : List Event) (s : State) : State := { s with agenda := es ++ s.agenda }

/-- `NMEAENC` and the symbols of a text message (R200, R290). -/
def sendText (tag : List Byte) (fields : List (List Byte)) : List Event :=
  cmdEvent 0x06 :: (messageSymbols tag fields).map putSym

/-- The expansion of `UBXENC.NAMED` (R170): an unknown name stops it before the payload and `UBXENC`. -/
def ubxencNamedSeq (name : Byte) (p : List Byte) : List Event :=
  [.wr .argName (name.setWidth 32), cmdEvent 0x03,
    .skipIf (resultCode .errUnknownMessageType) ((txbufPart p).length + 2)]
    ++ bufferWrites 0 (txbufPart p) ++ [.wr .argLen (argLenOf p), cmdEvent 0x04]

/-- `UBXENC.NAMED` (R170). -/
def execUbxencNamed (name : Byte) (p : List Byte) (s : State) : Result :=
  .next (prepend (ubxencNamedSeq name p) s)

/-- The tag `$PUBX` of the document's vector (R200). -/
def pubxTag : List Byte := [0x24, 0x50, 0x55, 0x42, 0x58]

/-- `PUBX.SETBAUD` (R200): tag, subtype `41`, port id, protocol-in mask, protocol-out mask, baud rate, autobaud flag. -/
def execPubxSetbaud (port inMask outMask baud autobaud : List Byte) (s : State) : Result :=
  .next (prepend (sendText pubxTag [[0x34, 0x31], port, inMask, outMask, baud, autobaud]) s)

/-- `PUBX.SETRATE` (R201): nine fields, the last of them `0`; the others are the host's. -/
def execPubxSetrate (tag subtype code r1 r2 r3 r4 r5 : List Byte) (s : State) : Result :=
  .next (prepend (sendText tag [subtype, code, r1, r2, r3, r4, r5, [0x30]]) s)

/-- The encode of an exchange and its `WAIT` (R290). -/
def sendMessage : Message → List Event
  | .binary c i p =>
    .wr .argClsid ((packHalf c i).setWidth 32) :: .wr .argLen (argLenOf p)
      :: bufferWrites 0 (txbufPart p) ++ [cmdEvent 0x04, .wait]
  | .text tag fields => sendText tag fields ++ [.wait]

/-- The expansion of `EXCHANGE` (R290): one encode, then exactly two receives, each copied out before the next. -/
def exchangeSeq (m : Message) (timeout : Word) : List Event :=
  sendMessage m ++
    [.wr .timeout timeout, cmdEvent 0x05, .wait, .copyMsg, cmdEvent 0x05, .wait, .copyMsg]

/-- `EXCHANGE` (R290). -/
def execExchange (m : Message) (timeout : Word) (s : State) : Result :=
  .next (prepend (exchangeSeq m timeout) s)

/-- `UBXDECODE bytes` (R244): the transport's next answers are exactly `bytes`, with no tick among them; the host accepts
a receive, waits, and reads the result. R244 defines it where the operation completes within those bytes; where it does
not, that the receive goes on with what stands behind them on the line, or waits, is the model's choice (DESIGN CHOICE,
log 25). -/
def execUbxdecode (bytes : List Byte) (s : State) : Result :=
  .next (prepend [cmdEvent 0x05, .wait, .copyMsg] { s with line := answers bytes ++ s.line })

end Sys2Proof.Machine
end

