-- ==== Sys2Proof/Machine/Dispatch.lean ====
section
/-! DEFINITION. One arm for each row of the opcode table. -/

namespace Sys2Proof.Machine

/-- The meaning of an instruction. -/
def exec (i : Instr) (s : State) : Host.Outcome State Fault Refusal :=
  match i with
  | .ck2 => Sys2Proof.Machine.execCk2 s
  | .ckx => Sys2Proof.Machine.execCkx s
  | .lookup => Sys2Proof.Machine.execLookup s
  | .ubxenc => Sys2Proof.Machine.execUbxenc s
  | .ubxrecv => Sys2Proof.Machine.execUbxrecv s
  | .nmeaenc => Sys2Proof.Machine.execNmeaenc s
  | .nmeadec => Sys2Proof.Machine.execNmeadec s
  | .reservedCmd op => Sys2Proof.Machine.execReservedCmd op s
  | .symCh b => Sys2Proof.Machine.execSymCh b s
  | .symFs d => Sys2Proof.Machine.execSymFs d s
  | .symEnd d => Sys2Proof.Machine.execSymEnd d s
  | .symReserved d => Sys2Proof.Machine.execSymReserved d s
  | .ubxFrame c k p a b => Sys2Proof.Machine.execUbxFrame c k p a b s
  | .nmeaSentence tag fields => Sys2Proof.Machine.execNmeaSentence tag fields s
  | .nameCfgMsg => Sys2Proof.Machine.execNameCfgMsg s
  | .nameCfgNav5 => Sys2Proof.Machine.execNameCfgNav5 s
  | .nameCfgCfg => Sys2Proof.Machine.execNameCfgCfg s
  | .nameGll => Sys2Proof.Machine.execNameGll s
  | .nameRmc => Sys2Proof.Machine.execNameRmc s
  | .nameGsv => Sys2Proof.Machine.execNameGsv s
  | .resIdle => Sys2Proof.Machine.execResIdle s
  | .resOk => Sys2Proof.Machine.execResOk s
  | .resNoMessage => Sys2Proof.Machine.execResNoMessage s
  | .errPayloadTooLarge => Sys2Proof.Machine.execErrPayloadTooLarge s
  | .errUnknownMessageType => Sys2Proof.Machine.execErrUnknownMessageType s
  | .errFraming => Sys2Proof.Machine.execErrFraming s
  | .errChecksumMismatch => Sys2Proof.Machine.execErrChecksumMismatch s
  | .errTransport => Sys2Proof.Machine.execErrTransport s
  | .errTextFormat => Sys2Proof.Machine.execErrTextFormat s
  | .errBadCommand => Sys2Proof.Machine.execErrBadCommand s
  | .ubxencNamed name p => Sys2Proof.Machine.execUbxencNamed name p s
  | .pubxSetbaud port inMask outMask baud autobaud => Sys2Proof.Machine.execPubxSetbaud port inMask outMask baud autobaud s
  | .pubxSetrate tag subtype code r1 r2 r3 r4 r5 => Sys2Proof.Machine.execPubxSetrate tag subtype code r1 r2 r3 r4 r5 s
  | .exchange m timeout => Sys2Proof.Machine.execExchange m timeout s
  | .ubxdecode bytes => Sys2Proof.Machine.execUbxdecode bytes s

end Sys2Proof.Machine
end

