-- ==== Sys2Proof/Machine/Agenda.lean ====
section
/-! DEFINITION. What one item of the agenda does (R13, R118), and the fetch: how a word that reaches the block becomes an
instruction (log 1). -/

namespace Sys2Proof.Machine

/-- The instruction an item of the agenda is, if it is one: a write to `CMD` is a command byte (R35), a symbol word, a
frame, a sentence and a name are what the decoder reads from them, a pseudo-operation is its row. Bytes that are no frame
or no sentence and an index that names nothing are no instruction; they are performed. -/
def fetch : Event → Option Instr
  | .wr .cmd v => some (decodeCommand (v.setWidth 8))
  | .putSin w => some (decodeSymbol w)
  | .arrive bs => decodeWhole .frame bs
  | .putDin bs => decodeWhole .sentence bs
  | .name n => decodeName n
  | .call p => some p.instr
  | _ => none

/-- A host write of a byte of TXBUF (R64): refused while a UBXENC is in progress (R351, U5; log 13, log 14). -/
def hostWriteTxbuf (a : BitVec 15) (v : Byte) (s : State) : Result :=
  if s.opstate.isUbxEncoder then .refused (.bufferInUse .txbuf)
  else .next { s with txbuf := s.txbuf.write a.toNat v }

/-- The buffer the running operation has for itself: TXBUF in a UBXENC, RXBUF in a UBXRECV (R351, U5). -/
def bufferInUse (b : Buf) (s : State) : Bool :=
  match b with
  | .txbuf => s.opstate.isUbxEncoder
  | .rxbuf => s.opstate.isReceiver

/-- A host read of a byte of a buffer (R64): refused while the running operation has the buffer for itself (R351, U5); a
byte that holds no value stops the machine (R52). -/
def hostReadBuf (b : Buf) (a : BitVec 15) (s : State) : Result :=
  if bufferInUse b s then .refused (.bufferInUse b)
  else match (bufOf b s).read a.toNat with
    | none => .fault (.unwrittenByte b a.toNat)
    | some v => .next { s with seen := s.seen ++ [.byte b a.toNat v] }

/-- The host copies out `RESULT`, `MSG_CLSID`, `MSG_LEN` and `RXBUF[0 .. MSG_LEN-1]` (R290). -/
def hostCopyMsg (s : State) : Result :=
  if s.opstate.isReceiver then .refused (.bufferInUse .rxbuf)
  else match s.rxbuf.readFrom 0 s.msgLen.toNat with
    | .error a => .fault (.unwrittenByte .rxbuf a)
    | .ok bs =>
      .next { s with seen := s.seen ++ [.message s.result (packHalf s.msgCls s.msgId) s.msgLen bs] }

/-- What an item of the agenda does that is no instruction; the item is already taken from the agenda of `s`. Bytes that
are no frame arrive like any others (R71, R72), bytes that are no sentence are offered like any others (R77), and an index
that names nothing is looked up in vain (R113, R152). A symbol word and a pseudo-operation are always instructions. -/
def perform (e : Event) (s : State) : Result :=
  match e with
  | .wr r v => .next (writeReg r v s)
  | .rd r => .next { s with seen := s.seen ++ [.reg r (readReg r s)] }
  | .wrbuf a v => hostWriteTxbuf a v s
  | .rdbuf b a => hostReadBuf b a s
  | .putSin w => exec (decodeSymbol w) s
  | .arrive bs => .next (arriveBytes bs s)
  | .putDin bs => .next (offerBytes bs s)
  | .name n => namedLookup n s
  | .call p => exec p.instr s
  | .getSout => .next { s with soutWanted := s.soutWanted + 1 }
  | .wait => .next s
  | .skipIf c n => .next (if s.result = c then { s with agenda := s.agenda.drop n } else s)
  | .copyMsg => hostCopyMsg s
  | .tick => .next (tickEvent s)
  | .rst => .next (resetEvent s)
  | .answer r => .next { s with line := s.line ++ [.rx r] }
  | .sink b => .next { s with txReady := b }
  | .go => blockStep s

/-- One step of the machine: the first item of the agenda acts, an instruction by its meaning. A host that waits for
`DONE` lets the block move (R118); so does an empty agenda. -/
def runAgenda (s : State) : Result :=
  match s.agenda with
  | [] => blockStep s
  | e :: rest =>
    if e = .wait ∧ s.done = false then blockStep s
    else match fetch e with
      | some i => exec i { s with agenda := rest }
      | none => perform e { s with agenda := rest }

/-- The item by which bytes of a format reach the block: a command byte is written to `CMD` (R35), a symbol put on `SIN`,
a frame arrives at the transport, a sentence is put on `DIN` (R118, R71). A table word has none of the last three formats
(log 7). -/
def inputEvent (f : Format) (bs : List Byte) : Event :=
  match f with
  | .cmd8 => .wr .cmd ((bs.getD 0 0).setWidth 32)
  | .sym10 => .putSin ((packHalf (bs.getD 0 0) (bs.getD 1 0)).setWidth 10)
  | .frame => .arrive bs
  | .sentence => .putDin bs
  | .cidrom => .name (bs.getD 0 0)
  | .result8 => .go
  | .pseudo => .go

/-- The item by which a table word reaches the block (log 7). -/
def tableEvent (nbits w : Nat) : Event :=
  inputEvent (tableWord nbits w).1 (tableWord nbits w).2

end Sys2Proof.Machine
end

