-- ==== Sys2Proof/Machine/Step.lean ====
section
/-! DEFINITION. The step, and a state whose next step runs a given table word (log 1, log 7). -/

namespace Sys2Proof.Machine

/-- One step of the machine. -/
def step (s : State) : Host.Outcome State Fault Refusal := runAgenda s

/-- The state in which the next thing that happens is that the table word `w` of `nbits` bits reaches the block. -/
def State.withFetchWord (s : State) (nbits w : Nat) : State :=
  { s with agenda := tableEvent nbits w :: s.agenda }

end Sys2Proof.Machine
end

