-- ==== Sys2Proof/Safety.lean ====
section
/-! DEFINITION. The terms claims are stated in: runs, whose turn it is, and the invariant of the machine. -/

namespace Sys2Proof.Machine

/-- `k` steps, as far as they answer a next state. -/
def run : Nat → State → Result
  | 0, s => .next s
  | k + 1, s =>
    match step s with
    | .next t => run k t
    | .fault r => .fault r
    | .refused r => .refused r

/-- The host has nothing to do but wait: its agenda is empty, or it waits for `DONE` and `DONE = 0`. -/
def HostWaits (s : State) : Prop :=
  s.agenda = [] ∨ ∃ rest, s.agenda = .wait :: rest ∧ s.done = false

/-- It is the block's turn: the host waits and no tick is due. -/
def BlockTurn (s : State) : Prop :=
  HostWaits s ∧ ∀ rest, s.line ≠ .tick :: rest

/-- The bytes at addresses 0 to `n - 1` of a buffer all hold a value. -/
def WrittenBelow (m : Memory) (n : Nat) : Prop :=
  ∀ a, a < n → (m.read a).isSome

/-- The bytes `bs` stand in a buffer at the addresses from 0 on. -/
def Holds (m : Memory) (bs : List Byte) : Prop :=
  ∀ a, a < bs.length → m.read a = bs[a]?

/-- The tests common to the eight mid-frame states, made before anything else on the transport's answer (R234, R236): the
frame deadline first, then the short read. -/
def MidFrameTests (s : State) : Prop :=
  ∀ (r : Option Byte) (rest : List LineEvent), s.line = .rx r :: rest →
    (s.frameDeadline = true ∧ s.timeout < s.elapsed → step s = .next
      { s with line := rest, result := 0x02, busy := false, done := true, opstate := .idle }) ∧
    (¬ (s.frameDeadline = true ∧ s.timeout < s.elapsed) → r = none → step s = .next
      { s with line := rest, result := 0x14, busy := false, done := true, opstate := .idle })

/-- The row of the opcode table that puts a symbol on `SIN`, with data bits `d` where the kind carries none (R107). -/
def symbolRow (y : Symbol) (d : Byte) : Instr :=
  match y with
  | .ch b => .symCh b
  | .fs => .symFs d
  | .endMsg => .symEnd d
  | .reserved => .symReserved d

/-- The upper-case digit of a nibble, from the list of R105: the bytes 0x30 to 0x39 and 0x41 to 0x46. -/
def hexDigit (n : BitVec 4) : Byte :=
  [0x30, 0x31, 0x32, 0x33, 0x34, 0x35, 0x36, 0x37, 0x38, 0x39, 0x41, 0x42, 0x43, 0x44, 0x45, 0x46].getD n.toNat 0

/-- The bytes of a sentence up to its marker: the tag and the fields with their commas. -/
def beforeMarker (bs : List Byte) : List Byte := bs.takeWhile fun b => b ≠ Config.star

/-- The symbols of a tag and fields that stand as bytes with commas between them (R266, R276). -/
def byteSymbols (bs : List Byte) : List Symbol := bs.map fun b => if b = Config.comma then .fs else .ch b

/-- The bytes can still become a sentence: some continuation of them is no format error (R261). -/
def Viable (bs : List Byte) : Prop := ∃ more, nmeaDecode (bs ++ more) ≠ .error .format

/-- How many of the events of a line are ticks. -/
def tickCount (l : List LineEvent) : Nat := l.countP fun e => e = .tick

/-- An event that leaves a seek seeking while the timer has not expired: a tick, an idle poll, a byte that is not the
first sync byte (R216). -/
def quiet (e : LineEvent) : Bool := !(e = .rx (some Config.sync1))

/-- The invariant of the machine: what the rules say of the relations between its registers. -/
structure Inv (s : State) : Prop where
  /-- `BUSY = 1` exactly when `OPSTATE != IDLE` (R30). -/
  busy_iff : s.busy = true ↔ s.opstate ≠ .idle
  /-- `DONE` is cleared when an operation is accepted and set when it completes (R32). -/
  done_idle : s.done = true → s.busy = false
  /-- `RESULT` holds one of the ten codes (R37). -/
  result_legal : legalResult s.result = true
  /-- The buffers are in canonical form. -/
  txbuf_wf : s.txbuf.wf = true
  /-- The buffers are in canonical form. -/
  rxbuf_wf : s.rxbuf.wf = true
  /-- In an encode `LEN[15] = 0` (R24). -/
  enc_len : s.opstate.isUbxEncoder = true → s.len.toNat ≤ Config.lenMax
  /-- In the payload state the index is below the length (R25, R163). -/
  enc_pay : s.opstate = .ePay → s.cnt.toNat < s.len.toNat
  /-- Before the payload state the index is 0 (R156, R162). -/
  enc_head : s.opstate = .eSync1 ∨ s.opstate = .eSync2 ∨ s.opstate = .eCls ∨ s.opstate = .eId ∨ s.opstate = .eLen0
    ∨ s.opstate = .eLen1 → s.cnt = 0
  /-- After the payload state the index is the length (R165). -/
  enc_tail : s.opstate = .eCkA ∨ s.opstate = .eCkB → s.cnt = s.len
  /-- A length the receiver goes on with is not implausible (R228). -/
  rcv_len : s.opstate = .rPay ∨ s.opstate = .rCkA ∨ s.opstate = .rCkB → s.len.toNat ≤ s.maxPayload.toNat
  /-- In the payload state the index is below the length (R25, R230). -/
  rcv_pay : s.opstate = .rPay → s.cnt.toNat < s.len.toNat
  /-- After the payload state the index is the length (R230). -/
  rcv_tail : s.opstate = .rCkA ∨ s.opstate = .rCkB → s.cnt = s.len
  /-- The payload bytes taken so far are in RXBUF (R230). -/
  rcv_written : s.opstate = .rPay ∨ s.opstate = .rCkA ∨ s.opstate = .rCkB → WrittenBelow s.rxbuf s.cnt.toNat
  /-- While a receive is in progress there is no received message (R212). -/
  rcv_msg : s.opstate.isReceiver = true → s.msgValid = false
  /-- The length of the last message is not implausible (R28, R228). -/
  msg_len : s.msgLen.toNat ≤ s.maxPayload.toNat
  /-- The bytes of the last message's addresses are in RXBUF (R28, R62). -/
  msg_written : WrittenBelow s.rxbuf s.msgLen.toNat

end Sys2Proof.Machine
end

