-- ==== Sys2Proof/Certificates/Slice0/Obligations.lean ====
section
/-! DEFINITION. The statements for the provers. -/

open Sys2Proof Sys2Proof.Machine Sys2Proof.Config

/-! ### Encodings -/

/-- Decoding the bytes of a well-formed row that has a word gives the row back, and leaves what follows it. -/
def Obligations.DecodeOfEncode : Prop :=
  ∀ (i : Instr) (rest : List Byte), i.wf = true → i.format ≠ .pseudo →
    decode i.format (encode i ++ rest) = .ok (i, rest)

/-- Whatever a decoder reads is a well-formed row of its format, and the bytes it took are that row's encoding. -/
def Obligations.DecodedBytesAreTheEncoding : Prop :=
  ∀ (f : Format) (bs rest : List Byte) (i : Instr), decode f bs = .ok (i, rest) →
    i.wf = true ∧ i.format = f ∧ bs = encode i ++ rest

/-- Words written out from the tables of R100, R107, R90 (the frame of R168), R96 (the sentence of V-TD-04), R112 and R300;
that a symbol's 10-bit word stands in two bytes, bits 7 to 0 first, is the model's choice (log 23). -/
def Obligations.WrittenWordsDecode : Prop :=
  decode .cmd8 [0x05] = .ok (.ubxrecv, []) ∧
  decode .cmd8 [0x08] = .ok (.reservedCmd 0x08, []) ∧
  decode .sym10 [0x24, 0x00] = .ok (.symCh 0x24, []) ∧
  decode .sym10 [0xFF, 0x01] = .ok (.symFs 0xFF, []) ∧
  decode .frame [0xB5, 0x62, 0x06, 0x01, 0x03, 0x00, 0xF0, 0x01, 0x00, 0xFB, 0x11]
    = .ok (.ubxFrame 0x06 0x01 [0xF0, 0x01, 0x00] 0xFB 0x11, []) ∧
  decode .sentence [0x24, 0x50, 0x55, 0x42, 0x58, 0x2A, 0x31, 0x46, 0x0D, 0x0A]
    = .ok (.nmeaSentence [0x24, 0x50, 0x55, 0x42, 0x58] [], []) ∧
  decode .cidrom [0x81] = .ok (.nameRmc, []) ∧
  decode .result8 [0x13] = .ok (.errChecksumMismatch, [])

/-! ### The step -/

/-- A step at a word that decodes runs the instruction it decodes to, on the state without the item that carried it: a
table word, a write to `CMD`, a symbol word, a frame, a sentence, a name, a pseudo-operation (how a word reaches the
block is the model's choice, log 1, log 9, log 11, log 12). -/
def Obligations.StepRunsTheDecodedInstruction : Prop :=
  (∀ (s : State) (nbits w : Nat) (i : Instr), decodeTableWord nbits w = some i →
    step (s.withFetchWord nbits w) = exec i s) ∧
  (∀ (s : State) (v : Word) (rest : List Event), s.agenda = .wr .cmd v :: rest →
    step s = exec (decodeCommand (v.setWidth 8)) { s with agenda := rest }) ∧
  (∀ (s : State) (w : BitVec 10) (rest : List Event), s.agenda = .putSin w :: rest →
    step s = exec (decodeSymbol w) { s with agenda := rest }) ∧
  (∀ (s : State) (bs : List Byte) (i : Instr) (rest : List Event), decode .frame bs = .ok (i, []) →
    s.agenda = .arrive bs :: rest → step s = exec i { s with agenda := rest }) ∧
  (∀ (s : State) (bs : List Byte) (i : Instr) (rest : List Event), decode .sentence bs = .ok (i, []) →
    s.agenda = .putDin bs :: rest → step s = exec i { s with agenda := rest }) ∧
  (∀ (s : State) (n : Byte) (i : Instr) (rest : List Event), decode .cidrom [n] = .ok (i, []) →
    s.agenda = .name n :: rest → step s = exec i { s with agenda := rest }) ∧
  (∀ (s : State) (p : Pseudo) (rest : List Event), s.agenda = .call p :: rest →
    step s = exec p.instr { s with agenda := rest })

/-! ### Commands -/

/-- While `BUSY = 1` a write to `CMD`, of any value, changes nothing (R35, R40, R46). -/
def Obligations.BusyBlockIgnoresEveryCommand : Prop :=
  ∀ (s : State) (v : Word) (rest : List Event), s.busy = true → s.agenda = .wr .cmd v :: rest →
    step s = .next { s with agenda := rest }

/-- `CK2` on an idle block (R138): the fold of `TXBUF[0 .. ARG_LEN-1]`, and the refusal of a count above the buffer. -/
def Obligations.CkTwoFoldsTheBuffer : Prop :=
  decodeCommand 0x01 = .ck2 ∧
  (∀ (s : State) (bs : List Byte), s.busy = false → s.argLen.toNat = bs.length → bs.length ≤ 32768 →
    Holds s.txbuf bs →
    exec .ck2 s = .next { s with ckA := (ck2 bs).1, ckB := (ck2 bs).2, result := 0x01, done := true }) ∧
  (∀ s : State, s.busy = false → 32768 < s.argLen.toNat →
    exec .ck2 s = .next { s with result := 0x10, done := true })

/-- `CKX` on an idle block (R140): the fold of `TXBUF[0 .. ARG_LEN-1]`, and the refusal of a count above the buffer. -/
def Obligations.CkxFoldsTheBuffer : Prop :=
  decodeCommand 0x02 = .ckx ∧
  (∀ (s : State) (bs : List Byte), s.busy = false → s.argLen.toNat = bs.length → bs.length ≤ 32768 →
    Holds s.txbuf bs → exec .ckx s = .next { s with xacc := ckx bs, result := 0x01, done := true }) ∧
  (∀ s : State, s.busy = false → 32768 < s.argLen.toNat →
    exec .ckx s = .next { s with result := 0x10, done := true })

/-- A byte of TXBUF that holds no value stops whoever reads it (R52; that the model faults is log 4): CK2 and CKX at the
first such byte of their operand, UBXENC when it comes to that byte. -/
def Obligations.UnwrittenBytesStopTheMachine : Prop :=
  (∀ (s : State) (a : Nat), s.busy = false → s.argLen.toNat ≤ 32768 → a < s.argLen.toNat →
    WrittenBelow s.txbuf a → s.txbuf.read a = none →
    exec .ck2 s = .fault (.unwrittenByte .txbuf a) ∧ exec .ckx s = .fault (.unwrittenByte .txbuf a)) ∧
  (∀ s : State, BlockTurn s → s.opstate = .ePay → s.txReady = true → s.cnt.toNat ≤ 32767 →
    s.txbuf.read s.cnt.toNat = none → step s = .fault (.unwrittenByte .txbuf s.cnt.toNat))

/-- `LOOKUP` on an idle block (R152, R113): the six entries, and every other index. -/
def Obligations.LookupReadsTheTable : Prop :=
  decodeCommand 0x03 = .lookup ∧
  ∀ s : State, s.busy = false →
    (s.argName = 0x00 → exec .lookup s = .next { s with argClsid := 0x0106, result := 0x01, done := true }) ∧
    (s.argName = 0x01 → exec .lookup s = .next { s with argClsid := 0x2406, result := 0x01, done := true }) ∧
    (s.argName = 0x02 → exec .lookup s = .next { s with argClsid := 0x0906, result := 0x01, done := true }) ∧
    (s.argName = 0x80 → exec .lookup s = .next { s with argClsid := 0x01F0, result := 0x01, done := true }) ∧
    (s.argName = 0x81 → exec .lookup s = .next { s with argClsid := 0x04F0, result := 0x01, done := true }) ∧
    (s.argName = 0x82 → exec .lookup s = .next { s with argClsid := 0x03F0, result := 0x01, done := true }) ∧
    (s.argName ∉ [0x00, 0x01, 0x02, 0x80, 0x81, 0x82] →
      exec .lookup s = .next { s with result := 0x11, done := true })

/-- The six names (the model's choice, log 9): `WR ARG_NAME` with the row's index, then `LOOKUP`, on an idle block; and an
index that names nothing (R113). -/
def Obligations.NamesLoadTheirCodes : Prop :=
  (∀ (s : State) (n : Byte) (rest : List Event), s.busy = false → s.agenda = .name n :: rest →
    n ∉ [0x00, 0x01, 0x02, 0x80, 0x81, 0x82] →
    step s = .next { s with agenda := rest, argName := n, result := 0x11, done := true }) ∧
  ∀ s : State, s.busy = false →
    exec .nameCfgMsg s
      = .next { s with argName := 0x00, argClsid := 0x0106, result := 0x01, done := true } ∧
    exec .nameCfgNav5 s
      = .next { s with argName := 0x01, argClsid := 0x2406, result := 0x01, done := true } ∧
    exec .nameCfgCfg s
      = .next { s with argName := 0x02, argClsid := 0x0906, result := 0x01, done := true } ∧
    exec .nameGll s
      = .next { s with argName := 0x80, argClsid := 0x01F0, result := 0x01, done := true } ∧
    exec .nameRmc s
      = .next { s with argName := 0x81, argClsid := 0x04F0, result := 0x01, done := true } ∧
    exec .nameGsv s
      = .next { s with argName := 0x82, argClsid := 0x03F0, result := 0x01, done := true }

/-- The acceptance of `UBXENC` on an idle block (R156). -/
def Obligations.UbxencAcceptance : Prop :=
  decodeCommand 0x04 = .ubxenc ∧
  ∀ s : State, s.busy = false →
    (32767 < s.argLen.toNat → exec .ubxenc s = .next { s with result := 0x10, done := true }) ∧
    (s.argLen.toNat ≤ 32767 → exec .ubxenc s = .next
      { s with
        done := false, cls := s.argClsid.extractLsb' 0 8, id := s.argClsid.extractLsb' 8 8, len := s.argLen,
        ckA := 0, ckB := 0, cnt := 0, busy := true, opstate := .eSync1 })

/-- The acceptance of `UBXRECV` on an idle block (R212); a read request is then outstanding. -/
def Obligations.UbxrecvAcceptance : Prop :=
  decodeCommand 0x05 = .ubxrecv ∧
  ∀ s : State, s.busy = false →
    exec .ubxrecv s = .next
      { s with
        done := false, elapsed := 0, feSync2 := false, msgValid := false, busy := true, opstate := .rSeek } ∧
    ∀ t : State, exec .ubxrecv s = .next t → readRequest t = true

/-- The acceptance of `NMEAENC` (R182) and of `NMEADEC` (R262) on an idle block. -/
def Obligations.TextCommandsAcceptance : Prop :=
  decodeCommand 0x06 = .nmeaenc ∧ decodeCommand 0x07 = .nmeadec ∧
  ∀ s : State, s.busy = false →
    exec .nmeaenc s = .next { s with done := false, xacc := 0, busy := true, opstate := .tFirst } ∧
    exec .nmeadec s = .next { s with done := false, xacc := 0, rxck := 0, busy := true, opstate := .nStart }

/-- A reserved command code on an idle block (R101). -/
def Obligations.ReservedCodesAreRefused : Prop :=
  ∀ op : Byte, op = 0x00 ∨ 0x08 ≤ op → decodeCommand op = .reservedCmd op ∧
    ∀ s : State, s.busy = false → exec (.reservedCmd op) s = .next { s with done := true, result := 0x16 }

/-! ### The binary frame encoder -/

/-- The nine states of the encoder, each on the event `tx` (R157 to R165). -/
def Obligations.EncoderTransitions : Prop :=
  ∀ s : State, BlockTurn s → s.txReady = true →
    (s.opstate = .eSync1 → step s = .next { s with tx := s.tx ++ [0xB5], opstate := .eSync2 }) ∧
    (s.opstate = .eSync2 → step s = .next { s with tx := s.tx ++ [0x62], opstate := .eCls }) ∧
    (s.opstate = .eCls → step s = .next
      { s with
        tx := s.tx ++ [s.cls], ckA := (ck2Step (s.ckA, s.ckB) s.cls).1, ckB := (ck2Step (s.ckA, s.ckB) s.cls).2,
        opstate := .eId }) ∧
    (s.opstate = .eId → step s = .next
      { s with
        tx := s.tx ++ [s.id], ckA := (ck2Step (s.ckA, s.ckB) s.id).1, ckB := (ck2Step (s.ckA, s.ckB) s.id).2,
        opstate := .eLen0 }) ∧
    (s.opstate = .eLen0 → step s = .next
      { s with
        tx := s.tx ++ [s.len.extractLsb' 0 8], ckA := (ck2Step (s.ckA, s.ckB) (s.len.extractLsb' 0 8)).1,
        ckB := (ck2Step (s.ckA, s.ckB) (s.len.extractLsb' 0 8)).2, opstate := .eLen1 }) ∧
    (s.opstate = .eLen1 → step s = .next
      { s with
        tx := s.tx ++ [s.len.extractLsb' 8 8], ckA := (ck2Step (s.ckA, s.ckB) (s.len.extractLsb' 8 8)).1,
        ckB := (ck2Step (s.ckA, s.ckB) (s.len.extractLsb' 8 8)).2,
        opstate := if s.len = 0 then .eCkA else .ePay }) ∧
    (∀ x : Byte, s.opstate = .ePay → s.cnt.toNat ≤ 32767 → s.txbuf.read s.cnt.toNat = some x → step s = .next
      { s with
        tx := s.tx ++ [x], ckA := (ck2Step (s.ckA, s.ckB) x).1, ckB := (ck2Step (s.ckA, s.ckB) x).2,
        cnt := s.cnt + 1, opstate := if s.cnt + 1 = s.len then .eCkA else .ePay }) ∧
    (s.opstate = .eCkA → step s = .next { s with tx := s.tx ++ [s.ckA], opstate := .eCkB }) ∧
    (s.opstate = .eCkB → step s = .next
      { s with tx := s.tx ++ [s.ckB], result := 0x01, busy := false, done := true, opstate := .idle })

/-- One `UBXENC`, from the write to `CMD` to its completion, computes `ubx_encode` of its operands (R151): where that is a
frame it emits exactly the frame, in `8 + n` bytes, and leaves what R165 says (R166); where that fails, for a payload of
more than 32767 bytes, it is refused in one step and nothing is emitted (R156). -/
def Obligations.UbxencEmitsTheFrame : Prop :=
  ∀ (s : State) (p : List Byte), s.busy = false → s.agenda = [.wr .cmd 0x04] → s.line = [] → s.txReady = true →
    s.argLen.toNat = p.length →
    let c := s.argClsid.extractLsb' 0 8
    let i := s.argClsid.extractLsb' 8 8
    (p.length ≤ 32767 → Holds s.txbuf p → ∃ frame : List Byte, ubxEncode c i p = .ok frame ∧
      frame = [0xB5, 0x62, c, i, s.argLen.extractLsb' 0 8, s.argLen.extractLsb' 8 8] ++ p
        ++ [(ck2 (ubxBody c i p)).1, (ck2 (ubxBody c i p)).2] ∧
      run (9 + p.length) s = .next
        { s with
          agenda := [], tx := s.tx ++ frame, cls := c, id := i, len := s.argLen, cnt := s.argLen,
          ckA := (ck2 (ubxBody c i p)).1, ckB := (ck2 (ubxBody c i p)).2,
          result := 0x01, busy := false, done := true, opstate := .idle }) ∧
    (32767 < p.length → ubxEncode c i p = .error .errPayloadTooLarge ∧
      run 1 s = .next { s with agenda := [], result := 0x10, done := true })

/-! ### The frame receiver -/

/-- The seek on an answer (R216): the timeout first, then the comparison with the first sync byte. -/
def Obligations.SeekOnAnAnswer : Prop :=
  ∀ (s : State) (r : Option Byte) (rest : List LineEvent), HostWaits s → s.opstate = .rSeek → s.line = .rx r :: rest →
    (s.timeout < s.elapsed → step s = .next
      { s with line := rest, result := 0x02, busy := false, done := true, opstate := .idle }) ∧
    (¬ s.timeout < s.elapsed → r = some 0xB5 → step s = .next { s with line := rest, opstate := .rSync2 }) ∧
    (¬ s.timeout < s.elapsed → r ≠ some 0xB5 → step s = .next { s with line := rest })

/-- The second sync byte (R222). -/
def Obligations.SecondSyncByte : Prop :=
  ∀ (s : State) (r : Option Byte) (rest : List LineEvent), HostWaits s → s.opstate = .rSync2 → s.line = .rx r :: rest →
    (s.frameDeadline = true ∧ s.timeout < s.elapsed → step s = .next
      { s with line := rest, result := 0x02, busy := false, done := true, opstate := .idle }) ∧
    (¬ (s.frameDeadline = true ∧ s.timeout < s.elapsed) →
      (r = none → step s = .next
        { s with line := rest, result := 0x14, busy := false, done := true, opstate := .idle }) ∧
      (r = some 0x62 → step s = .next { s with line := rest, ckA := 0, ckB := 0, opstate := .rCls }) ∧
      (∀ b : Byte, r = some b → b ≠ 0x62 → step s = .next
        { s with line := rest, feSync2 := true, opstate := .rSeek }))

/-- The frame deadline and the short read in the eight mid-frame states (R234, R236): the deadline comes first, and only
where `CFG_FRAME_DEADLINE = 1`. -/
def Obligations.MidFrameDeadlineAndShortRead : Prop :=
  ∀ s : State, HostWaits s → s.opstate.isReceiver = true → s.opstate ≠ .rSeek → MidFrameTests s

/-- Class, id and the low length byte (R224, R225, R226): the common tests first, then the byte. -/
def Obligations.HeaderBytes : Prop :=
  ∀ s : State, HostWaits s → s.opstate = .rCls ∨ s.opstate = .rId ∨ s.opstate = .rLen0 → MidFrameTests s ∧
    ∀ (b : Byte) (rest : List LineEvent), s.line = .rx (some b) :: rest →
      ¬ (s.frameDeadline = true ∧ s.timeout < s.elapsed) →
      (s.opstate = .rCls → step s = .next
        { s with
          line := rest, cls := b, ckA := (ck2Step (s.ckA, s.ckB) b).1, ckB := (ck2Step (s.ckA, s.ckB) b).2,
          opstate := .rId }) ∧
      (s.opstate = .rId → step s = .next
        { s with
          line := rest, id := b, ckA := (ck2Step (s.ckA, s.ckB) b).1, ckB := (ck2Step (s.ckA, s.ckB) b).2,
          opstate := .rLen0 }) ∧
      (s.opstate = .rLen0 → step s = .next
        { s with
          line := rest, len := s.len.extractLsb' 8 8 ++ b, ckA := (ck2Step (s.ckA, s.ckB) b).1,
          ckB := (ck2Step (s.ckA, s.ckB) b).2, opstate := .rLen1 })

/-- The high length byte (R228): the common tests first; then a negative or implausible length ends the receive. -/
def Obligations.LengthTest : Prop :=
  ∀ s : State, HostWaits s → s.opstate = .rLen1 → MidFrameTests s ∧
    ∀ (b : Byte) (rest : List LineEvent), s.line = .rx (some b) :: rest →
      ¬ (s.frameDeadline = true ∧ s.timeout < s.elapsed) →
      let l : Half := b ++ s.len.extractLsb' 0 8
      let t : State :=
        { s with
          line := rest, len := l, cnt := 0, ckA := (ck2Step (s.ckA, s.ckB) b).1,
          ckB := (ck2Step (s.ckA, s.ckB) b).2 }
      (l.getLsbD 15 = true ∨ s.maxPayload.toNat < l.toNat → step s = .next
        { t with result := 0x12, busy := false, done := true, opstate := .idle }) ∧
      (¬ (l.getLsbD 15 = true ∨ s.maxPayload.toNat < l.toNat) →
        (l = 0 → step s = .next { t with opstate := .rCkA }) ∧
        (l ≠ 0 → step s = .next { t with opstate := .rPay }))

/-- The payload state (R230): the common tests first; one byte is stored at `CNT`, every other byte of RXBUF stays; and a
payload of `LEN` bytes is taken whole, no byte more and no byte less. -/
def Obligations.PayloadIsTakenWhole : Prop :=
  (∀ s : State, HostWaits s → s.opstate = .rPay → MidFrameTests s ∧
    ∀ (b : Byte) (rest : List LineEvent), s.line = .rx (some b) :: rest →
      ¬ (s.frameDeadline = true ∧ s.timeout < s.elapsed) → s.cnt.toNat ≤ 32767 →
      ∃ m : Memory, step s = .next
        { s with
          line := rest, rxbuf := m, ckA := (ck2Step (s.ckA, s.ckB) b).1, ckB := (ck2Step (s.ckA, s.ckB) b).2,
          cnt := s.cnt + 1, opstate := if s.cnt + 1 = s.len then .rCkA else .rPay } ∧
        m.read s.cnt.toNat = some b ∧ ∀ a : Nat, a ≠ s.cnt.toNat → m.read a = s.rxbuf.read a) ∧
  (∀ (s : State) (p : List Byte) (rest : List LineEvent), HostWaits s → s.opstate = .rPay → s.cnt = 0 → p ≠ [] →
    s.len.toNat = p.length → p.length ≤ 32767 → ¬ (s.frameDeadline = true ∧ s.timeout < s.elapsed) →
    s.line = answers p ++ rest →
    (∀ k t, k < p.length → run k s = .next t → t.opstate = .rPay) ∧
    ∃ m : Memory, run p.length s = .next
      { s with
        line := rest, rxbuf := m, ckA := (ck2From (s.ckA, s.ckB) p).1, ckB := (ck2From (s.ckA, s.ckB) p).2,
        cnt := s.len, opstate := .rCkA } ∧
      Holds m p ∧ ∀ a : Nat, p.length ≤ a → m.read a = s.rxbuf.read a)

/-- The two checksum bytes (R231, R232): the common tests first; the first byte is kept, the second gives the verdict. -/
def Obligations.ChecksumBytesAndVerdict : Prop :=
  ∀ s : State, HostWaits s → s.opstate = .rCkA ∨ s.opstate = .rCkB → MidFrameTests s ∧
    ∀ (b : Byte) (rest : List LineEvent), s.line = .rx (some b) :: rest →
      ¬ (s.frameDeadline = true ∧ s.timeout < s.elapsed) →
      (s.opstate = .rCkA → step s = .next { s with line := rest, rckA := b, opstate := .rCkB }) ∧
      (s.opstate = .rCkB → s.rckA = s.ckA ∧ b = s.ckB → step s = .next
        { s with
          line := rest, rckB := b, msgCls := s.cls, msgId := s.id, msgLen := s.len, msgValid := true,
          result := 0x01, busy := false, done := true, opstate := .idle }) ∧
      (s.opstate = .rCkB → ¬ (s.rckA = s.ckA ∧ b = s.ckB) → step s = .next
        { s with
          line := rest, rckB := b, result := 0x13, busy := false, done := true, opstate := .idle })

/-- A whole receive over a frame with any checksum bytes (R246, R249, R238): from the write to `CMD`, the block takes
exactly the frame's bytes; the message is received if the checksum is that of the body, and rejected otherwise, with
`MSG_*` unchanged and both checksums to be read. -/
def Obligations.ReceiverJudgesEveryFrame : Prop :=
  ∀ (s : State) (c i : Byte) (p : List Byte) (a b : Byte) (more : List LineEvent), s.busy = false →
    s.agenda = [.wr .cmd 0x05] → p.length ≤ s.maxPayload.toNat →
    s.line = answers (ubxFrameBytes c i p a b) ++ more →
    ∃ (m : Memory) (t : State), run (9 + p.length) s = .next t ∧ Holds m p ∧
      (∀ x : Nat, p.length ≤ x → m.read x = s.rxbuf.read x) ∧
      (ck2 (ubxBody c i p) = (a, b) → t =
        { s with
          agenda := [], line := more, rxbuf := m, elapsed := 0, feSync2 := false, cls := c, id := i,
          len := BitVec.ofNat 16 p.length, cnt := BitVec.ofNat 16 p.length, ckA := a, ckB := b, rckA := a, rckB := b,
          msgCls := c, msgId := i, msgLen := BitVec.ofNat 16 p.length, msgValid := true,
          result := 0x01, busy := false, done := true, opstate := .idle }) ∧
      (ck2 (ubxBody c i p) ≠ (a, b) → t =
        { s with
          agenda := [], line := more, rxbuf := m, elapsed := 0, feSync2 := false, cls := c, id := i,
          len := BitVec.ofNat 16 p.length, cnt := BitVec.ofNat 16 p.length,
          ckA := (ck2 (ubxBody c i p)).1, ckB := (ck2 (ubxBody c i p)).2, rckA := a, rckB := b, msgValid := false,
          result := 0x13, busy := false, done := true, opstate := .idle })

/-- The seek passes over ticks, idle polls and bytes that are not `0xB5`, whatever they are and however they are mixed, as
long as the timer has not expired (R216, R220). -/
def Obligations.SeekPassesOverTheRest : Prop :=
  ∀ (s : State) (l more : List LineEvent), HostWaits s → s.opstate = .rSeek → l.all quiet = true →
    s.elapsed.toNat + tickCount l ≤ s.timeout.toNat → s.line = l ++ more →
    run l.length s = .next { s with line := more, elapsed := s.elapsed + BitVec.ofNat 32 (tickCount l) }

/-- Without an answer no receive ends (R240, R213, R218): however many ticks come, the operation state stays and the timer
counts, saturating; and with nothing on the line nothing changes (that a step which waits answers the same state is the
model's choice, log 15). -/
def Obligations.OnlyAnAnswerEndsAReceive : Prop :=
  ∀ s : State, HostWaits s → s.opstate.isReceiver = true →
    (s.line = [] → ∀ k, run k s = .next s) ∧
    (∀ n, s.line = List.replicate n .tick → run n s = .next
      { s with line := [], elapsed := BitVec.ofNat 32 (min (s.elapsed.toNat + n) 4294967295) })

/-- The event `tick` (R213), from the tick source or between the answers; that outside the receiver states a tick at the
head of the line takes the step, also where the block could move, is the model's choice (log 16). -/
def Obligations.TickCountsOnlyInAReceive : Prop :=
  (∀ (s : State) (rest : List Event), s.agenda = .tick :: rest →
    (s.opstate.isReceiver = true → step s = .next
      { s with agenda := rest, elapsed := BitVec.ofNat 32 (min (s.elapsed.toNat + 1) 4294967295) }) ∧
    (s.opstate.isReceiver = false → step s = .next { s with agenda := rest })) ∧
  (∀ (s : State) (rest : List LineEvent), HostWaits s → s.line = .tick :: rest →
    (s.opstate.isReceiver = true → step s = .next
      { s with line := rest, elapsed := BitVec.ofNat 32 (min (s.elapsed.toNat + 1) 4294967295) }) ∧
    (s.opstate.isReceiver = false → step s = .next { s with line := rest }))

/-- `UBX.FRAME` and `NMEA.SENTENCE` (the model's choice, log 11): the bytes of the form arrive at the transport, or are
offered on `DIN`, behind what waits there; and so do any other bytes, a frame or a sentence or not (R71, R72, R77). -/
def Obligations.WireFormsArriveByteByByte : Prop :=
  (∀ (s : State) (c i : Byte) (p : List Byte) (a b : Byte),
    exec (.ubxFrame c i p a b) s = .next
      { s with
        line := s.line ++ ([0xB5, 0x62, c, i, BitVec.ofNat 8 (p.length % 256), BitVec.ofNat 8 (p.length / 256)]
          ++ p ++ [a, b]).map fun x => .rx (some x) }) ∧
  (∀ (s : State) (tag : List Byte) (fields : List (List Byte)),
    exec (.nmeaSentence tag fields) s = .next
      { s with
        din := s.din ++ (nmeaJoined tag fields ++ [0x2A, hexDigit ((ckx (nmeaJoined tag fields).tail).extractLsb' 4 4),
          hexDigit ((ckx (nmeaJoined tag fields).tail).extractLsb' 0 4), 0x0D, 0x0A]) }) ∧
  (∀ (s : State) (bs : List Byte) (rest : List Event),
    (s.agenda = .arrive bs :: rest → step s = .next
      { s with agenda := rest, line := s.line ++ bs.map fun x => .rx (some x) }) ∧
    (s.agenda = .putDin bs :: rest → step s = .next { s with agenda := rest, din := s.din ++ bs }))

/-! ### The sentence encoder -/

/-- The first symbol that waits in `SIN` (R186): `$` is emitted, any other symbol ends the operation. -/
def Obligations.FirstSymbolMustBeDollar : Prop :=
  ∀ (s : State) (y : Symbol) (rest : List Symbol), BlockTurn s → s.opstate = .tFirst → s.sin = y :: rest →
    (y = .ch 0x24 → s.txReady = true → step s = .next
      { s with sin := rest, tx := s.tx ++ [0x24], opstate := .tBody }) ∧
    (y ≠ .ch 0x24 → step s = .next
      { s with sin := rest, result := 0x15, busy := false, done := true, opstate := .idle })

/-- The symbols of the body that wait in `SIN` (R188); no character is checked. -/
def Obligations.BodySymbols : Prop :=
  ∀ (s : State) (y : Symbol) (rest : List Symbol), BlockTurn s → s.opstate = .tBody → s.sin = y :: rest →
    (∀ b : Byte, y = .ch b → s.txReady = true → step s = .next
      { s with sin := rest, tx := s.tx ++ [b], xacc := s.xacc ^^^ b }) ∧
    (y = .fs → s.txReady = true → step s = .next
      { s with sin := rest, tx := s.tx ++ [0x2C], xacc := s.xacc ^^^ 0x2C }) ∧
    (y = .endMsg → s.txReady = true → step s = .next
      { s with sin := rest, tx := s.tx ++ [0x2A], opstate := .tHexHi }) ∧
    (y = .reserved → step s = .next
      { s with sin := rest, result := 0x15, busy := false, done := true, opstate := .idle })

/-- What the four symbol rows do (R74, R186, R188; that an encoder which can take the symbol takes it in the same step is
the model's choice, log 10): taken in `T_FIRST` and in `T_BODY` when nothing waits before it and the byte it emits finds
a ready sink; kept in `SIN` at every other time. -/
def Obligations.SymbolRowsOfferASymbol : Prop :=
  ∀ (s : State) (d : Byte),
    (s.opstate = .tFirst → s.sin = [] →
      (s.txReady = true → exec (.symCh 0x24) s = .next { s with tx := s.tx ++ [0x24], opstate := .tBody }) ∧
      (∀ y : Symbol, y ≠ .ch 0x24 → exec (symbolRow y d) s = .next
        { s with result := 0x15, busy := false, done := true, opstate := .idle })) ∧
    (s.opstate = .tBody → s.sin = [] →
      (∀ b : Byte, s.txReady = true → exec (.symCh b) s = .next { s with tx := s.tx ++ [b], xacc := s.xacc ^^^ b }) ∧
      (s.txReady = true → exec (.symFs d) s = .next { s with tx := s.tx ++ [0x2C], xacc := s.xacc ^^^ 0x2C }) ∧
      (s.txReady = true → exec (.symEnd d) s = .next { s with tx := s.tx ++ [0x2A], opstate := .tHexHi }) ∧
      exec (.symReserved d) s = .next
        { s with result := 0x15, busy := false, done := true, opstate := .idle }) ∧
    (∀ y : Symbol, (s.opstate ≠ .tFirst ∧ s.opstate ≠ .tBody) ∨
        (s.opstate = .tFirst ∧ s.sin = [] ∧ s.txReady = false ∧ y = .ch 0x24) ∨
        (s.opstate = .tBody ∧ s.sin = [] ∧ s.txReady = false ∧ y ≠ .reserved) →
      exec (symbolRow y d) s = .next { s with sin := s.sin ++ [y] })

/-- The four bytes after the marker (R190 to R193): the digits are those of R105, written out in `hexDigit`. -/
def Obligations.SentenceTail : Prop :=
  ∀ s : State, BlockTurn s → s.txReady = true →
    (s.opstate = .tHexHi → step s = .next
      { s with tx := s.tx ++ [hexDigit (s.xacc.extractLsb' 4 4)], opstate := .tHexLo }) ∧
    (s.opstate = .tHexLo → step s = .next
      { s with tx := s.tx ++ [hexDigit (s.xacc.extractLsb' 0 4)], opstate := .tCr }) ∧
    (s.opstate = .tCr → step s = .next { s with tx := s.tx ++ [0x0D], opstate := .tLf }) ∧
    (s.opstate = .tLf → step s = .next
      { s with tx := s.tx ++ [0x0A], result := 0x01, busy := false, done := true, opstate := .idle })

/-- A text message put on `SIN`, symbol by symbol, comes out as its sentence (R194): `NMEAENC`, the symbols, and four steps
of the block. That a symbol is taken in the step that offers it, on which the number of steps rests, is the model's choice
(log 10). -/
def Obligations.NmeaencEmitsTheSentence : Prop :=
  ∀ (s : State) (t : List Byte) (fields : List (List Byte)), s.busy = false → s.sin = [] → s.line = [] →
    s.txReady = true → s.agenda = sendText (0x24 :: t) fields →
    run ((messageSymbols (0x24 :: t) fields).length + 5) s = .next
      { s with
        agenda := [], tx := s.tx ++ nmeaEncode (0x24 :: t) fields, xacc := ckx (t ++ fieldBytes fields),
        result := 0x01, busy := false, done := true, opstate := .idle }

/-! ### The sentence decoder -/

/-- The first byte and the body (R264, R266); a symbol is emitted when the host is ready to take one. -/
def Obligations.DecoderStartAndBody : Prop :=
  ∀ (s : State) (b : Byte) (rest : List Byte), BlockTurn s → s.din = b :: rest →
    (s.opstate = .nStart → b = 0x24 → 0 < s.soutWanted → step s = .next
      { s with din := rest, sout := s.sout ++ [.ch 0x24], soutWanted := s.soutWanted - 1, opstate := .nBody }) ∧
    (s.opstate = .nStart → b ≠ 0x24 → step s = .next
      { s with din := rest, result := 0x15, busy := false, done := true, opstate := .idle }) ∧
    (s.opstate = .nBody → b = 0x2C → 0 < s.soutWanted → step s = .next
      { s with din := rest, sout := s.sout ++ [.fs], soutWanted := s.soutWanted - 1, xacc := s.xacc ^^^ 0x2C }) ∧
    (s.opstate = .nBody → b = 0x2A → step s = .next { s with din := rest, opstate := .nHex1 }) ∧
    (s.opstate = .nBody → b ∈ [0x0D, 0x0A, 0x24] → step s = .next
      { s with din := rest, result := 0x15, busy := false, done := true, opstate := .idle }) ∧
    (s.opstate = .nBody → b ∉ [0x2C, 0x2A, 0x0D, 0x0A, 0x24] → 0 < s.soutWanted → step s = .next
      { s with din := rest, sout := s.sout ++ [.ch b], soutWanted := s.soutWanted - 1, xacc := s.xacc ^^^ b })

/-- The two digits, the terminator and the verdict (R268, R270, R272, R274): the digits are the bytes 0x30 to 0x39 and 0x41
to 0x46 and no others (R106), written out in `hexDigit`. -/
def Obligations.DecoderDigitsAndVerdict : Prop :=
  ∀ (s : State) (b : Byte) (rest : List Byte), BlockTurn s → s.din = b :: rest →
    (∀ n : BitVec 4, b = hexDigit n →
      (s.opstate = .nHex1 → step s = .next
        { s with din := rest, rxck := n ++ s.rxck.extractLsb' 0 4, opstate := .nHex2 }) ∧
      (s.opstate = .nHex2 → step s = .next
        { s with din := rest, rxck := s.rxck.extractLsb' 4 4 ++ n, opstate := .nCr })) ∧
    (s.opstate = .nCr → b = 0x0D → step s = .next { s with din := rest, opstate := .nLf }) ∧
    (s.opstate = .nLf → b = 0x0A → s.rxck = s.xacc → 0 < s.soutWanted → step s = .next
      { s with
        din := rest, sout := s.sout ++ [.endMsg], soutWanted := s.soutWanted - 1,
        result := 0x01, busy := false, done := true, opstate := .idle }) ∧
    (s.opstate = .nLf → b = 0x0A → s.rxck ≠ s.xacc → step s = .next
      { s with din := rest, result := 0x13, busy := false, done := true, opstate := .idle }) ∧
    (((∀ n : BitVec 4, b ≠ hexDigit n) ∧ (s.opstate = .nHex1 ∨ s.opstate = .nHex2)) ∨ (s.opstate = .nCr ∧ b ≠ 0x0D) ∨
        (s.opstate = .nLf ∧ b ≠ 0x0A) → step s = .next
      { s with din := rest, result := 0x15, busy := false, done := true, opstate := .idle })

/-- `NMEADEC` computes `nmea_decode` (R261, R276). Where it answers fields, the sentence's bytes are taken and their symbols
emitted with `END`. Where it answers a checksum mismatch, the bytes begin with a sentence whose digits are not its
checksum; exactly that sentence is taken, without `END`. Where it answers a format error, the operation ends with
`ERR_TEXT_FORMAT` at the first byte after which no continuation is a sentence, that byte taken and no other after it; or, if
there is no such byte, every byte is taken and the operation waits for more. The symbols are those of the bytes before
the marker. -/
def Obligations.NmeadecComputesNmeaDecode : Prop :=
  ∀ (s : State) (bs : List Byte), s.busy = false → s.agenda = [.wr .cmd 0x07] → s.line = [] → s.din = bs →
    bs.length ≤ s.soutWanted →
    (∀ (tag : List Byte) (fields : List (List Byte)) (rest : List Byte), nmeaDecode bs = .ok (tag :: fields, rest) →
      run (1 + (bs.length - rest.length)) s = .next
        { s with
          agenda := [], din := rest, sout := s.sout ++ messageSymbols tag fields,
          soutWanted := s.soutWanted - (messageSymbols tag fields).length,
          xacc := ckx (nmeaJoined tag fields).tail, rxck := ckx (nmeaJoined tag fields).tail,
          result := 0x01, busy := false, done := true, opstate := .idle }) ∧
    (nmeaDecode bs = .error .checksum → ∃ (body : List Byte) (h l : BitVec 4) (rest : List Byte),
      bs = 0x24 :: body ++ [0x2A, hexDigit h, hexDigit l, 0x0D, 0x0A] ++ rest ∧
      (∀ b ∈ body, b ∉ [0x2A, 0x0D, 0x0A, 0x24]) ∧ h ++ l ≠ ckx body ∧
      run (7 + body.length) s = .next
        { s with
          agenda := [], din := rest, sout := s.sout ++ byteSymbols (0x24 :: body),
          soutWanted := s.soutWanted - (1 + body.length), xacc := ckx body, rxck := h ++ l,
          result := 0x13, busy := false, done := true, opstate := .idle }) ∧
    (nmeaDecode bs = .error .format →
      (∀ (pre : List Byte) (b : Byte) (rest : List Byte), bs = pre ++ b :: rest → Viable pre → ¬ Viable (pre ++ [b]) →
        ∃ r : Byte, run (2 + pre.length) s = .next
          { s with
            agenda := [], din := rest, sout := s.sout ++ byteSymbols (beforeMarker pre),
            soutWanted := s.soutWanted - (beforeMarker pre).length, xacc := ckx (beforeMarker pre).tail, rxck := r,
            result := 0x15, busy := false, done := true, opstate := .idle }) ∧
      (Viable bs → ∃ (r : Byte) (o : OpState), o ∈ [.nStart, .nBody, .nHex1, .nHex2, .nCr, .nLf] ∧
        run (1 + bs.length) s = .next
          { s with
            agenda := [], din := [], sout := s.sout ++ byteSymbols (beforeMarker bs),
            soutWanted := s.soutWanted - (beforeMarker bs).length, xacc := ckx (beforeMarker bs).tail, rxck := r,
            busy := true, done := false, opstate := o }))

/-! ### Waiting -/

/-- What the block cannot do yet it does not do, for ever: an encoder whose sink takes nothing, in every state in which it
would emit a byte (R167, R195), a sentence encoder without a symbol, a decoder without a byte or without a host that takes
its symbol (R279); however many steps, nothing changes (a waiting step is the model's choice, log 15). -/
def Obligations.AWaitingBlockStays : Prop :=
  ∀ (s : State) (k : Nat), BlockTurn s →
    (s.txReady = false → s.opstate.isUbxEncoder = true ∨ s.opstate ∈ [.tHexHi, .tHexLo, .tCr, .tLf] →
      run k s = .next s) ∧
    (∀ rest : List Symbol, s.txReady = false → s.opstate = .tFirst → s.sin = .ch 0x24 :: rest → run k s = .next s) ∧
    (∀ (y : Symbol) (rest : List Symbol), s.txReady = false → s.opstate = .tBody → s.sin = y :: rest →
      (∃ b : Byte, y = .ch b) ∨ y = .fs ∨ y = .endMsg → run k s = .next s) ∧
    (s.opstate = .tFirst ∨ s.opstate = .tBody → s.sin = [] → run k s = .next s) ∧
    (s.opstate ∈ [.nStart, .nBody, .nHex1, .nHex2, .nCr, .nLf] → s.din = [] → run k s = .next s) ∧
    (∀ rest : List Byte, s.opstate = .nStart → s.din = 0x24 :: rest → s.soutWanted = 0 → run k s = .next s) ∧
    (∀ (b : Byte) (rest : List Byte), s.opstate = .nBody → s.din = b :: rest → b ∉ [0x2A, 0x0D, 0x0A, 0x24] →
      s.soutWanted = 0 → run k s = .next s) ∧
    (∀ rest : List Byte, s.opstate = .nLf → s.din = 0x0A :: rest → s.rxck = s.xacc → s.soutWanted = 0 →
      run k s = .next s)

/-! ### Outcomes and reset -/

/-- Each outcome row but `RES_IDLE` is `complete` of its code (R14, R300, R316; that the row stands for it is the model's
choice, log 8), and `RESULT[4]` marks exactly the seven errors. -/
def Obligations.OutcomesCompleteTheOperation : Prop :=
  (∀ (s : State) (i : Instr) (code : Byte),
    (i, code) ∈ ([(.resOk, 0x01), (.resNoMessage, 0x02), (.errPayloadTooLarge, 0x10), (.errUnknownMessageType, 0x11),
      (.errFraming, 0x12), (.errChecksumMismatch, 0x13), (.errTransport, 0x14), (.errTextFormat, 0x15),
      (.errBadCommand, 0x16)] : List (Instr × Byte)) →
    exec i s = .next { s with result := code, busy := false, done := true, opstate := .idle }) ∧
  (∀ c : ResultCode, (resultCode c).getLsbD 4 = true ↔ c ≠ .resIdle ∧ c ≠ .resOk ∧ c ≠ .resNoMessage)

/-- The event `reset` (R340, R341), as an item of the agenda and as the row `RES_IDLE` (log 8): registers, flags and
`OPSTATE` to their reset values; parameters, streams and the host's own lists stay; no buffer byte holds a value (the
model's reading of R51 and R52, log 5). -/
def Obligations.ResetEventAtAnyTime : Prop :=
  ∀ s : State,
    exec .resIdle s = .next
      { State.reset with
        maxPayload := s.maxPayload, frameDeadline := s.frameDeadline, line := s.line, sin := s.sin, din := s.din,
        tx := s.tx, sout := s.sout, txReady := s.txReady, soutWanted := s.soutWanted, agenda := s.agenda,
        seen := s.seen } ∧
    ∀ rest : List Event, s.agenda = .rst :: rest → step s = exec .resIdle { s with agenda := rest }

/-- The state after reset (R51). -/
def Obligations.ResetState : Prop :=
  State.reset.opstate = .idle ∧ State.reset.busy = false ∧ State.reset.done = false ∧ State.reset.msgValid = false ∧
  State.reset.feSync2 = false ∧ State.reset.result = 0x00 ∧ State.reset.ckA = 0x00 ∧ State.reset.ckB = 0x00 ∧
  State.reset.xacc = 0x00 ∧ State.reset.cls = 0x00 ∧ State.reset.id = 0x00 ∧ State.reset.rckA = 0x00 ∧
  State.reset.rckB = 0x00 ∧ State.reset.rxck = 0x00 ∧ State.reset.msgCls = 0x00 ∧ State.reset.msgId = 0x00 ∧
  State.reset.len = 0x0000 ∧ State.reset.cnt = 0x0000 ∧ State.reset.msgLen = 0x0000 ∧
  State.reset.argClsid = 0x0000 ∧ State.reset.argLen = 0x0000 ∧ State.reset.argName = 0x00 ∧
  State.reset.timeout = 0x00000000 ∧ State.reset.elapsed = 0x00000000 ∧ readRequest State.reset = false ∧
  (∀ a : Nat, State.reset.txbuf.read a = none ∧ State.reset.rxbuf.read a = none) ∧
  (∀ s t : State, exec .resIdle s = .next t →
    readReg .config t = readReg .config s ∧ t.maxPayload = s.maxPayload ∧ t.frameDeadline = s.frameDeadline)

/-! ### The host's accesses -/

/-- Host writes (R34, R38, R39, R41, R42, R46): the four writable registers take the value cut to their width, every other
register ignores it, and while `BUSY = 1` every register does. -/
def Obligations.HostRegisterWrites : Prop :=
  ∀ (s : State) (r : Reg) (v : Word) (rest : List Event), s.agenda = .wr r v :: rest → r ≠ .cmd →
    (s.busy = true → step s = .next { s with agenda := rest }) ∧
    (s.busy = false →
      (r = .argClsid → step s = .next { s with agenda := rest, argClsid := v.extractLsb' 0 16 }) ∧
      (r = .argLen → step s = .next { s with agenda := rest, argLen := v.extractLsb' 0 16 }) ∧
      (r = .argName → step s = .next { s with agenda := rest, argName := v.extractLsb' 0 8 }) ∧
      (r = .timeout → step s = .next { s with agenda := rest, timeout := v }) ∧
      (r ∉ [.argClsid, .argLen, .argName, .timeout] → step s = .next { s with agenda := rest }))

/-- Host reads (R34 to R37, R44, R45, R46, R312): what each register shows; the read changes nothing but what the host has
seen; `done_irq` is the `DONE` bit of `STATUS`. -/
def Obligations.HostRegisterReads : Prop :=
  ∀ s : State,
    (∀ (r : Reg) (rest : List Event), s.agenda = .rd r :: rest →
      step s = .next { s with agenda := rest, seen := s.seen ++ [.reg r (readReg r s)] }) ∧
    readReg .cmd s = 0 ∧
    (∀ n : Nat, (readReg .status s).getLsbD n =
      if n = 0 then s.busy else if n = 1 then s.done else if n = 2 then s.msgValid else if n = 3 then s.feSync2
      else false) ∧
    readReg .result s = s.result.setWidth 32 ∧ readReg .argClsid s = s.argClsid.setWidth 32 ∧
    readReg .argLen s = s.argLen.setWidth 32 ∧ readReg .argName s = s.argName.setWidth 32 ∧
    readReg .timeout s = s.timeout ∧ readReg .elapsed s = s.elapsed ∧
    readReg .msgClsid s = (s.msgId ++ s.msgCls).setWidth 32 ∧ readReg .msgLen s = s.msgLen.setWidth 32 ∧
    readReg .ckout s = (s.ckB ++ s.ckA).setWidth 32 ∧ readReg .rckout s = (s.rckB ++ s.rckA).setWidth 32 ∧
    readReg .xout s = (s.rxck ++ s.xacc).setWidth 32 ∧
    (∀ n : Nat, (readReg .config s).getLsbD n =
      if n < 15 then s.maxPayload.getLsbD n else if n = 15 then s.frameDeadline else false) ∧
    doneIrq s = (readReg .status s).getLsbD 1

/-- Host accesses to the buffers (R64, R52, R351): a write stores one byte and leaves every other; a read returns the byte
and changes nothing; a byte without a value faults (log 4); and while the operation that uses the buffer runs, the model
refuses (U5, log 14). That TXBUF can be written while another operation than UBXENC runs is the model's reading of R82 and
R351 (log 13). -/
def Obligations.HostBufferAccesses : Prop :=
  (∀ (s : State) (a : BitVec 15) (v : Byte) (rest : List Event), s.agenda = .wrbuf a v :: rest →
    (s.opstate.isUbxEncoder = true → step s = .refused (.bufferInUse .txbuf)) ∧
    (s.opstate.isUbxEncoder = false → ∃ m : Memory, step s = .next { s with agenda := rest, txbuf := m } ∧
      m.read a.toNat = some v ∧ ∀ x : Nat, x ≠ a.toNat → m.read x = s.txbuf.read x)) ∧
  (∀ (s : State) (a : BitVec 15) (rest : List Event), s.agenda = .rdbuf .txbuf a :: rest →
    (s.opstate.isUbxEncoder = true → step s = .refused (.bufferInUse .txbuf)) ∧
    (s.opstate.isUbxEncoder = false → s.txbuf.read a.toNat = none →
      step s = .fault (.unwrittenByte .txbuf a.toNat)) ∧
    (∀ v : Byte, s.opstate.isUbxEncoder = false → s.txbuf.read a.toNat = some v →
      step s = .next { s with agenda := rest, seen := s.seen ++ [.byte .txbuf a.toNat v] })) ∧
  (∀ (s : State) (a : BitVec 15) (rest : List Event), s.agenda = .rdbuf .rxbuf a :: rest →
    (s.opstate.isReceiver = true → step s = .refused (.bufferInUse .rxbuf)) ∧
    (s.opstate.isReceiver = false → s.rxbuf.read a.toNat = none →
      step s = .fault (.unwrittenByte .rxbuf a.toNat)) ∧
    (∀ v : Byte, s.opstate.isReceiver = false → s.rxbuf.read a.toNat = some v →
      step s = .next { s with agenda := rest, seen := s.seen ++ [.byte .rxbuf a.toNat v] }))

/-! ### The whole machine -/

/-- Every step, whatever it is, keeps the invariant. -/
def Obligations.EveryStepKeepsTheInvariant : Prop :=
  ∀ s t : State, Inv s → step s = .next t → Inv t

/-- The invariant holds after reset. -/
def Obligations.TheInvariantHoldsAtReset : Prop := Inv State.reset

/-- `CNT` never addresses a byte outside a buffer (R25, R31). -/
def Obligations.NoAddressOutsideABuffer : Prop :=
  ∀ (s : State) (b : Buf) (a : Nat), Inv s → step s ≠ .fault (.outsideBuffer b a)

/-- The received message (R28, R32, R353): a step leaves a valid message valid and as it is, unless it accepts a UBXRECV
or is a reset; and `MSG_*` take new values only in the step that ends a UBXRECV with `RES_OK`, as copies of `CLS`,
`ID`, `LEN`, or at reset. -/
def Obligations.AReceivedMessageStays : Prop :=
  ∀ s t : State, Inv s → step s = .next t → (∀ rest, s.agenda ≠ .rst :: rest) →
    (s.msgValid = true →
      (t.msgValid = true ∧ t.msgCls = s.msgCls ∧ t.msgId = s.msgId ∧ t.msgLen = s.msgLen ∧ t.rxbuf = s.rxbuf) ∨
      (s.busy = false ∧ t.busy = true ∧ t.opstate = .rSeek ∧ t.elapsed = 0 ∧ t.msgValid = false)) ∧
    ((t.msgCls = s.msgCls ∧ t.msgId = s.msgId ∧ t.msgLen = s.msgLen) ∨
      (s.opstate = .rCkB ∧ t.opstate = .idle ∧ t.result = 0x01 ∧ t.msgValid = true ∧
        t.msgCls = s.cls ∧ t.msgId = s.id ∧ t.msgLen = s.len))

/-- One operation at a time (R40): while `BUSY = 1` a step goes on with the same unit's operation, completes it, or is a
reset; no other operation begins. -/
def Obligations.OneOperationAtATime : Prop :=
  ∀ s t : State, Inv s → step s = .next t → s.busy = true → t.opstate ≠ .idle →
    t.busy = true ∧ t.opstate.isReceiver = s.opstate.isReceiver ∧ t.opstate.isUbxEncoder = s.opstate.isUbxEncoder ∧
    (t.opstate ∈ [.tFirst, .tBody, .tHexHi, .tHexLo, .tCr, .tLf] ↔
      s.opstate ∈ [.tFirst, .tBody, .tHexHi, .tHexLo, .tCr, .tLf])

/-- A receive that ends without a reset reports one of its five outcomes (R210), in a step that takes an answer from the
line. -/
def Obligations.AReceiveEndsWithOneOfFiveResults : Prop :=
  ∀ s t : State, Inv s → step s = .next t → s.opstate.isReceiver = true → t.opstate = .idle →
    (∀ rest, s.agenda ≠ .rst :: rest) →
    t.result ∈ [0x01, 0x02, 0x12, 0x13, 0x14] ∧ ∃ r, s.line = .rx r :: t.line

/-- The parameters in `CONFIG` never change, not even by reset (R9, R46, R51). -/
def Obligations.ParametersNeverChange : Prop :=
  ∀ s t : State, step s = .next t → t.maxPayload = s.maxPayload ∧ t.frameDeadline = s.frameDeadline

/-- The TX stream only grows, by at most one byte a step, taken by a ready sink, and only in a UBXENC or an NMEAENC
(R73). -/
def Obligations.TxGrowsOnlyInAnEncode : Prop :=
  ∀ s t : State, step s = .next t → t.tx = s.tx ∨
    (s.txReady = true ∧ (s.opstate.isUbxEncoder = true ∨
      s.opstate ∈ [.tFirst, .tBody, .tHexHi, .tHexLo, .tCr, .tLf]) ∧ ∃ b, t.tx = s.tx ++ [b])

/-- `SOUT` only grows, by at most one symbol a step, in an NMEADEC; `END` is emitted only by the successful verdict, and
the reserved kind never (R75, R108, R276). -/
def Obligations.SoutGrowsOnlyInADecode : Prop :=
  ∀ s t : State, step s = .next t → t.sout = s.sout ∨
    (0 < s.soutWanted ∧ s.opstate ∈ [.nStart, .nBody, .nLf] ∧ ∃ y, t.sout = s.sout ++ [y] ∧ y ≠ .reserved ∧
      (y = .endMsg ↔ s.opstate = .nLf) ∧ (y = .endMsg → t.opstate = .idle ∧ t.result = 0x01))

/-- What a transition of the block leaves alone, unit by unit (R29, R65): the host's registers, the parameters and TXBUF
always; in `IDLE` everything; and every register and stream of the units that are not running: the receiver's outside the
receiver, the streams and text registers in the receiver and in the frame encoder, `DIN`, `SOUT` and `RXCK` in the sentence
encoder, TX and `SIN` in the sentence decoder, the frame registers in both. -/
def Obligations.TransitionsLeaveTheRestAlone : Prop :=
  ∀ s t : State, blockMove s = .next t →
    (t.argClsid = s.argClsid ∧ t.argLen = s.argLen ∧ t.argName = s.argName ∧ t.timeout = s.timeout ∧
      t.txbuf = s.txbuf ∧ t.agenda = s.agenda ∧ t.seen = s.seen ∧ t.txReady = s.txReady ∧
      t.maxPayload = s.maxPayload ∧ t.frameDeadline = s.frameDeadline) ∧
    (s.opstate = .idle → t = s) ∧
    (s.opstate.isReceiver = false →
      t.msgCls = s.msgCls ∧ t.msgId = s.msgId ∧ t.msgLen = s.msgLen ∧ t.msgValid = s.msgValid ∧
      t.feSync2 = s.feSync2 ∧ t.rckA = s.rckA ∧ t.rckB = s.rckB ∧ t.elapsed = s.elapsed ∧ t.line = s.line ∧
      (∀ a, t.rxbuf.read a = s.rxbuf.read a)) ∧
    (s.opstate.isReceiver = true → t.tx = s.tx ∧ t.sin = s.sin ∧ t.din = s.din ∧ t.sout = s.sout ∧
      t.soutWanted = s.soutWanted ∧ t.xacc = s.xacc ∧ t.rxck = s.rxck ∧ ∀ a, a ≠ s.cnt.toNat ∨ s.opstate ≠ .rPay → t.rxbuf.read a = s.rxbuf.read a) ∧
    (s.opstate.isUbxEncoder = true → t.sin = s.sin ∧ t.din = s.din ∧ t.sout = s.sout ∧
      t.soutWanted = s.soutWanted ∧ t.xacc = s.xacc ∧ t.rxck = s.rxck ∧ t.cls = s.cls ∧ t.id = s.id ∧ t.len = s.len) ∧
    (s.opstate ∈ [.tFirst, .tBody, .tHexHi, .tHexLo, .tCr, .tLf] →
      t.din = s.din ∧ t.sout = s.sout ∧ t.soutWanted = s.soutWanted ∧ t.rxck = s.rxck) ∧
    (s.opstate ∈ [.nStart, .nBody, .nHex1, .nHex2, .nCr, .nLf] → t.tx = s.tx ∧ t.sin = s.sin) ∧
    (s.opstate.isUbxEncoder = false → s.opstate.isReceiver = false →
      t.ckA = s.ckA ∧ t.ckB = s.ckB ∧ t.cls = s.cls ∧ t.id = s.id ∧ t.len = s.len ∧ t.cnt = s.cnt)

/-- What an instruction leaves alone in the step it is executed in, the reset row apart (R29, R46, R65): the received
message, both buffers byte by byte, the receiver's registers, `TIMEOUT` and the parameters always; each other
register unless the instruction is one of those that write it. -/
def Obligations.InstructionsLeaveTheRestAlone : Prop :=
  ∀ (i : Instr) (s t : State), i ≠ .resIdle → exec i s = .next t →
    (t.msgCls = s.msgCls ∧ t.msgId = s.msgId ∧ t.msgLen = s.msgLen ∧ t.rckA = s.rckA ∧ t.rckB = s.rckB ∧
      t.timeout = s.timeout ∧ t.argLen = s.argLen ∧ t.maxPayload = s.maxPayload ∧
      t.frameDeadline = s.frameDeadline ∧ t.sout = s.sout ∧ t.txReady = s.txReady ∧ t.soutWanted = s.soutWanted ∧
      t.seen = s.seen ∧
      ∀ a, t.txbuf.read a = s.txbuf.read a ∧ t.rxbuf.read a = s.rxbuf.read a) ∧
    (i ≠ .ck2 → i ≠ .ubxenc → t.ckA = s.ckA ∧ t.ckB = s.ckB) ∧
    (i ≠ .ubxenc → t.cls = s.cls ∧ t.id = s.id ∧ t.len = s.len ∧ t.cnt = s.cnt) ∧
    (i ≠ .ubxrecv → t.elapsed = s.elapsed ∧ t.msgValid = s.msgValid ∧ t.feSync2 = s.feSync2) ∧
    (i ≠ .nmeadec → t.rxck = s.rxck) ∧
    (i.format ≠ .sym10 → t.tx = s.tx ∧ t.sin = s.sin) ∧
    (i.format ≠ .sym10 → i ≠ .ckx → i ≠ .nmeaenc → i ≠ .nmeadec → t.xacc = s.xacc) ∧
    (i.format ≠ .cidrom → t.argName = s.argName) ∧
    (i.format ≠ .cidrom → i ≠ .lookup → t.argClsid = s.argClsid) ∧
    (i.format ≠ .pseudo → t.agenda = s.agenda) ∧
    (i.format ≠ .frame → i.format ≠ .pseudo → t.line = s.line) ∧
    (i.format ≠ .sentence → t.din = s.din) ∧
    (i.format = .frame ∨ i.format = .sentence ∨ i.format = .pseudo →
      t.opstate = s.opstate ∧ t.busy = s.busy ∧ t.done = s.done ∧ t.result = s.result)

/-! ### The checksums -/

/-- The closed form of the dual sum (R132): the sum of the bytes, and the sum weighted by the distance from the end, both
modulo 256. -/
def Obligations.DualSumClosedForm : Prop :=
  ∀ bs : List Byte,
    (ck2 bs).1.toNat = (bs.map BitVec.toNat).sum % 256 ∧
    (ck2 bs).2.toNat = (bs.zipIdx.map fun x => (bs.length - x.2) * x.1.toNat).sum % 256

/-- What the dual sum detects (R133): a change of exactly one byte changes `ck_a`; swapping two different neighbours leaves
`ck_a` and changes `ck_b`. -/
def Obligations.DualSumDetectsChanges : Prop :=
  (∀ (u v : List Byte) (x y : Byte), x ≠ y → (ck2 (u ++ x :: v)).1 ≠ (ck2 (u ++ y :: v)).1) ∧
  (∀ (u v : List Byte) (x y : Byte), x ≠ y →
    (ck2 (u ++ x :: y :: v)).1 = (ck2 (u ++ y :: x :: v)).1 ∧ (ck2 (u ++ x :: y :: v)).2 ≠ (ck2 (u ++ y :: x :: v)).2)

/-- The XOR checksum does not depend on the order of the bytes, and a byte that occurs twice cancels (R135). -/
def Obligations.XorIgnoresTheOrder : Prop :=
  (∀ us vs : List Byte, us.Perm vs → ckx us = ckx vs) ∧ (∀ (us : List Byte) (x : Byte), ckx (x :: x :: us) = ckx us)

/-! ### Pseudo-operations -/

/-- The five pseudo-operations become the host sequences of R170, R200, R201, R290 and R244, in front of what the host had
still to do (how the sequence reaches the block, and what the host writes of a payload that TXBUF or `ARG_LEN` cannot hold,
is the model's choice, log 12). -/
def Obligations.PseudoOperationsExpand : Prop :=
  ∀ s : State,
    (∀ (name : Byte) (p : List Byte), exec (.ubxencNamed name p) s = .next
      { s with
        agenda := [.wr .argName (name.setWidth 32), .wr .cmd 0x03, .skipIf 0x11 (min 32768 p.length + 2)]
          ++ bufferWrites 0 (p.take 32768) ++ [.wr .argLen (BitVec.ofNat 32 (min p.length 65535)), .wr .cmd 0x04]
          ++ s.agenda }) ∧
    (∀ port inMask outMask baud autobaud : List Byte, exec (.pubxSetbaud port inMask outMask baud autobaud) s = .next
      { s with
        agenda := sendText [0x24, 0x50, 0x55, 0x42, 0x58] [[0x34, 0x31], port, inMask, outMask, baud, autobaud]
          ++ s.agenda }) ∧
    (∀ tag subtype code r1 r2 r3 r4 r5 : List Byte, exec (.pubxSetrate tag subtype code r1 r2 r3 r4 r5) s = .next
      { s with agenda := sendText tag [subtype, code, r1, r2, r3, r4, r5, [0x30]] ++ s.agenda }) ∧
    (∀ (c i : Byte) (p : List Byte) (v : Word), exec (.exchange (.binary c i p) v) s = .next
      { s with
        agenda := [.wr .argClsid ((i ++ c).setWidth 32), .wr .argLen (BitVec.ofNat 32 (min p.length 65535))]
          ++ bufferWrites 0 (p.take 32768)
          ++ [.wr .cmd 0x04, .wait, .wr .timeout v, .wr .cmd 0x05, .wait, .copyMsg, .wr .cmd 0x05, .wait, .copyMsg]
          ++ s.agenda }) ∧
    (∀ (tag : List Byte) (fields : List (List Byte)) (v : Word), exec (.exchange (.text tag fields) v) s = .next
      { s with
        agenda := sendText tag fields
          ++ [.wait, .wr .timeout v, .wr .cmd 0x05, .wait, .copyMsg, .wr .cmd 0x05, .wait, .copyMsg]
          ++ s.agenda }) ∧
    (∀ bytes : List Byte, exec (.ubxdecode bytes) s = .next
      { s with
        line := bytes.map (fun b => .rx (some b)) ++ s.line,
        agenda := [.wr .cmd 0x05, .wait, .copyMsg] ++ s.agenda })

/-- `UBXENC.NAMED` on an idle block (R170): an unknown name ends it with `ERR_UNKNOWN_MESSAGE_TYPE`, nothing sent, nothing
written to TXBUF, whatever the payload; a known name ends in an accepted UBXENC of the named class and id with the
payload in TXBUF, or, if the payload is too large, in its refusal (what of such a payload is written to TXBUF is the model's
choice, log 12). -/
def Obligations.NamedEncodeLooksUpFirst : Prop :=
  ∀ (s : State) (name : Byte) (p : List Byte) (rest : List Event), s.busy = false → s.opstate = .idle →
    s.agenda = .call (.ubxencNamed name p) :: rest →
    (name ∉ [0x00, 0x01, 0x02, 0x80, 0x81, 0x82] → run 4 s = .next
      { s with agenda := rest, argName := name, result := 0x11, done := true }) ∧
    (∀ c i : Byte, (name, c, i) ∈ ([(0x00, 0x06, 0x01), (0x01, 0x06, 0x24), (0x02, 0x06, 0x09), (0x80, 0xF0, 0x01),
        (0x81, 0xF0, 0x04), (0x82, 0xF0, 0x03)] : List (Byte × Byte × Byte)) →
      ∃ (m : Memory) (t : State), run (6 + min 32768 p.length) s = .next t ∧ Holds m (p.take 32768) ∧
        (∀ a, p.length ≤ a ∨ 32768 ≤ a → m.read a = s.txbuf.read a) ∧ t.agenda = rest ∧ t.txbuf = m ∧ t.tx = s.tx ∧
        t.argName = name ∧ t.argClsid = i ++ c ∧ t.argLen = BitVec.ofNat 16 (min p.length 65535) ∧
        (p.length ≤ 32767 → t.opstate = .eSync1 ∧ t.busy = true ∧ t.done = false ∧ t.cls = c ∧ t.id = i ∧
          t.len = BitVec.ofNat 16 p.length) ∧
        (32767 < p.length → t.opstate = .idle ∧ t.busy = false ∧ t.done = true ∧ t.result = 0x10))

/-- `UBXDECODE` of a message that `ubx_encode` encodes gives the message back (R244, R246): the host has seen `RES_OK`, the class and id,
the length and the payload, and the transport is as it was. -/
def Obligations.DecodeOfAnEncodedMessage : Prop :=
  ∀ (s : State) (c i : Byte) (p frame : List Byte), s.busy = false → p.length ≤ s.maxPayload.toNat →
    ubxEncode c i p = .ok frame → s.agenda = [.call (.ubxdecode frame)] →
    ∃ t : State, run (12 + p.length) s = .next t ∧ t.agenda = [] ∧ t.line = s.line ∧ t.result = 0x01 ∧
      t.feSync2 = false ∧ t.msgValid = true ∧
      t.seen = s.seen ++ [.message 0x01 (i ++ c) (BitVec.ofNat 16 p.length) p]
end

