-- ==== Sys2Proof/Laws/Checksum.lean ====
section
/-! SUPPORT. The laws of the checksums, the hex digits and the byte order. -/

namespace Sys2Proof.Machine

/-! ### Byte order -/

@[simp] theorem packHalf_lo_hi (v : Half) : packHalf (loByte v) (hiByte v) = v := by
  apply BitVec.eq_of_getLsbD_eq
  intro i hi
  simp only [packHalf, loByte, hiByte, BitVec.getLsbD_append, BitVec.getLsbD_extractLsb']
  by_cases h : i < 8
  · simp [h]
  · have h8 : i - 8 < 8 := by omega
    simp [h, h8, show 8 + (i - 8) = i by omega]

@[simp] theorem loByte_packHalf (lo hi : Byte) : loByte (packHalf lo hi) = lo := by
  apply BitVec.eq_of_getLsbD_eq
  intro i hi
  simp only [packHalf, loByte, BitVec.getLsbD_extractLsb', BitVec.getLsbD_append]
  simp [hi]

@[simp] theorem hiByte_packHalf (lo hi : Byte) : hiByte (packHalf lo hi) = hi := by
  apply BitVec.eq_of_getLsbD_eq
  intro i hi
  simp only [packHalf, hiByte, BitVec.getLsbD_extractLsb', BitVec.getLsbD_append]
  simp [hi]

@[simp] theorem packByte_hi_lo (v : Byte) : packByte (hiNibble v) (loNibble v) = v := by
  revert v; decide

@[simp] theorem hiNibble_packByte (h l : BitVec 4) : hiNibble (packByte h l) = h := by
  revert h l; decide

@[simp] theorem loNibble_packByte (h l : BitVec 4) : loNibble (packByte h l) = l := by
  revert h l; decide

/-- The value of a length whose top bit is 0. -/
theorem packHalf_toNat (lo hi : Byte) : (packHalf lo hi).toNat = hi.toNat * 256 + lo.toNat := by
  have := lo.isLt
  simp only [packHalf, BitVec.toNat_append, Nat.shiftLeft_eq]
  rw [Nat.mul_comm, ← Nat.two_pow_add_eq_or_of_lt this]

/-! ### Hex digits -/

/-- The decoder reads the digit the encoder writes (R105, R106). -/
@[simp] theorem hexval_hexchar (n : BitVec 4) : hexval (hexchar n) = some n := by
  revert n; decide

/-- Only the digit the encoder writes is read as its value (R106). -/
theorem hexchar_of_hexval (b : Byte) (n : BitVec 4) (h : hexval b = some n) : hexchar n = b := by
  revert b n; decide

/-! ### Sums and folds -/

@[simp] theorem ck2From_nil (p : Byte × Byte) : ck2From p [] = p := rfl

@[simp] theorem ck2From_cons (p : Byte × Byte) (x : Byte) (bs : List Byte) :
    ck2From p (x :: bs) = ck2From (ck2Step p x) bs := rfl

theorem ck2From_append (p : Byte × Byte) (xs ys : List Byte) :
    ck2From p (xs ++ ys) = ck2From (ck2From p xs) ys := by
  simp [ck2From, List.foldl_append]

@[simp] theorem ckxFrom_nil (a : Byte) : ckxFrom a [] = a := rfl

@[simp] theorem ckxFrom_cons (a x : Byte) (bs : List Byte) : ckxFrom a (x :: bs) = ckxFrom (ckxStep a x) bs := rfl

theorem ckxFrom_append (a : Byte) (xs ys : List Byte) : ckxFrom a (xs ++ ys) = ckxFrom (ckxFrom a xs) ys := by
  simp [ckxFrom, List.foldl_append]

end Sys2Proof.Machine
end

