-- ==== Sys2Proof/Laws/Digits.lean ====
section
/-! SUPPORT. The digits of a sentence: what the machine writes and reads against the list of R105. -/

namespace Sys2Proof.Machine

/-- The encoder writes the digits of the list (R105). -/
theorem hexchar_eq_hexDigit (n : BitVec 4) : hexchar n = hexDigit n := by
  revert n; decide

/-- The decoder reads the digits of the list (R106). -/
@[simp] theorem hexval_hexDigit (n : BitVec 4) : hexval (hexDigit n) = some n := by
  rw [← hexchar_eq_hexDigit, hexval_hexchar]

/-- A byte is read as a value exactly if it is that value's digit (R106). -/
theorem hexval_eq_some_iff (b : Byte) (n : BitVec 4) : hexval b = some n ↔ b = hexDigit n :=
  ⟨fun h => by rw [← hexchar_of_hexval b n h, hexchar_eq_hexDigit], fun h => by rw [h, hexval_hexDigit]⟩

/-- No other byte is read as a value (R106). -/
theorem hexval_eq_none_iff (b : Byte) : hexval b = none ↔ ∀ n, b ≠ hexDigit n := by
  constructor
  · rintro h n rfl; simp at h
  · intro h
    cases hv : hexval b with
    | none => rfl
    | some n => exact absurd ((hexval_eq_some_iff b n).mp hv) (h n)

end Sys2Proof.Machine
end

