-- ==== Sys2Proof/Laws/Memory.lean ====
section
/-! SUPPORT. The laws of a buffer: what a read sees after a write, the canonical form, and a run of bytes. -/

namespace Sys2Proof.Machine

/-- A read after a write: the byte written at its address, what was there everywhere else. -/
@[simp] theorem Memory.read_write (m : Memory) (a : Nat) (v : Byte) (x : Nat) :
    (m.write a v).read x = if x = a then some v else m.read x := by
  induction m with
  | nil => simp [Memory.write, Memory.read]
  | cons c m ih =>
    obtain ⟨y, w⟩ := c
    unfold Memory.write
    by_cases hx : x = a
    · subst hx; split
      · simp [Memory.read]
      · split
        · simp [Memory.read]
        · rename_i h; simp [Memory.read, h, ih]
    · split
      · simp [Memory.read, hx]
      · split
        · rename_i h; subst h; simp [Memory.read, hx]
        · simp [Memory.read, hx, ih]

theorem Memory.read_write_same (m : Memory) (a : Nat) (v : Byte) : (m.write a v).read a = some v := by simp

theorem Memory.read_write_other (m : Memory) (a : Nat) (v : Byte) (x : Nat) (h : x ≠ a) :
    (m.write a v).read x = m.read x := by simp [h]

/-- A write keeps the addresses strictly rising. -/
theorem Memory.risingFrom_write (m : Memory) (lo a : Nat) (v : Byte) (h : Memory.risingFrom lo m = true) (ha : lo ≤ a) :
    Memory.risingFrom lo (m.write a v) = true := by
  induction m generalizing lo with
  | nil => simp [Memory.write, Memory.risingFrom, ha]
  | cons c m ih =>
    obtain ⟨y, w⟩ := c
    simp only [Memory.risingFrom, Bool.and_eq_true, decide_eq_true_eq] at h
    unfold Memory.write
    split
    · simp only [Memory.risingFrom, Bool.and_eq_true, decide_eq_true_eq]
      exact ⟨ha, by omega, h.2⟩
    · split
      · rename_i h1 h2; subst h2; simp only [Memory.risingFrom, Bool.and_eq_true, decide_eq_true_eq]; exact ⟨ha, h.2⟩
      · simp only [Memory.risingFrom, Bool.and_eq_true, decide_eq_true_eq]
        exact ⟨h.1, ih (y + 1) h.2 (by omega)⟩

/-- A write inside the buffer keeps every address inside the buffer. -/
theorem Memory.inside_write (m : Memory) (a : Nat) (v : Byte) (h : m.all (fun c => decide (c.1 < Config.pbufBytes)) = true)
    (ha : a < Config.pbufBytes) : (m.write a v).all (fun c => decide (c.1 < Config.pbufBytes)) = true := by
  induction m with
  | nil => simp [Memory.write, ha]
  | cons c m ih =>
    obtain ⟨y, w⟩ := c
    simp only [List.all_cons, Bool.and_eq_true, decide_eq_true_eq] at h
    unfold Memory.write
    split
    · simp only [List.all_cons, Bool.and_eq_true, decide_eq_true_eq]; exact ⟨ha, h⟩
    · split
      · simp only [List.all_cons, Bool.and_eq_true, decide_eq_true_eq]; exact ⟨ha, h.2⟩
      · simp only [List.all_cons, Bool.and_eq_true, decide_eq_true_eq]; exact ⟨h.1, ih h.2⟩

/-- Every write inside the buffer keeps the canonical form. -/
theorem Memory.wf_write (m : Memory) (a : Nat) (v : Byte) (h : m.wf = true) (ha : a < Config.pbufBytes) :
    (m.write a v).wf = true := by
  simp only [Memory.wf, Bool.and_eq_true] at h ⊢
  exact ⟨Memory.risingFrom_write m 0 a v h.1 (Nat.zero_le a), Memory.inside_write m a v h.2 ha⟩

/-- The empty buffer is in canonical form. -/
theorem Memory.wf_nil : Memory.wf [] = true := rfl

/-- A run of `n` bytes answers exactly the bytes that stand there. -/
theorem Memory.readFrom_ok (m : Memory) (a : Nat) (bs : List Byte)
    (h : ∀ i, i < bs.length → m.read (a + i) = bs[i]?) : m.readFrom a bs.length = .ok bs := by
  induction bs generalizing a with
  | nil => rfl
  | cons b bs ih =>
    have h0 : m.read a = some b := by simpa using h 0 (by simp)
    have hr : m.readFrom (a + 1) bs.length = .ok bs := by
      apply ih
      intro i hi
      have := h (i + 1) (by simp; omega)
      simpa [Nat.add_assoc, Nat.add_comm 1 i] using this
    simp [Memory.readFrom, h0, hr]

/-- What a run of bytes answers stands in the buffer, byte by byte. -/
theorem Memory.readFrom_sound (m : Memory) (a n : Nat) (bs : List Byte) (h : m.readFrom a n = .ok bs) :
    bs.length = n ∧ ∀ i, i < n → m.read (a + i) = bs[i]? := by
  induction n generalizing a bs with
  | zero => simp only [Memory.readFrom, Except.ok.injEq] at h; subst h; simp
  | succ n ih =>
    simp only [Memory.readFrom] at h
    split at h
    · cases h
    · rename_i b hb
      split at h
      · cases h
      · rename_i bs' hbs
        simp only [Except.ok.injEq] at h; subst h
        obtain ⟨hl, hr⟩ := ih (a + 1) bs' hbs
        refine ⟨by simp [hl], fun i hi => ?_⟩
        cases i with
        | zero => simpa using hb
        | succ i => simpa [Nat.add_assoc, Nat.add_comm 1 i] using hr i (by omega)

/-- A run of bytes stops at an address without a value, and every address before it has one. -/
theorem Memory.readFrom_error (m : Memory) (a n e : Nat) (h : m.readFrom a n = .error e) :
    a ≤ e ∧ e < a + n ∧ m.read e = none ∧ ∀ x, a ≤ x → x < e → (m.read x).isSome := by
  induction n generalizing a with
  | zero => simp [Memory.readFrom] at h
  | succ n ih =>
    simp only [Memory.readFrom] at h
    split at h
    · rename_i hb
      simp only [Except.error.injEq] at h; subst h
      exact ⟨Nat.le_refl _, by omega, hb, fun x h1 h2 => by omega⟩
    · rename_i b hb
      split at h
      · rename_i e' he
        simp only [Except.error.injEq] at h; subst h
        obtain ⟨h1, h2, h3, h4⟩ := ih (a + 1) he
        refine ⟨by omega, by omega, h3, fun x hx hx' => ?_⟩
        by_cases hxa : x = a
        · subst hxa; simp [hb]
        · exact h4 x (by omega) hx'
      · cases h

end Sys2Proof.Machine
end

