-- ==== Sys2Proof/Laws/State.lean ====
section
/-! SUPPORT. One lemma per field per named update of the state, so that no later proof unfolds a record update. -/

namespace Sys2Proof.Machine

/-! ### `complete` -/

@[simp] theorem complete_opstate (c : ResultCode) (s : State) : (complete c s).opstate = .idle := rfl
@[simp] theorem complete_ckA (c : ResultCode) (s : State) : (complete c s).ckA = s.ckA := rfl
@[simp] theorem complete_ckB (c : ResultCode) (s : State) : (complete c s).ckB = s.ckB := rfl
@[simp] theorem complete_xacc (c : ResultCode) (s : State) : (complete c s).xacc = s.xacc := rfl
@[simp] theorem complete_cls (c : ResultCode) (s : State) : (complete c s).cls = s.cls := rfl
@[simp] theorem complete_id (c : ResultCode) (s : State) : (complete c s).id = s.id := rfl
@[simp] theorem complete_len (c : ResultCode) (s : State) : (complete c s).len = s.len := rfl
@[simp] theorem complete_cnt (c : ResultCode) (s : State) : (complete c s).cnt = s.cnt := rfl
@[simp] theorem complete_rckA (c : ResultCode) (s : State) : (complete c s).rckA = s.rckA := rfl
@[simp] theorem complete_rckB (c : ResultCode) (s : State) : (complete c s).rckB = s.rckB := rfl
@[simp] theorem complete_rxck (c : ResultCode) (s : State) : (complete c s).rxck = s.rxck := rfl
@[simp] theorem complete_msgCls (c : ResultCode) (s : State) : (complete c s).msgCls = s.msgCls := rfl
@[simp] theorem complete_msgId (c : ResultCode) (s : State) : (complete c s).msgId = s.msgId := rfl
@[simp] theorem complete_msgLen (c : ResultCode) (s : State) : (complete c s).msgLen = s.msgLen := rfl
@[simp] theorem complete_busy (c : ResultCode) (s : State) : (complete c s).busy = false := rfl
@[simp] theorem complete_done (c : ResultCode) (s : State) : (complete c s).done = true := rfl
@[simp] theorem complete_msgValid (c : ResultCode) (s : State) : (complete c s).msgValid = s.msgValid := rfl
@[simp] theorem complete_feSync2 (c : ResultCode) (s : State) : (complete c s).feSync2 = s.feSync2 := rfl
@[simp] theorem complete_result (c : ResultCode) (s : State) : (complete c s).result = resultCode c := rfl
@[simp] theorem complete_argClsid (c : ResultCode) (s : State) : (complete c s).argClsid = s.argClsid := rfl
@[simp] theorem complete_argLen (c : ResultCode) (s : State) : (complete c s).argLen = s.argLen := rfl
@[simp] theorem complete_argName (c : ResultCode) (s : State) : (complete c s).argName = s.argName := rfl
@[simp] theorem complete_timeout (c : ResultCode) (s : State) : (complete c s).timeout = s.timeout := rfl
@[simp] theorem complete_elapsed (c : ResultCode) (s : State) : (complete c s).elapsed = s.elapsed := rfl
@[simp] theorem complete_maxPayload (c : ResultCode) (s : State) : (complete c s).maxPayload = s.maxPayload := rfl
@[simp] theorem complete_frameDeadline (c : ResultCode) (s : State) : (complete c s).frameDeadline = s.frameDeadline := rfl
@[simp] theorem complete_txbuf (c : ResultCode) (s : State) : (complete c s).txbuf = s.txbuf := rfl
@[simp] theorem complete_rxbuf (c : ResultCode) (s : State) : (complete c s).rxbuf = s.rxbuf := rfl
@[simp] theorem complete_line (c : ResultCode) (s : State) : (complete c s).line = s.line := rfl
@[simp] theorem complete_sin (c : ResultCode) (s : State) : (complete c s).sin = s.sin := rfl
@[simp] theorem complete_din (c : ResultCode) (s : State) : (complete c s).din = s.din := rfl
@[simp] theorem complete_tx (c : ResultCode) (s : State) : (complete c s).tx = s.tx := rfl
@[simp] theorem complete_sout (c : ResultCode) (s : State) : (complete c s).sout = s.sout := rfl
@[simp] theorem complete_txReady (c : ResultCode) (s : State) : (complete c s).txReady = s.txReady := rfl
@[simp] theorem complete_soutWanted (c : ResultCode) (s : State) : (complete c s).soutWanted = s.soutWanted := rfl
@[simp] theorem complete_agenda (c : ResultCode) (s : State) : (complete c s).agenda = s.agenda := rfl
@[simp] theorem complete_seen (c : ResultCode) (s : State) : (complete c s).seen = s.seen := rfl

/-! ### `report` -/

@[simp] theorem report_opstate (c : ResultCode) (s : State) : (report c s).opstate = s.opstate := rfl
@[simp] theorem report_ckA (c : ResultCode) (s : State) : (report c s).ckA = s.ckA := rfl
@[simp] theorem report_ckB (c : ResultCode) (s : State) : (report c s).ckB = s.ckB := rfl
@[simp] theorem report_xacc (c : ResultCode) (s : State) : (report c s).xacc = s.xacc := rfl
@[simp] theorem report_cls (c : ResultCode) (s : State) : (report c s).cls = s.cls := rfl
@[simp] theorem report_id (c : ResultCode) (s : State) : (report c s).id = s.id := rfl
@[simp] theorem report_len (c : ResultCode) (s : State) : (report c s).len = s.len := rfl
@[simp] theorem report_cnt (c : ResultCode) (s : State) : (report c s).cnt = s.cnt := rfl
@[simp] theorem report_rckA (c : ResultCode) (s : State) : (report c s).rckA = s.rckA := rfl
@[simp] theorem report_rckB (c : ResultCode) (s : State) : (report c s).rckB = s.rckB := rfl
@[simp] theorem report_rxck (c : ResultCode) (s : State) : (report c s).rxck = s.rxck := rfl
@[simp] theorem report_msgCls (c : ResultCode) (s : State) : (report c s).msgCls = s.msgCls := rfl
@[simp] theorem report_msgId (c : ResultCode) (s : State) : (report c s).msgId = s.msgId := rfl
@[simp] theorem report_msgLen (c : ResultCode) (s : State) : (report c s).msgLen = s.msgLen := rfl
@[simp] theorem report_busy (c : ResultCode) (s : State) : (report c s).busy = s.busy := rfl
@[simp] theorem report_done (c : ResultCode) (s : State) : (report c s).done = true := rfl
@[simp] theorem report_msgValid (c : ResultCode) (s : State) : (report c s).msgValid = s.msgValid := rfl
@[simp] theorem report_feSync2 (c : ResultCode) (s : State) : (report c s).feSync2 = s.feSync2 := rfl
@[simp] theorem report_result (c : ResultCode) (s : State) : (report c s).result = resultCode c := rfl
@[simp] theorem report_argClsid (c : ResultCode) (s : State) : (report c s).argClsid = s.argClsid := rfl
@[simp] theorem report_argLen (c : ResultCode) (s : State) : (report c s).argLen = s.argLen := rfl
@[simp] theorem report_argName (c : ResultCode) (s : State) : (report c s).argName = s.argName := rfl
@[simp] theorem report_timeout (c : ResultCode) (s : State) : (report c s).timeout = s.timeout := rfl
@[simp] theorem report_elapsed (c : ResultCode) (s : State) : (report c s).elapsed = s.elapsed := rfl
@[simp] theorem report_maxPayload (c : ResultCode) (s : State) : (report c s).maxPayload = s.maxPayload := rfl
@[simp] theorem report_frameDeadline (c : ResultCode) (s : State) : (report c s).frameDeadline = s.frameDeadline := rfl
@[simp] theorem report_txbuf (c : ResultCode) (s : State) : (report c s).txbuf = s.txbuf := rfl
@[simp] theorem report_rxbuf (c : ResultCode) (s : State) : (report c s).rxbuf = s.rxbuf := rfl
@[simp] theorem report_line (c : ResultCode) (s : State) : (report c s).line = s.line := rfl
@[simp] theorem report_sin (c : ResultCode) (s : State) : (report c s).sin = s.sin := rfl
@[simp] theorem report_din (c : ResultCode) (s : State) : (report c s).din = s.din := rfl
@[simp] theorem report_tx (c : ResultCode) (s : State) : (report c s).tx = s.tx := rfl
@[simp] theorem report_sout (c : ResultCode) (s : State) : (report c s).sout = s.sout := rfl
@[simp] theorem report_txReady (c : ResultCode) (s : State) : (report c s).txReady = s.txReady := rfl
@[simp] theorem report_soutWanted (c : ResultCode) (s : State) : (report c s).soutWanted = s.soutWanted := rfl
@[simp] theorem report_agenda (c : ResultCode) (s : State) : (report c s).agenda = s.agenda := rfl
@[simp] theorem report_seen (c : ResultCode) (s : State) : (report c s).seen = s.seen := rfl

/-! ### `acceptCmd` -/

@[simp] theorem acceptCmd_opstate (s : State) : (acceptCmd s).opstate = s.opstate := rfl
@[simp] theorem acceptCmd_ckA (s : State) : (acceptCmd s).ckA = s.ckA := rfl
@[simp] theorem acceptCmd_ckB (s : State) : (acceptCmd s).ckB = s.ckB := rfl
@[simp] theorem acceptCmd_xacc (s : State) : (acceptCmd s).xacc = s.xacc := rfl
@[simp] theorem acceptCmd_cls (s : State) : (acceptCmd s).cls = s.cls := rfl
@[simp] theorem acceptCmd_id (s : State) : (acceptCmd s).id = s.id := rfl
@[simp] theorem acceptCmd_len (s : State) : (acceptCmd s).len = s.len := rfl
@[simp] theorem acceptCmd_cnt (s : State) : (acceptCmd s).cnt = s.cnt := rfl
@[simp] theorem acceptCmd_rckA (s : State) : (acceptCmd s).rckA = s.rckA := rfl
@[simp] theorem acceptCmd_rckB (s : State) : (acceptCmd s).rckB = s.rckB := rfl
@[simp] theorem acceptCmd_rxck (s : State) : (acceptCmd s).rxck = s.rxck := rfl
@[simp] theorem acceptCmd_msgCls (s : State) : (acceptCmd s).msgCls = s.msgCls := rfl
@[simp] theorem acceptCmd_msgId (s : State) : (acceptCmd s).msgId = s.msgId := rfl
@[simp] theorem acceptCmd_msgLen (s : State) : (acceptCmd s).msgLen = s.msgLen := rfl
@[simp] theorem acceptCmd_busy (s : State) : (acceptCmd s).busy = s.busy := rfl
@[simp] theorem acceptCmd_done (s : State) : (acceptCmd s).done = false := rfl
@[simp] theorem acceptCmd_msgValid (s : State) : (acceptCmd s).msgValid = s.msgValid := rfl
@[simp] theorem acceptCmd_feSync2 (s : State) : (acceptCmd s).feSync2 = s.feSync2 := rfl
@[simp] theorem acceptCmd_result (s : State) : (acceptCmd s).result = s.result := rfl
@[simp] theorem acceptCmd_argClsid (s : State) : (acceptCmd s).argClsid = s.argClsid := rfl
@[simp] theorem acceptCmd_argLen (s : State) : (acceptCmd s).argLen = s.argLen := rfl
@[simp] theorem acceptCmd_argName (s : State) : (acceptCmd s).argName = s.argName := rfl
@[simp] theorem acceptCmd_timeout (s : State) : (acceptCmd s).timeout = s.timeout := rfl
@[simp] theorem acceptCmd_elapsed (s : State) : (acceptCmd s).elapsed = s.elapsed := rfl
@[simp] theorem acceptCmd_maxPayload (s : State) : (acceptCmd s).maxPayload = s.maxPayload := rfl
@[simp] theorem acceptCmd_frameDeadline (s : State) : (acceptCmd s).frameDeadline = s.frameDeadline := rfl
@[simp] theorem acceptCmd_txbuf (s : State) : (acceptCmd s).txbuf = s.txbuf := rfl
@[simp] theorem acceptCmd_rxbuf (s : State) : (acceptCmd s).rxbuf = s.rxbuf := rfl
@[simp] theorem acceptCmd_line (s : State) : (acceptCmd s).line = s.line := rfl
@[simp] theorem acceptCmd_sin (s : State) : (acceptCmd s).sin = s.sin := rfl
@[simp] theorem acceptCmd_din (s : State) : (acceptCmd s).din = s.din := rfl
@[simp] theorem acceptCmd_tx (s : State) : (acceptCmd s).tx = s.tx := rfl
@[simp] theorem acceptCmd_sout (s : State) : (acceptCmd s).sout = s.sout := rfl
@[simp] theorem acceptCmd_txReady (s : State) : (acceptCmd s).txReady = s.txReady := rfl
@[simp] theorem acceptCmd_soutWanted (s : State) : (acceptCmd s).soutWanted = s.soutWanted := rfl
@[simp] theorem acceptCmd_agenda (s : State) : (acceptCmd s).agenda = s.agenda := rfl
@[simp] theorem acceptCmd_seen (s : State) : (acceptCmd s).seen = s.seen := rfl

/-! ### `beginOp` -/

@[simp] theorem beginOp_opstate (o : OpState) (s : State) : (beginOp o s).opstate = o := rfl
@[simp] theorem beginOp_ckA (o : OpState) (s : State) : (beginOp o s).ckA = s.ckA := rfl
@[simp] theorem beginOp_ckB (o : OpState) (s : State) : (beginOp o s).ckB = s.ckB := rfl
@[simp] theorem beginOp_xacc (o : OpState) (s : State) : (beginOp o s).xacc = s.xacc := rfl
@[simp] theorem beginOp_cls (o : OpState) (s : State) : (beginOp o s).cls = s.cls := rfl
@[simp] theorem beginOp_id (o : OpState) (s : State) : (beginOp o s).id = s.id := rfl
@[simp] theorem beginOp_len (o : OpState) (s : State) : (beginOp o s).len = s.len := rfl
@[simp] theorem beginOp_cnt (o : OpState) (s : State) : (beginOp o s).cnt = s.cnt := rfl
@[simp] theorem beginOp_rckA (o : OpState) (s : State) : (beginOp o s).rckA = s.rckA := rfl
@[simp] theorem beginOp_rckB (o : OpState) (s : State) : (beginOp o s).rckB = s.rckB := rfl
@[simp] theorem beginOp_rxck (o : OpState) (s : State) : (beginOp o s).rxck = s.rxck := rfl
@[simp] theorem beginOp_msgCls (o : OpState) (s : State) : (beginOp o s).msgCls = s.msgCls := rfl
@[simp] theorem beginOp_msgId (o : OpState) (s : State) : (beginOp o s).msgId = s.msgId := rfl
@[simp] theorem beginOp_msgLen (o : OpState) (s : State) : (beginOp o s).msgLen = s.msgLen := rfl
@[simp] theorem beginOp_busy (o : OpState) (s : State) : (beginOp o s).busy = true := rfl
@[simp] theorem beginOp_done (o : OpState) (s : State) : (beginOp o s).done = s.done := rfl
@[simp] theorem beginOp_msgValid (o : OpState) (s : State) : (beginOp o s).msgValid = s.msgValid := rfl
@[simp] theorem beginOp_feSync2 (o : OpState) (s : State) : (beginOp o s).feSync2 = s.feSync2 := rfl
@[simp] theorem beginOp_result (o : OpState) (s : State) : (beginOp o s).result = s.result := rfl
@[simp] theorem beginOp_argClsid (o : OpState) (s : State) : (beginOp o s).argClsid = s.argClsid := rfl
@[simp] theorem beginOp_argLen (o : OpState) (s : State) : (beginOp o s).argLen = s.argLen := rfl
@[simp] theorem beginOp_argName (o : OpState) (s : State) : (beginOp o s).argName = s.argName := rfl
@[simp] theorem beginOp_timeout (o : OpState) (s : State) : (beginOp o s).timeout = s.timeout := rfl
@[simp] theorem beginOp_elapsed (o : OpState) (s : State) : (beginOp o s).elapsed = s.elapsed := rfl
@[simp] theorem beginOp_maxPayload (o : OpState) (s : State) : (beginOp o s).maxPayload = s.maxPayload := rfl
@[simp] theorem beginOp_frameDeadline (o : OpState) (s : State) : (beginOp o s).frameDeadline = s.frameDeadline := rfl
@[simp] theorem beginOp_txbuf (o : OpState) (s : State) : (beginOp o s).txbuf = s.txbuf := rfl
@[simp] theorem beginOp_rxbuf (o : OpState) (s : State) : (beginOp o s).rxbuf = s.rxbuf := rfl
@[simp] theorem beginOp_line (o : OpState) (s : State) : (beginOp o s).line = s.line := rfl
@[simp] theorem beginOp_sin (o : OpState) (s : State) : (beginOp o s).sin = s.sin := rfl
@[simp] theorem beginOp_din (o : OpState) (s : State) : (beginOp o s).din = s.din := rfl
@[simp] theorem beginOp_tx (o : OpState) (s : State) : (beginOp o s).tx = s.tx := rfl
@[simp] theorem beginOp_sout (o : OpState) (s : State) : (beginOp o s).sout = s.sout := rfl
@[simp] theorem beginOp_txReady (o : OpState) (s : State) : (beginOp o s).txReady = s.txReady := rfl
@[simp] theorem beginOp_soutWanted (o : OpState) (s : State) : (beginOp o s).soutWanted = s.soutWanted := rfl
@[simp] theorem beginOp_agenda (o : OpState) (s : State) : (beginOp o s).agenda = s.agenda := rfl
@[simp] theorem beginOp_seen (o : OpState) (s : State) : (beginOp o s).seen = s.seen := rfl

/-! ### `goTo` -/

@[simp] theorem goTo_opstate (o : OpState) (s : State) : (goTo o s).opstate = o := rfl
@[simp] theorem goTo_ckA (o : OpState) (s : State) : (goTo o s).ckA = s.ckA := rfl
@[simp] theorem goTo_ckB (o : OpState) (s : State) : (goTo o s).ckB = s.ckB := rfl
@[simp] theorem goTo_xacc (o : OpState) (s : State) : (goTo o s).xacc = s.xacc := rfl
@[simp] theorem goTo_cls (o : OpState) (s : State) : (goTo o s).cls = s.cls := rfl
@[simp] theorem goTo_id (o : OpState) (s : State) : (goTo o s).id = s.id := rfl
@[simp] theorem goTo_len (o : OpState) (s : State) : (goTo o s).len = s.len := rfl
@[simp] theorem goTo_cnt (o : OpState) (s : State) : (goTo o s).cnt = s.cnt := rfl
@[simp] theorem goTo_rckA (o : OpState) (s : State) : (goTo o s).rckA = s.rckA := rfl
@[simp] theorem goTo_rckB (o : OpState) (s : State) : (goTo o s).rckB = s.rckB := rfl
@[simp] theorem goTo_rxck (o : OpState) (s : State) : (goTo o s).rxck = s.rxck := rfl
@[simp] theorem goTo_msgCls (o : OpState) (s : State) : (goTo o s).msgCls = s.msgCls := rfl
@[simp] theorem goTo_msgId (o : OpState) (s : State) : (goTo o s).msgId = s.msgId := rfl
@[simp] theorem goTo_msgLen (o : OpState) (s : State) : (goTo o s).msgLen = s.msgLen := rfl
@[simp] theorem goTo_busy (o : OpState) (s : State) : (goTo o s).busy = s.busy := rfl
@[simp] theorem goTo_done (o : OpState) (s : State) : (goTo o s).done = s.done := rfl
@[simp] theorem goTo_msgValid (o : OpState) (s : State) : (goTo o s).msgValid = s.msgValid := rfl
@[simp] theorem goTo_feSync2 (o : OpState) (s : State) : (goTo o s).feSync2 = s.feSync2 := rfl
@[simp] theorem goTo_result (o : OpState) (s : State) : (goTo o s).result = s.result := rfl
@[simp] theorem goTo_argClsid (o : OpState) (s : State) : (goTo o s).argClsid = s.argClsid := rfl
@[simp] theorem goTo_argLen (o : OpState) (s : State) : (goTo o s).argLen = s.argLen := rfl
@[simp] theorem goTo_argName (o : OpState) (s : State) : (goTo o s).argName = s.argName := rfl
@[simp] theorem goTo_timeout (o : OpState) (s : State) : (goTo o s).timeout = s.timeout := rfl
@[simp] theorem goTo_elapsed (o : OpState) (s : State) : (goTo o s).elapsed = s.elapsed := rfl
@[simp] theorem goTo_maxPayload (o : OpState) (s : State) : (goTo o s).maxPayload = s.maxPayload := rfl
@[simp] theorem goTo_frameDeadline (o : OpState) (s : State) : (goTo o s).frameDeadline = s.frameDeadline := rfl
@[simp] theorem goTo_txbuf (o : OpState) (s : State) : (goTo o s).txbuf = s.txbuf := rfl
@[simp] theorem goTo_rxbuf (o : OpState) (s : State) : (goTo o s).rxbuf = s.rxbuf := rfl
@[simp] theorem goTo_line (o : OpState) (s : State) : (goTo o s).line = s.line := rfl
@[simp] theorem goTo_sin (o : OpState) (s : State) : (goTo o s).sin = s.sin := rfl
@[simp] theorem goTo_din (o : OpState) (s : State) : (goTo o s).din = s.din := rfl
@[simp] theorem goTo_tx (o : OpState) (s : State) : (goTo o s).tx = s.tx := rfl
@[simp] theorem goTo_sout (o : OpState) (s : State) : (goTo o s).sout = s.sout := rfl
@[simp] theorem goTo_txReady (o : OpState) (s : State) : (goTo o s).txReady = s.txReady := rfl
@[simp] theorem goTo_soutWanted (o : OpState) (s : State) : (goTo o s).soutWanted = s.soutWanted := rfl
@[simp] theorem goTo_agenda (o : OpState) (s : State) : (goTo o s).agenda = s.agenda := rfl
@[simp] theorem goTo_seen (o : OpState) (s : State) : (goTo o s).seen = s.seen := rfl

/-! ### `emitTx` -/

@[simp] theorem emitTx_opstate (b : Byte) (s : State) : (emitTx b s).opstate = s.opstate := rfl
@[simp] theorem emitTx_ckA (b : Byte) (s : State) : (emitTx b s).ckA = s.ckA := rfl
@[simp] theorem emitTx_ckB (b : Byte) (s : State) : (emitTx b s).ckB = s.ckB := rfl
@[simp] theorem emitTx_xacc (b : Byte) (s : State) : (emitTx b s).xacc = s.xacc := rfl
@[simp] theorem emitTx_cls (b : Byte) (s : State) : (emitTx b s).cls = s.cls := rfl
@[simp] theorem emitTx_id (b : Byte) (s : State) : (emitTx b s).id = s.id := rfl
@[simp] theorem emitTx_len (b : Byte) (s : State) : (emitTx b s).len = s.len := rfl
@[simp] theorem emitTx_cnt (b : Byte) (s : State) : (emitTx b s).cnt = s.cnt := rfl
@[simp] theorem emitTx_rckA (b : Byte) (s : State) : (emitTx b s).rckA = s.rckA := rfl
@[simp] theorem emitTx_rckB (b : Byte) (s : State) : (emitTx b s).rckB = s.rckB := rfl
@[simp] theorem emitTx_rxck (b : Byte) (s : State) : (emitTx b s).rxck = s.rxck := rfl
@[simp] theorem emitTx_msgCls (b : Byte) (s : State) : (emitTx b s).msgCls = s.msgCls := rfl
@[simp] theorem emitTx_msgId (b : Byte) (s : State) : (emitTx b s).msgId = s.msgId := rfl
@[simp] theorem emitTx_msgLen (b : Byte) (s : State) : (emitTx b s).msgLen = s.msgLen := rfl
@[simp] theorem emitTx_busy (b : Byte) (s : State) : (emitTx b s).busy = s.busy := rfl
@[simp] theorem emitTx_done (b : Byte) (s : State) : (emitTx b s).done = s.done := rfl
@[simp] theorem emitTx_msgValid (b : Byte) (s : State) : (emitTx b s).msgValid = s.msgValid := rfl
@[simp] theorem emitTx_feSync2 (b : Byte) (s : State) : (emitTx b s).feSync2 = s.feSync2 := rfl
@[simp] theorem emitTx_result (b : Byte) (s : State) : (emitTx b s).result = s.result := rfl
@[simp] theorem emitTx_argClsid (b : Byte) (s : State) : (emitTx b s).argClsid = s.argClsid := rfl
@[simp] theorem emitTx_argLen (b : Byte) (s : State) : (emitTx b s).argLen = s.argLen := rfl
@[simp] theorem emitTx_argName (b : Byte) (s : State) : (emitTx b s).argName = s.argName := rfl
@[simp] theorem emitTx_timeout (b : Byte) (s : State) : (emitTx b s).timeout = s.timeout := rfl
@[simp] theorem emitTx_elapsed (b : Byte) (s : State) : (emitTx b s).elapsed = s.elapsed := rfl
@[simp] theorem emitTx_maxPayload (b : Byte) (s : State) : (emitTx b s).maxPayload = s.maxPayload := rfl
@[simp] theorem emitTx_frameDeadline (b : Byte) (s : State) : (emitTx b s).frameDeadline = s.frameDeadline := rfl
@[simp] theorem emitTx_txbuf (b : Byte) (s : State) : (emitTx b s).txbuf = s.txbuf := rfl
@[simp] theorem emitTx_rxbuf (b : Byte) (s : State) : (emitTx b s).rxbuf = s.rxbuf := rfl
@[simp] theorem emitTx_line (b : Byte) (s : State) : (emitTx b s).line = s.line := rfl
@[simp] theorem emitTx_sin (b : Byte) (s : State) : (emitTx b s).sin = s.sin := rfl
@[simp] theorem emitTx_din (b : Byte) (s : State) : (emitTx b s).din = s.din := rfl
@[simp] theorem emitTx_tx (b : Byte) (s : State) : (emitTx b s).tx = s.tx ++ [b] := rfl
@[simp] theorem emitTx_sout (b : Byte) (s : State) : (emitTx b s).sout = s.sout := rfl
@[simp] theorem emitTx_txReady (b : Byte) (s : State) : (emitTx b s).txReady = s.txReady := rfl
@[simp] theorem emitTx_soutWanted (b : Byte) (s : State) : (emitTx b s).soutWanted = s.soutWanted := rfl
@[simp] theorem emitTx_agenda (b : Byte) (s : State) : (emitTx b s).agenda = s.agenda := rfl
@[simp] theorem emitTx_seen (b : Byte) (s : State) : (emitTx b s).seen = s.seen := rfl

/-! ### `emitSout` -/

@[simp] theorem emitSout_opstate (y : Symbol) (s : State) : (emitSout y s).opstate = s.opstate := rfl
@[simp] theorem emitSout_ckA (y : Symbol) (s : State) : (emitSout y s).ckA = s.ckA := rfl
@[simp] theorem emitSout_ckB (y : Symbol) (s : State) : (emitSout y s).ckB = s.ckB := rfl
@[simp] theorem emitSout_xacc (y : Symbol) (s : State) : (emitSout y s).xacc = s.xacc := rfl
@[simp] theorem emitSout_cls (y : Symbol) (s : State) : (emitSout y s).cls = s.cls := rfl
@[simp] theorem emitSout_id (y : Symbol) (s : State) : (emitSout y s).id = s.id := rfl
@[simp] theorem emitSout_len (y : Symbol) (s : State) : (emitSout y s).len = s.len := rfl
@[simp] theorem emitSout_cnt (y : Symbol) (s : State) : (emitSout y s).cnt = s.cnt := rfl
@[simp] theorem emitSout_rckA (y : Symbol) (s : State) : (emitSout y s).rckA = s.rckA := rfl
@[simp] theorem emitSout_rckB (y : Symbol) (s : State) : (emitSout y s).rckB = s.rckB := rfl
@[simp] theorem emitSout_rxck (y : Symbol) (s : State) : (emitSout y s).rxck = s.rxck := rfl
@[simp] theorem emitSout_msgCls (y : Symbol) (s : State) : (emitSout y s).msgCls = s.msgCls := rfl
@[simp] theorem emitSout_msgId (y : Symbol) (s : State) : (emitSout y s).msgId = s.msgId := rfl
@[simp] theorem emitSout_msgLen (y : Symbol) (s : State) : (emitSout y s).msgLen = s.msgLen := rfl
@[simp] theorem emitSout_busy (y : Symbol) (s : State) : (emitSout y s).busy = s.busy := rfl
@[simp] theorem emitSout_done (y : Symbol) (s : State) : (emitSout y s).done = s.done := rfl
@[simp] theorem emitSout_msgValid (y : Symbol) (s : State) : (emitSout y s).msgValid = s.msgValid := rfl
@[simp] theorem emitSout_feSync2 (y : Symbol) (s : State) : (emitSout y s).feSync2 = s.feSync2 := rfl
@[simp] theorem emitSout_result (y : Symbol) (s : State) : (emitSout y s).result = s.result := rfl
@[simp] theorem emitSout_argClsid (y : Symbol) (s : State) : (emitSout y s).argClsid = s.argClsid := rfl
@[simp] theorem emitSout_argLen (y : Symbol) (s : State) : (emitSout y s).argLen = s.argLen := rfl
@[simp] theorem emitSout_argName (y : Symbol) (s : State) : (emitSout y s).argName = s.argName := rfl
@[simp] theorem emitSout_timeout (y : Symbol) (s : State) : (emitSout y s).timeout = s.timeout := rfl
@[simp] theorem emitSout_elapsed (y : Symbol) (s : State) : (emitSout y s).elapsed = s.elapsed := rfl
@[simp] theorem emitSout_maxPayload (y : Symbol) (s : State) : (emitSout y s).maxPayload = s.maxPayload := rfl
@[simp] theorem emitSout_frameDeadline (y : Symbol) (s : State) : (emitSout y s).frameDeadline = s.frameDeadline := rfl
@[simp] theorem emitSout_txbuf (y : Symbol) (s : State) : (emitSout y s).txbuf = s.txbuf := rfl
@[simp] theorem emitSout_rxbuf (y : Symbol) (s : State) : (emitSout y s).rxbuf = s.rxbuf := rfl
@[simp] theorem emitSout_line (y : Symbol) (s : State) : (emitSout y s).line = s.line := rfl
@[simp] theorem emitSout_sin (y : Symbol) (s : State) : (emitSout y s).sin = s.sin := rfl
@[simp] theorem emitSout_din (y : Symbol) (s : State) : (emitSout y s).din = s.din := rfl
@[simp] theorem emitSout_tx (y : Symbol) (s : State) : (emitSout y s).tx = s.tx := rfl
@[simp] theorem emitSout_sout (y : Symbol) (s : State) : (emitSout y s).sout = s.sout ++ [y] := rfl
@[simp] theorem emitSout_txReady (y : Symbol) (s : State) : (emitSout y s).txReady = s.txReady := rfl
@[simp] theorem emitSout_soutWanted (y : Symbol) (s : State) : (emitSout y s).soutWanted = s.soutWanted - 1 := rfl
@[simp] theorem emitSout_agenda (y : Symbol) (s : State) : (emitSout y s).agenda = s.agenda := rfl
@[simp] theorem emitSout_seen (y : Symbol) (s : State) : (emitSout y s).seen = s.seen := rfl

/-! ### `foldCk2` -/

@[simp] theorem foldCk2_opstate (x : Byte) (s : State) : (foldCk2 x s).opstate = s.opstate := rfl
@[simp] theorem foldCk2_ckA (x : Byte) (s : State) : (foldCk2 x s).ckA = (ck2Step (s.ckA, s.ckB) x).1 := rfl
@[simp] theorem foldCk2_ckB (x : Byte) (s : State) : (foldCk2 x s).ckB = (ck2Step (s.ckA, s.ckB) x).2 := rfl
@[simp] theorem foldCk2_xacc (x : Byte) (s : State) : (foldCk2 x s).xacc = s.xacc := rfl
@[simp] theorem foldCk2_cls (x : Byte) (s : State) : (foldCk2 x s).cls = s.cls := rfl
@[simp] theorem foldCk2_id (x : Byte) (s : State) : (foldCk2 x s).id = s.id := rfl
@[simp] theorem foldCk2_len (x : Byte) (s : State) : (foldCk2 x s).len = s.len := rfl
@[simp] theorem foldCk2_cnt (x : Byte) (s : State) : (foldCk2 x s).cnt = s.cnt := rfl
@[simp] theorem foldCk2_rckA (x : Byte) (s : State) : (foldCk2 x s).rckA = s.rckA := rfl
@[simp] theorem foldCk2_rckB (x : Byte) (s : State) : (foldCk2 x s).rckB = s.rckB := rfl
@[simp] theorem foldCk2_rxck (x : Byte) (s : State) : (foldCk2 x s).rxck = s.rxck := rfl
@[simp] theorem foldCk2_msgCls (x : Byte) (s : State) : (foldCk2 x s).msgCls = s.msgCls := rfl
@[simp] theorem foldCk2_msgId (x : Byte) (s : State) : (foldCk2 x s).msgId = s.msgId := rfl
@[simp] theorem foldCk2_msgLen (x : Byte) (s : State) : (foldCk2 x s).msgLen = s.msgLen := rfl
@[simp] theorem foldCk2_busy (x : Byte) (s : State) : (foldCk2 x s).busy = s.busy := rfl
@[simp] theorem foldCk2_done (x : Byte) (s : State) : (foldCk2 x s).done = s.done := rfl
@[simp] theorem foldCk2_msgValid (x : Byte) (s : State) : (foldCk2 x s).msgValid = s.msgValid := rfl
@[simp] theorem foldCk2_feSync2 (x : Byte) (s : State) : (foldCk2 x s).feSync2 = s.feSync2 := rfl
@[simp] theorem foldCk2_result (x : Byte) (s : State) : (foldCk2 x s).result = s.result := rfl
@[simp] theorem foldCk2_argClsid (x : Byte) (s : State) : (foldCk2 x s).argClsid = s.argClsid := rfl
@[simp] theorem foldCk2_argLen (x : Byte) (s : State) : (foldCk2 x s).argLen = s.argLen := rfl
@[simp] theorem foldCk2_argName (x : Byte) (s : State) : (foldCk2 x s).argName = s.argName := rfl
@[simp] theorem foldCk2_timeout (x : Byte) (s : State) : (foldCk2 x s).timeout = s.timeout := rfl
@[simp] theorem foldCk2_elapsed (x : Byte) (s : State) : (foldCk2 x s).elapsed = s.elapsed := rfl
@[simp] theorem foldCk2_maxPayload (x : Byte) (s : State) : (foldCk2 x s).maxPayload = s.maxPayload := rfl
@[simp] theorem foldCk2_frameDeadline (x : Byte) (s : State) : (foldCk2 x s).frameDeadline = s.frameDeadline := rfl
@[simp] theorem foldCk2_txbuf (x : Byte) (s : State) : (foldCk2 x s).txbuf = s.txbuf := rfl
@[simp] theorem foldCk2_rxbuf (x : Byte) (s : State) : (foldCk2 x s).rxbuf = s.rxbuf := rfl
@[simp] theorem foldCk2_line (x : Byte) (s : State) : (foldCk2 x s).line = s.line := rfl
@[simp] theorem foldCk2_sin (x : Byte) (s : State) : (foldCk2 x s).sin = s.sin := rfl
@[simp] theorem foldCk2_din (x : Byte) (s : State) : (foldCk2 x s).din = s.din := rfl
@[simp] theorem foldCk2_tx (x : Byte) (s : State) : (foldCk2 x s).tx = s.tx := rfl
@[simp] theorem foldCk2_sout (x : Byte) (s : State) : (foldCk2 x s).sout = s.sout := rfl
@[simp] theorem foldCk2_txReady (x : Byte) (s : State) : (foldCk2 x s).txReady = s.txReady := rfl
@[simp] theorem foldCk2_soutWanted (x : Byte) (s : State) : (foldCk2 x s).soutWanted = s.soutWanted := rfl
@[simp] theorem foldCk2_agenda (x : Byte) (s : State) : (foldCk2 x s).agenda = s.agenda := rfl
@[simp] theorem foldCk2_seen (x : Byte) (s : State) : (foldCk2 x s).seen = s.seen := rfl

/-! ### `foldXacc` -/

@[simp] theorem foldXacc_opstate (x : Byte) (s : State) : (foldXacc x s).opstate = s.opstate := rfl
@[simp] theorem foldXacc_ckA (x : Byte) (s : State) : (foldXacc x s).ckA = s.ckA := rfl
@[simp] theorem foldXacc_ckB (x : Byte) (s : State) : (foldXacc x s).ckB = s.ckB := rfl
@[simp] theorem foldXacc_xacc (x : Byte) (s : State) : (foldXacc x s).xacc = ckxStep s.xacc x := rfl
@[simp] theorem foldXacc_cls (x : Byte) (s : State) : (foldXacc x s).cls = s.cls := rfl
@[simp] theorem foldXacc_id (x : Byte) (s : State) : (foldXacc x s).id = s.id := rfl
@[simp] theorem foldXacc_len (x : Byte) (s : State) : (foldXacc x s).len = s.len := rfl
@[simp] theorem foldXacc_cnt (x : Byte) (s : State) : (foldXacc x s).cnt = s.cnt := rfl
@[simp] theorem foldXacc_rckA (x : Byte) (s : State) : (foldXacc x s).rckA = s.rckA := rfl
@[simp] theorem foldXacc_rckB (x : Byte) (s : State) : (foldXacc x s).rckB = s.rckB := rfl
@[simp] theorem foldXacc_rxck (x : Byte) (s : State) : (foldXacc x s).rxck = s.rxck := rfl
@[simp] theorem foldXacc_msgCls (x : Byte) (s : State) : (foldXacc x s).msgCls = s.msgCls := rfl
@[simp] theorem foldXacc_msgId (x : Byte) (s : State) : (foldXacc x s).msgId = s.msgId := rfl
@[simp] theorem foldXacc_msgLen (x : Byte) (s : State) : (foldXacc x s).msgLen = s.msgLen := rfl
@[simp] theorem foldXacc_busy (x : Byte) (s : State) : (foldXacc x s).busy = s.busy := rfl
@[simp] theorem foldXacc_done (x : Byte) (s : State) : (foldXacc x s).done = s.done := rfl
@[simp] theorem foldXacc_msgValid (x : Byte) (s : State) : (foldXacc x s).msgValid = s.msgValid := rfl
@[simp] theorem foldXacc_feSync2 (x : Byte) (s : State) : (foldXacc x s).feSync2 = s.feSync2 := rfl
@[simp] theorem foldXacc_result (x : Byte) (s : State) : (foldXacc x s).result = s.result := rfl
@[simp] theorem foldXacc_argClsid (x : Byte) (s : State) : (foldXacc x s).argClsid = s.argClsid := rfl
@[simp] theorem foldXacc_argLen (x : Byte) (s : State) : (foldXacc x s).argLen = s.argLen := rfl
@[simp] theorem foldXacc_argName (x : Byte) (s : State) : (foldXacc x s).argName = s.argName := rfl
@[simp] theorem foldXacc_timeout (x : Byte) (s : State) : (foldXacc x s).timeout = s.timeout := rfl
@[simp] theorem foldXacc_elapsed (x : Byte) (s : State) : (foldXacc x s).elapsed = s.elapsed := rfl
@[simp] theorem foldXacc_maxPayload (x : Byte) (s : State) : (foldXacc x s).maxPayload = s.maxPayload := rfl
@[simp] theorem foldXacc_frameDeadline (x : Byte) (s : State) : (foldXacc x s).frameDeadline = s.frameDeadline := rfl
@[simp] theorem foldXacc_txbuf (x : Byte) (s : State) : (foldXacc x s).txbuf = s.txbuf := rfl
@[simp] theorem foldXacc_rxbuf (x : Byte) (s : State) : (foldXacc x s).rxbuf = s.rxbuf := rfl
@[simp] theorem foldXacc_line (x : Byte) (s : State) : (foldXacc x s).line = s.line := rfl
@[simp] theorem foldXacc_sin (x : Byte) (s : State) : (foldXacc x s).sin = s.sin := rfl
@[simp] theorem foldXacc_din (x : Byte) (s : State) : (foldXacc x s).din = s.din := rfl
@[simp] theorem foldXacc_tx (x : Byte) (s : State) : (foldXacc x s).tx = s.tx := rfl
@[simp] theorem foldXacc_sout (x : Byte) (s : State) : (foldXacc x s).sout = s.sout := rfl
@[simp] theorem foldXacc_txReady (x : Byte) (s : State) : (foldXacc x s).txReady = s.txReady := rfl
@[simp] theorem foldXacc_soutWanted (x : Byte) (s : State) : (foldXacc x s).soutWanted = s.soutWanted := rfl
@[simp] theorem foldXacc_agenda (x : Byte) (s : State) : (foldXacc x s).agenda = s.agenda := rfl
@[simp] theorem foldXacc_seen (x : Byte) (s : State) : (foldXacc x s).seen = s.seen := rfl

/-! ### `prepend` -/

@[simp] theorem prepend_opstate (es : List Event) (s : State) : (prepend es s).opstate = s.opstate := rfl
@[simp] theorem prepend_ckA (es : List Event) (s : State) : (prepend es s).ckA = s.ckA := rfl
@[simp] theorem prepend_ckB (es : List Event) (s : State) : (prepend es s).ckB = s.ckB := rfl
@[simp] theorem prepend_xacc (es : List Event) (s : State) : (prepend es s).xacc = s.xacc := rfl
@[simp] theorem prepend_cls (es : List Event) (s : State) : (prepend es s).cls = s.cls := rfl
@[simp] theorem prepend_id (es : List Event) (s : State) : (prepend es s).id = s.id := rfl
@[simp] theorem prepend_len (es : List Event) (s : State) : (prepend es s).len = s.len := rfl
@[simp] theorem prepend_cnt (es : List Event) (s : State) : (prepend es s).cnt = s.cnt := rfl
@[simp] theorem prepend_rckA (es : List Event) (s : State) : (prepend es s).rckA = s.rckA := rfl
@[simp] theorem prepend_rckB (es : List Event) (s : State) : (prepend es s).rckB = s.rckB := rfl
@[simp] theorem prepend_rxck (es : List Event) (s : State) : (prepend es s).rxck = s.rxck := rfl
@[simp] theorem prepend_msgCls (es : List Event) (s : State) : (prepend es s).msgCls = s.msgCls := rfl
@[simp] theorem prepend_msgId (es : List Event) (s : State) : (prepend es s).msgId = s.msgId := rfl
@[simp] theorem prepend_msgLen (es : List Event) (s : State) : (prepend es s).msgLen = s.msgLen := rfl
@[simp] theorem prepend_busy (es : List Event) (s : State) : (prepend es s).busy = s.busy := rfl
@[simp] theorem prepend_done (es : List Event) (s : State) : (prepend es s).done = s.done := rfl
@[simp] theorem prepend_msgValid (es : List Event) (s : State) : (prepend es s).msgValid = s.msgValid := rfl
@[simp] theorem prepend_feSync2 (es : List Event) (s : State) : (prepend es s).feSync2 = s.feSync2 := rfl
@[simp] theorem prepend_result (es : List Event) (s : State) : (prepend es s).result = s.result := rfl
@[simp] theorem prepend_argClsid (es : List Event) (s : State) : (prepend es s).argClsid = s.argClsid := rfl
@[simp] theorem prepend_argLen (es : List Event) (s : State) : (prepend es s).argLen = s.argLen := rfl
@[simp] theorem prepend_argName (es : List Event) (s : State) : (prepend es s).argName = s.argName := rfl
@[simp] theorem prepend_timeout (es : List Event) (s : State) : (prepend es s).timeout = s.timeout := rfl
@[simp] theorem prepend_elapsed (es : List Event) (s : State) : (prepend es s).elapsed = s.elapsed := rfl
@[simp] theorem prepend_maxPayload (es : List Event) (s : State) : (prepend es s).maxPayload = s.maxPayload := rfl
@[simp] theorem prepend_frameDeadline (es : List Event) (s : State) : (prepend es s).frameDeadline = s.frameDeadline := rfl
@[simp] theorem prepend_txbuf (es : List Event) (s : State) : (prepend es s).txbuf = s.txbuf := rfl
@[simp] theorem prepend_rxbuf (es : List Event) (s : State) : (prepend es s).rxbuf = s.rxbuf := rfl
@[simp] theorem prepend_line (es : List Event) (s : State) : (prepend es s).line = s.line := rfl
@[simp] theorem prepend_sin (es : List Event) (s : State) : (prepend es s).sin = s.sin := rfl
@[simp] theorem prepend_din (es : List Event) (s : State) : (prepend es s).din = s.din := rfl
@[simp] theorem prepend_tx (es : List Event) (s : State) : (prepend es s).tx = s.tx := rfl
@[simp] theorem prepend_sout (es : List Event) (s : State) : (prepend es s).sout = s.sout := rfl
@[simp] theorem prepend_txReady (es : List Event) (s : State) : (prepend es s).txReady = s.txReady := rfl
@[simp] theorem prepend_soutWanted (es : List Event) (s : State) : (prepend es s).soutWanted = s.soutWanted := rfl
@[simp] theorem prepend_agenda (es : List Event) (s : State) : (prepend es s).agenda = es ++ s.agenda := rfl
@[simp] theorem prepend_seen (es : List Event) (s : State) : (prepend es s).seen = s.seen := rfl

/-! ### `setCk2` -/

@[simp] theorem setCk2_opstate (bs : List Byte) (s : State) : (setCk2 bs s).opstate = s.opstate := rfl
@[simp] theorem setCk2_ckA (bs : List Byte) (s : State) : (setCk2 bs s).ckA = (ck2 bs).1 := rfl
@[simp] theorem setCk2_ckB (bs : List Byte) (s : State) : (setCk2 bs s).ckB = (ck2 bs).2 := rfl
@[simp] theorem setCk2_xacc (bs : List Byte) (s : State) : (setCk2 bs s).xacc = s.xacc := rfl
@[simp] theorem setCk2_cls (bs : List Byte) (s : State) : (setCk2 bs s).cls = s.cls := rfl
@[simp] theorem setCk2_id (bs : List Byte) (s : State) : (setCk2 bs s).id = s.id := rfl
@[simp] theorem setCk2_len (bs : List Byte) (s : State) : (setCk2 bs s).len = s.len := rfl
@[simp] theorem setCk2_cnt (bs : List Byte) (s : State) : (setCk2 bs s).cnt = s.cnt := rfl
@[simp] theorem setCk2_rckA (bs : List Byte) (s : State) : (setCk2 bs s).rckA = s.rckA := rfl
@[simp] theorem setCk2_rckB (bs : List Byte) (s : State) : (setCk2 bs s).rckB = s.rckB := rfl
@[simp] theorem setCk2_rxck (bs : List Byte) (s : State) : (setCk2 bs s).rxck = s.rxck := rfl
@[simp] theorem setCk2_msgCls (bs : List Byte) (s : State) : (setCk2 bs s).msgCls = s.msgCls := rfl
@[simp] theorem setCk2_msgId (bs : List Byte) (s : State) : (setCk2 bs s).msgId = s.msgId := rfl
@[simp] theorem setCk2_msgLen (bs : List Byte) (s : State) : (setCk2 bs s).msgLen = s.msgLen := rfl
@[simp] theorem setCk2_busy (bs : List Byte) (s : State) : (setCk2 bs s).busy = s.busy := rfl
@[simp] theorem setCk2_done (bs : List Byte) (s : State) : (setCk2 bs s).done = s.done := rfl
@[simp] theorem setCk2_msgValid (bs : List Byte) (s : State) : (setCk2 bs s).msgValid = s.msgValid := rfl
@[simp] theorem setCk2_feSync2 (bs : List Byte) (s : State) : (setCk2 bs s).feSync2 = s.feSync2 := rfl
@[simp] theorem setCk2_result (bs : List Byte) (s : State) : (setCk2 bs s).result = s.result := rfl
@[simp] theorem setCk2_argClsid (bs : List Byte) (s : State) : (setCk2 bs s).argClsid = s.argClsid := rfl
@[simp] theorem setCk2_argLen (bs : List Byte) (s : State) : (setCk2 bs s).argLen = s.argLen := rfl
@[simp] theorem setCk2_argName (bs : List Byte) (s : State) : (setCk2 bs s).argName = s.argName := rfl
@[simp] theorem setCk2_timeout (bs : List Byte) (s : State) : (setCk2 bs s).timeout = s.timeout := rfl
@[simp] theorem setCk2_elapsed (bs : List Byte) (s : State) : (setCk2 bs s).elapsed = s.elapsed := rfl
@[simp] theorem setCk2_maxPayload (bs : List Byte) (s : State) : (setCk2 bs s).maxPayload = s.maxPayload := rfl
@[simp] theorem setCk2_frameDeadline (bs : List Byte) (s : State) : (setCk2 bs s).frameDeadline = s.frameDeadline := rfl
@[simp] theorem setCk2_txbuf (bs : List Byte) (s : State) : (setCk2 bs s).txbuf = s.txbuf := rfl
@[simp] theorem setCk2_rxbuf (bs : List Byte) (s : State) : (setCk2 bs s).rxbuf = s.rxbuf := rfl
@[simp] theorem setCk2_line (bs : List Byte) (s : State) : (setCk2 bs s).line = s.line := rfl
@[simp] theorem setCk2_sin (bs : List Byte) (s : State) : (setCk2 bs s).sin = s.sin := rfl
@[simp] theorem setCk2_din (bs : List Byte) (s : State) : (setCk2 bs s).din = s.din := rfl
@[simp] theorem setCk2_tx (bs : List Byte) (s : State) : (setCk2 bs s).tx = s.tx := rfl
@[simp] theorem setCk2_sout (bs : List Byte) (s : State) : (setCk2 bs s).sout = s.sout := rfl
@[simp] theorem setCk2_txReady (bs : List Byte) (s : State) : (setCk2 bs s).txReady = s.txReady := rfl
@[simp] theorem setCk2_soutWanted (bs : List Byte) (s : State) : (setCk2 bs s).soutWanted = s.soutWanted := rfl
@[simp] theorem setCk2_agenda (bs : List Byte) (s : State) : (setCk2 bs s).agenda = s.agenda := rfl
@[simp] theorem setCk2_seen (bs : List Byte) (s : State) : (setCk2 bs s).seen = s.seen := rfl

/-! ### `setCkx` -/

@[simp] theorem setCkx_opstate (bs : List Byte) (s : State) : (setCkx bs s).opstate = s.opstate := rfl
@[simp] theorem setCkx_ckA (bs : List Byte) (s : State) : (setCkx bs s).ckA = s.ckA := rfl
@[simp] theorem setCkx_ckB (bs : List Byte) (s : State) : (setCkx bs s).ckB = s.ckB := rfl
@[simp] theorem setCkx_xacc (bs : List Byte) (s : State) : (setCkx bs s).xacc = ckx bs := rfl
@[simp] theorem setCkx_cls (bs : List Byte) (s : State) : (setCkx bs s).cls = s.cls := rfl
@[simp] theorem setCkx_id (bs : List Byte) (s : State) : (setCkx bs s).id = s.id := rfl
@[simp] theorem setCkx_len (bs : List Byte) (s : State) : (setCkx bs s).len = s.len := rfl
@[simp] theorem setCkx_cnt (bs : List Byte) (s : State) : (setCkx bs s).cnt = s.cnt := rfl
@[simp] theorem setCkx_rckA (bs : List Byte) (s : State) : (setCkx bs s).rckA = s.rckA := rfl
@[simp] theorem setCkx_rckB (bs : List Byte) (s : State) : (setCkx bs s).rckB = s.rckB := rfl
@[simp] theorem setCkx_rxck (bs : List Byte) (s : State) : (setCkx bs s).rxck = s.rxck := rfl
@[simp] theorem setCkx_msgCls (bs : List Byte) (s : State) : (setCkx bs s).msgCls = s.msgCls := rfl
@[simp] theorem setCkx_msgId (bs : List Byte) (s : State) : (setCkx bs s).msgId = s.msgId := rfl
@[simp] theorem setCkx_msgLen (bs : List Byte) (s : State) : (setCkx bs s).msgLen = s.msgLen := rfl
@[simp] theorem setCkx_busy (bs : List Byte) (s : State) : (setCkx bs s).busy = s.busy := rfl
@[simp] theorem setCkx_done (bs : List Byte) (s : State) : (setCkx bs s).done = s.done := rfl
@[simp] theorem setCkx_msgValid (bs : List Byte) (s : State) : (setCkx bs s).msgValid = s.msgValid := rfl
@[simp] theorem setCkx_feSync2 (bs : List Byte) (s : State) : (setCkx bs s).feSync2 = s.feSync2 := rfl
@[simp] theorem setCkx_result (bs : List Byte) (s : State) : (setCkx bs s).result = s.result := rfl
@[simp] theorem setCkx_argClsid (bs : List Byte) (s : State) : (setCkx bs s).argClsid = s.argClsid := rfl
@[simp] theorem setCkx_argLen (bs : List Byte) (s : State) : (setCkx bs s).argLen = s.argLen := rfl
@[simp] theorem setCkx_argName (bs : List Byte) (s : State) : (setCkx bs s).argName = s.argName := rfl
@[simp] theorem setCkx_timeout (bs : List Byte) (s : State) : (setCkx bs s).timeout = s.timeout := rfl
@[simp] theorem setCkx_elapsed (bs : List Byte) (s : State) : (setCkx bs s).elapsed = s.elapsed := rfl
@[simp] theorem setCkx_maxPayload (bs : List Byte) (s : State) : (setCkx bs s).maxPayload = s.maxPayload := rfl
@[simp] theorem setCkx_frameDeadline (bs : List Byte) (s : State) : (setCkx bs s).frameDeadline = s.frameDeadline := rfl
@[simp] theorem setCkx_txbuf (bs : List Byte) (s : State) : (setCkx bs s).txbuf = s.txbuf := rfl
@[simp] theorem setCkx_rxbuf (bs : List Byte) (s : State) : (setCkx bs s).rxbuf = s.rxbuf := rfl
@[simp] theorem setCkx_line (bs : List Byte) (s : State) : (setCkx bs s).line = s.line := rfl
@[simp] theorem setCkx_sin (bs : List Byte) (s : State) : (setCkx bs s).sin = s.sin := rfl
@[simp] theorem setCkx_din (bs : List Byte) (s : State) : (setCkx bs s).din = s.din := rfl
@[simp] theorem setCkx_tx (bs : List Byte) (s : State) : (setCkx bs s).tx = s.tx := rfl
@[simp] theorem setCkx_sout (bs : List Byte) (s : State) : (setCkx bs s).sout = s.sout := rfl
@[simp] theorem setCkx_txReady (bs : List Byte) (s : State) : (setCkx bs s).txReady = s.txReady := rfl
@[simp] theorem setCkx_soutWanted (bs : List Byte) (s : State) : (setCkx bs s).soutWanted = s.soutWanted := rfl
@[simp] theorem setCkx_agenda (bs : List Byte) (s : State) : (setCkx bs s).agenda = s.agenda := rfl
@[simp] theorem setCkx_seen (bs : List Byte) (s : State) : (setCkx bs s).seen = s.seen := rfl

/-! ### `State.reset` -/

@[simp] theorem State.reset_opstate : State.reset.opstate = .idle := rfl
@[simp] theorem State.reset_ckA : State.reset.ckA = 0 := rfl
@[simp] theorem State.reset_ckB : State.reset.ckB = 0 := rfl
@[simp] theorem State.reset_xacc : State.reset.xacc = 0 := rfl
@[simp] theorem State.reset_cls : State.reset.cls = 0 := rfl
@[simp] theorem State.reset_id : State.reset.id = 0 := rfl
@[simp] theorem State.reset_len : State.reset.len = 0 := rfl
@[simp] theorem State.reset_cnt : State.reset.cnt = 0 := rfl
@[simp] theorem State.reset_rckA : State.reset.rckA = 0 := rfl
@[simp] theorem State.reset_rckB : State.reset.rckB = 0 := rfl
@[simp] theorem State.reset_rxck : State.reset.rxck = 0 := rfl
@[simp] theorem State.reset_msgCls : State.reset.msgCls = 0 := rfl
@[simp] theorem State.reset_msgId : State.reset.msgId = 0 := rfl
@[simp] theorem State.reset_msgLen : State.reset.msgLen = 0 := rfl
@[simp] theorem State.reset_busy : State.reset.busy = false := rfl
@[simp] theorem State.reset_done : State.reset.done = false := rfl
@[simp] theorem State.reset_msgValid : State.reset.msgValid = false := rfl
@[simp] theorem State.reset_feSync2 : State.reset.feSync2 = false := rfl
@[simp] theorem State.reset_result : State.reset.result = 0 := rfl
@[simp] theorem State.reset_argClsid : State.reset.argClsid = 0 := rfl
@[simp] theorem State.reset_argLen : State.reset.argLen = 0 := rfl
@[simp] theorem State.reset_argName : State.reset.argName = 0 := rfl
@[simp] theorem State.reset_timeout : State.reset.timeout = 0 := rfl
@[simp] theorem State.reset_elapsed : State.reset.elapsed = 0 := rfl
@[simp] theorem State.reset_maxPayload : State.reset.maxPayload = 32767 := rfl
@[simp] theorem State.reset_frameDeadline : State.reset.frameDeadline = false := rfl
@[simp] theorem State.reset_txbuf : State.reset.txbuf = [] := rfl
@[simp] theorem State.reset_rxbuf : State.reset.rxbuf = [] := rfl
@[simp] theorem State.reset_line : State.reset.line = [] := rfl
@[simp] theorem State.reset_sin : State.reset.sin = [] := rfl
@[simp] theorem State.reset_din : State.reset.din = [] := rfl
@[simp] theorem State.reset_tx : State.reset.tx = [] := rfl
@[simp] theorem State.reset_sout : State.reset.sout = [] := rfl
@[simp] theorem State.reset_txReady : State.reset.txReady = true := rfl
@[simp] theorem State.reset_soutWanted : State.reset.soutWanted = 0 := rfl
@[simp] theorem State.reset_agenda : State.reset.agenda = [] := rfl
@[simp] theorem State.reset_seen : State.reset.seen = [] := rfl

/-! ### `resetEvent` -/

@[simp] theorem resetEvent_opstate (s : State) : (resetEvent s).opstate = .idle := rfl
@[simp] theorem resetEvent_ckA (s : State) : (resetEvent s).ckA = 0 := rfl
@[simp] theorem resetEvent_ckB (s : State) : (resetEvent s).ckB = 0 := rfl
@[simp] theorem resetEvent_xacc (s : State) : (resetEvent s).xacc = 0 := rfl
@[simp] theorem resetEvent_cls (s : State) : (resetEvent s).cls = 0 := rfl
@[simp] theorem resetEvent_id (s : State) : (resetEvent s).id = 0 := rfl
@[simp] theorem resetEvent_len (s : State) : (resetEvent s).len = 0 := rfl
@[simp] theorem resetEvent_cnt (s : State) : (resetEvent s).cnt = 0 := rfl
@[simp] theorem resetEvent_rckA (s : State) : (resetEvent s).rckA = 0 := rfl
@[simp] theorem resetEvent_rckB (s : State) : (resetEvent s).rckB = 0 := rfl
@[simp] theorem resetEvent_rxck (s : State) : (resetEvent s).rxck = 0 := rfl
@[simp] theorem resetEvent_msgCls (s : State) : (resetEvent s).msgCls = 0 := rfl
@[simp] theorem resetEvent_msgId (s : State) : (resetEvent s).msgId = 0 := rfl
@[simp] theorem resetEvent_msgLen (s : State) : (resetEvent s).msgLen = 0 := rfl
@[simp] theorem resetEvent_busy (s : State) : (resetEvent s).busy = false := rfl
@[simp] theorem resetEvent_done (s : State) : (resetEvent s).done = false := rfl
@[simp] theorem resetEvent_msgValid (s : State) : (resetEvent s).msgValid = false := rfl
@[simp] theorem resetEvent_feSync2 (s : State) : (resetEvent s).feSync2 = false := rfl
@[simp] theorem resetEvent_result (s : State) : (resetEvent s).result = 0 := rfl
@[simp] theorem resetEvent_argClsid (s : State) : (resetEvent s).argClsid = 0 := rfl
@[simp] theorem resetEvent_argLen (s : State) : (resetEvent s).argLen = 0 := rfl
@[simp] theorem resetEvent_argName (s : State) : (resetEvent s).argName = 0 := rfl
@[simp] theorem resetEvent_timeout (s : State) : (resetEvent s).timeout = 0 := rfl
@[simp] theorem resetEvent_elapsed (s : State) : (resetEvent s).elapsed = 0 := rfl
@[simp] theorem resetEvent_maxPayload (s : State) : (resetEvent s).maxPayload = s.maxPayload := rfl
@[simp] theorem resetEvent_frameDeadline (s : State) : (resetEvent s).frameDeadline = s.frameDeadline := rfl
@[simp] theorem resetEvent_txbuf (s : State) : (resetEvent s).txbuf = [] := rfl
@[simp] theorem resetEvent_rxbuf (s : State) : (resetEvent s).rxbuf = [] := rfl
@[simp] theorem resetEvent_line (s : State) : (resetEvent s).line = s.line := rfl
@[simp] theorem resetEvent_sin (s : State) : (resetEvent s).sin = s.sin := rfl
@[simp] theorem resetEvent_din (s : State) : (resetEvent s).din = s.din := rfl
@[simp] theorem resetEvent_tx (s : State) : (resetEvent s).tx = s.tx := rfl
@[simp] theorem resetEvent_sout (s : State) : (resetEvent s).sout = s.sout := rfl
@[simp] theorem resetEvent_txReady (s : State) : (resetEvent s).txReady = s.txReady := rfl
@[simp] theorem resetEvent_soutWanted (s : State) : (resetEvent s).soutWanted = s.soutWanted := rfl
@[simp] theorem resetEvent_agenda (s : State) : (resetEvent s).agenda = s.agenda := rfl
@[simp] theorem resetEvent_seen (s : State) : (resetEvent s).seen = s.seen := rfl

/-! ### `tickEvent`: everything but `ELAPSED` stays (R213) -/

@[simp] theorem tickEvent_opstate (s : State) : (tickEvent s).opstate = s.opstate := by
  unfold tickEvent; split <;> rfl
@[simp] theorem tickEvent_ckA (s : State) : (tickEvent s).ckA = s.ckA := by
  unfold tickEvent; split <;> rfl
@[simp] theorem tickEvent_ckB (s : State) : (tickEvent s).ckB = s.ckB := by
  unfold tickEvent; split <;> rfl
@[simp] theorem tickEvent_xacc (s : State) : (tickEvent s).xacc = s.xacc := by
  unfold tickEvent; split <;> rfl
@[simp] theorem tickEvent_cls (s : State) : (tickEvent s).cls = s.cls := by
  unfold tickEvent; split <;> rfl
@[simp] theorem tickEvent_id (s : State) : (tickEvent s).id = s.id := by
  unfold tickEvent; split <;> rfl
@[simp] theorem tickEvent_len (s : State) : (tickEvent s).len = s.len := by
  unfold tickEvent; split <;> rfl
@[simp] theorem tickEvent_cnt (s : State) : (tickEvent s).cnt = s.cnt := by
  unfold tickEvent; split <;> rfl
@[simp] theorem tickEvent_rckA (s : State) : (tickEvent s).rckA = s.rckA := by
  unfold tickEvent; split <;> rfl
@[simp] theorem tickEvent_rckB (s : State) : (tickEvent s).rckB = s.rckB := by
  unfold tickEvent; split <;> rfl
@[simp] theorem tickEvent_rxck (s : State) : (tickEvent s).rxck = s.rxck := by
  unfold tickEvent; split <;> rfl
@[simp] theorem tickEvent_msgCls (s : State) : (tickEvent s).msgCls = s.msgCls := by
  unfold tickEvent; split <;> rfl
@[simp] theorem tickEvent_msgId (s : State) : (tickEvent s).msgId = s.msgId := by
  unfold tickEvent; split <;> rfl
@[simp] theorem tickEvent_msgLen (s : State) : (tickEvent s).msgLen = s.msgLen := by
  unfold tickEvent; split <;> rfl
@[simp] theorem tickEvent_busy (s : State) : (tickEvent s).busy = s.busy := by
  unfold tickEvent; split <;> rfl
@[simp] theorem tickEvent_done (s : State) : (tickEvent s).done = s.done := by
  unfold tickEvent; split <;> rfl
@[simp] theorem tickEvent_msgValid (s : State) : (tickEvent s).msgValid = s.msgValid := by
  unfold tickEvent; split <;> rfl
@[simp] theorem tickEvent_feSync2 (s : State) : (tickEvent s).feSync2 = s.feSync2 := by
  unfold tickEvent; split <;> rfl
@[simp] theorem tickEvent_result (s : State) : (tickEvent s).result = s.result := by
  unfold tickEvent; split <;> rfl
@[simp] theorem tickEvent_argClsid (s : State) : (tickEvent s).argClsid = s.argClsid := by
  unfold tickEvent; split <;> rfl
@[simp] theorem tickEvent_argLen (s : State) : (tickEvent s).argLen = s.argLen := by
  unfold tickEvent; split <;> rfl
@[simp] theorem tickEvent_argName (s : State) : (tickEvent s).argName = s.argName := by
  unfold tickEvent; split <;> rfl
@[simp] theorem tickEvent_timeout (s : State) : (tickEvent s).timeout = s.timeout := by
  unfold tickEvent; split <;> rfl
@[simp] theorem tickEvent_maxPayload (s : State) : (tickEvent s).maxPayload = s.maxPayload := by
  unfold tickEvent; split <;> rfl
@[simp] theorem tickEvent_frameDeadline (s : State) : (tickEvent s).frameDeadline = s.frameDeadline := by
  unfold tickEvent; split <;> rfl
@[simp] theorem tickEvent_txbuf (s : State) : (tickEvent s).txbuf = s.txbuf := by
  unfold tickEvent; split <;> rfl
@[simp] theorem tickEvent_rxbuf (s : State) : (tickEvent s).rxbuf = s.rxbuf := by
  unfold tickEvent; split <;> rfl
@[simp] theorem tickEvent_line (s : State) : (tickEvent s).line = s.line := by
  unfold tickEvent; split <;> rfl
@[simp] theorem tickEvent_sin (s : State) : (tickEvent s).sin = s.sin := by
  unfold tickEvent; split <;> rfl
@[simp] theorem tickEvent_din (s : State) : (tickEvent s).din = s.din := by
  unfold tickEvent; split <;> rfl
@[simp] theorem tickEvent_tx (s : State) : (tickEvent s).tx = s.tx := by
  unfold tickEvent; split <;> rfl
@[simp] theorem tickEvent_sout (s : State) : (tickEvent s).sout = s.sout := by
  unfold tickEvent; split <;> rfl
@[simp] theorem tickEvent_txReady (s : State) : (tickEvent s).txReady = s.txReady := by
  unfold tickEvent; split <;> rfl
@[simp] theorem tickEvent_soutWanted (s : State) : (tickEvent s).soutWanted = s.soutWanted := by
  unfold tickEvent; split <;> rfl
@[simp] theorem tickEvent_agenda (s : State) : (tickEvent s).agenda = s.agenda := by
  unfold tickEvent; split <;> rfl
@[simp] theorem tickEvent_seen (s : State) : (tickEvent s).seen = s.seen := by
  unfold tickEvent; split <;> rfl

/-! ### `writeReg`: everything but the four writable registers stays (R34, R46) -/

@[simp] theorem writeReg_opstate (r : Reg) (v : Word) (s : State) : (writeReg r v s).opstate = s.opstate := by
  unfold writeReg; split <;> cases r <;> rfl
@[simp] theorem writeReg_ckA (r : Reg) (v : Word) (s : State) : (writeReg r v s).ckA = s.ckA := by
  unfold writeReg; split <;> cases r <;> rfl
@[simp] theorem writeReg_ckB (r : Reg) (v : Word) (s : State) : (writeReg r v s).ckB = s.ckB := by
  unfold writeReg; split <;> cases r <;> rfl
@[simp] theorem writeReg_xacc (r : Reg) (v : Word) (s : State) : (writeReg r v s).xacc = s.xacc := by
  unfold writeReg; split <;> cases r <;> rfl
@[simp] theorem writeReg_cls (r : Reg) (v : Word) (s : State) : (writeReg r v s).cls = s.cls := by
  unfold writeReg; split <;> cases r <;> rfl
@[simp] theorem writeReg_id (r : Reg) (v : Word) (s : State) : (writeReg r v s).id = s.id := by
  unfold writeReg; split <;> cases r <;> rfl
@[simp] theorem writeReg_len (r : Reg) (v : Word) (s : State) : (writeReg r v s).len = s.len := by
  unfold writeReg; split <;> cases r <;> rfl
@[simp] theorem writeReg_cnt (r : Reg) (v : Word) (s : State) : (writeReg r v s).cnt = s.cnt := by
  unfold writeReg; split <;> cases r <;> rfl
@[simp] theorem writeReg_rckA (r : Reg) (v : Word) (s : State) : (writeReg r v s).rckA = s.rckA := by
  unfold writeReg; split <;> cases r <;> rfl
@[simp] theorem writeReg_rckB (r : Reg) (v : Word) (s : State) : (writeReg r v s).rckB = s.rckB := by
  unfold writeReg; split <;> cases r <;> rfl
@[simp] theorem writeReg_rxck (r : Reg) (v : Word) (s : State) : (writeReg r v s).rxck = s.rxck := by
  unfold writeReg; split <;> cases r <;> rfl
@[simp] theorem writeReg_msgCls (r : Reg) (v : Word) (s : State) : (writeReg r v s).msgCls = s.msgCls := by
  unfold writeReg; split <;> cases r <;> rfl
@[simp] theorem writeReg_msgId (r : Reg) (v : Word) (s : State) : (writeReg r v s).msgId = s.msgId := by
  unfold writeReg; split <;> cases r <;> rfl
@[simp] theorem writeReg_msgLen (r : Reg) (v : Word) (s : State) : (writeReg r v s).msgLen = s.msgLen := by
  unfold writeReg; split <;> cases r <;> rfl
@[simp] theorem writeReg_busy (r : Reg) (v : Word) (s : State) : (writeReg r v s).busy = s.busy := by
  unfold writeReg; split <;> cases r <;> rfl
@[simp] theorem writeReg_done (r : Reg) (v : Word) (s : State) : (writeReg r v s).done = s.done := by
  unfold writeReg; split <;> cases r <;> rfl
@[simp] theorem writeReg_msgValid (r : Reg) (v : Word) (s : State) : (writeReg r v s).msgValid = s.msgValid := by
  unfold writeReg; split <;> cases r <;> rfl
@[simp] theorem writeReg_feSync2 (r : Reg) (v : Word) (s : State) : (writeReg r v s).feSync2 = s.feSync2 := by
  unfold writeReg; split <;> cases r <;> rfl
@[simp] theorem writeReg_result (r : Reg) (v : Word) (s : State) : (writeReg r v s).result = s.result := by
  unfold writeReg; split <;> cases r <;> rfl
@[simp] theorem writeReg_elapsed (r : Reg) (v : Word) (s : State) : (writeReg r v s).elapsed = s.elapsed := by
  unfold writeReg; split <;> cases r <;> rfl
@[simp] theorem writeReg_maxPayload (r : Reg) (v : Word) (s : State) : (writeReg r v s).maxPayload = s.maxPayload := by
  unfold writeReg; split <;> cases r <;> rfl
@[simp] theorem writeReg_frameDeadline (r : Reg) (v : Word) (s : State) : (writeReg r v s).frameDeadline = s.frameDeadline := by
  unfold writeReg; split <;> cases r <;> rfl
@[simp] theorem writeReg_txbuf (r : Reg) (v : Word) (s : State) : (writeReg r v s).txbuf = s.txbuf := by
  unfold writeReg; split <;> cases r <;> rfl
@[simp] theorem writeReg_rxbuf (r : Reg) (v : Word) (s : State) : (writeReg r v s).rxbuf = s.rxbuf := by
  unfold writeReg; split <;> cases r <;> rfl
@[simp] theorem writeReg_line (r : Reg) (v : Word) (s : State) : (writeReg r v s).line = s.line := by
  unfold writeReg; split <;> cases r <;> rfl
@[simp] theorem writeReg_sin (r : Reg) (v : Word) (s : State) : (writeReg r v s).sin = s.sin := by
  unfold writeReg; split <;> cases r <;> rfl
@[simp] theorem writeReg_din (r : Reg) (v : Word) (s : State) : (writeReg r v s).din = s.din := by
  unfold writeReg; split <;> cases r <;> rfl
@[simp] theorem writeReg_tx (r : Reg) (v : Word) (s : State) : (writeReg r v s).tx = s.tx := by
  unfold writeReg; split <;> cases r <;> rfl
@[simp] theorem writeReg_sout (r : Reg) (v : Word) (s : State) : (writeReg r v s).sout = s.sout := by
  unfold writeReg; split <;> cases r <;> rfl
@[simp] theorem writeReg_txReady (r : Reg) (v : Word) (s : State) : (writeReg r v s).txReady = s.txReady := by
  unfold writeReg; split <;> cases r <;> rfl
@[simp] theorem writeReg_soutWanted (r : Reg) (v : Word) (s : State) : (writeReg r v s).soutWanted = s.soutWanted := by
  unfold writeReg; split <;> cases r <;> rfl
@[simp] theorem writeReg_agenda (r : Reg) (v : Word) (s : State) : (writeReg r v s).agenda = s.agenda := by
  unfold writeReg; split <;> cases r <;> rfl
@[simp] theorem writeReg_seen (r : Reg) (v : Word) (s : State) : (writeReg r v s).seen = s.seen := by
  unfold writeReg; split <;> cases r <;> rfl

/-! ### `arriveBytes` -/

@[simp] theorem arriveBytes_opstate (bs : List Byte) (s : State) : (arriveBytes bs s).opstate = s.opstate := rfl
@[simp] theorem arriveBytes_ckA (bs : List Byte) (s : State) : (arriveBytes bs s).ckA = s.ckA := rfl
@[simp] theorem arriveBytes_ckB (bs : List Byte) (s : State) : (arriveBytes bs s).ckB = s.ckB := rfl
@[simp] theorem arriveBytes_xacc (bs : List Byte) (s : State) : (arriveBytes bs s).xacc = s.xacc := rfl
@[simp] theorem arriveBytes_cls (bs : List Byte) (s : State) : (arriveBytes bs s).cls = s.cls := rfl
@[simp] theorem arriveBytes_id (bs : List Byte) (s : State) : (arriveBytes bs s).id = s.id := rfl
@[simp] theorem arriveBytes_len (bs : List Byte) (s : State) : (arriveBytes bs s).len = s.len := rfl
@[simp] theorem arriveBytes_cnt (bs : List Byte) (s : State) : (arriveBytes bs s).cnt = s.cnt := rfl
@[simp] theorem arriveBytes_rckA (bs : List Byte) (s : State) : (arriveBytes bs s).rckA = s.rckA := rfl
@[simp] theorem arriveBytes_rckB (bs : List Byte) (s : State) : (arriveBytes bs s).rckB = s.rckB := rfl
@[simp] theorem arriveBytes_rxck (bs : List Byte) (s : State) : (arriveBytes bs s).rxck = s.rxck := rfl
@[simp] theorem arriveBytes_msgCls (bs : List Byte) (s : State) : (arriveBytes bs s).msgCls = s.msgCls := rfl
@[simp] theorem arriveBytes_msgId (bs : List Byte) (s : State) : (arriveBytes bs s).msgId = s.msgId := rfl
@[simp] theorem arriveBytes_msgLen (bs : List Byte) (s : State) : (arriveBytes bs s).msgLen = s.msgLen := rfl
@[simp] theorem arriveBytes_busy (bs : List Byte) (s : State) : (arriveBytes bs s).busy = s.busy := rfl
@[simp] theorem arriveBytes_done (bs : List Byte) (s : State) : (arriveBytes bs s).done = s.done := rfl
@[simp] theorem arriveBytes_msgValid (bs : List Byte) (s : State) : (arriveBytes bs s).msgValid = s.msgValid := rfl
@[simp] theorem arriveBytes_feSync2 (bs : List Byte) (s : State) : (arriveBytes bs s).feSync2 = s.feSync2 := rfl
@[simp] theorem arriveBytes_result (bs : List Byte) (s : State) : (arriveBytes bs s).result = s.result := rfl
@[simp] theorem arriveBytes_argClsid (bs : List Byte) (s : State) : (arriveBytes bs s).argClsid = s.argClsid := rfl
@[simp] theorem arriveBytes_argLen (bs : List Byte) (s : State) : (arriveBytes bs s).argLen = s.argLen := rfl
@[simp] theorem arriveBytes_argName (bs : List Byte) (s : State) : (arriveBytes bs s).argName = s.argName := rfl
@[simp] theorem arriveBytes_timeout (bs : List Byte) (s : State) : (arriveBytes bs s).timeout = s.timeout := rfl
@[simp] theorem arriveBytes_elapsed (bs : List Byte) (s : State) : (arriveBytes bs s).elapsed = s.elapsed := rfl
@[simp] theorem arriveBytes_maxPayload (bs : List Byte) (s : State) : (arriveBytes bs s).maxPayload = s.maxPayload := rfl
@[simp] theorem arriveBytes_frameDeadline (bs : List Byte) (s : State) : (arriveBytes bs s).frameDeadline = s.frameDeadline := rfl
@[simp] theorem arriveBytes_txbuf (bs : List Byte) (s : State) : (arriveBytes bs s).txbuf = s.txbuf := rfl
@[simp] theorem arriveBytes_rxbuf (bs : List Byte) (s : State) : (arriveBytes bs s).rxbuf = s.rxbuf := rfl
@[simp] theorem arriveBytes_line (bs : List Byte) (s : State) : (arriveBytes bs s).line = s.line ++ answers bs := rfl
@[simp] theorem arriveBytes_sin (bs : List Byte) (s : State) : (arriveBytes bs s).sin = s.sin := rfl
@[simp] theorem arriveBytes_din (bs : List Byte) (s : State) : (arriveBytes bs s).din = s.din := rfl
@[simp] theorem arriveBytes_tx (bs : List Byte) (s : State) : (arriveBytes bs s).tx = s.tx := rfl
@[simp] theorem arriveBytes_sout (bs : List Byte) (s : State) : (arriveBytes bs s).sout = s.sout := rfl
@[simp] theorem arriveBytes_txReady (bs : List Byte) (s : State) : (arriveBytes bs s).txReady = s.txReady := rfl
@[simp] theorem arriveBytes_soutWanted (bs : List Byte) (s : State) : (arriveBytes bs s).soutWanted = s.soutWanted := rfl
@[simp] theorem arriveBytes_agenda (bs : List Byte) (s : State) : (arriveBytes bs s).agenda = s.agenda := rfl
@[simp] theorem arriveBytes_seen (bs : List Byte) (s : State) : (arriveBytes bs s).seen = s.seen := rfl

/-! ### `offerBytes` -/

@[simp] theorem offerBytes_opstate (bs : List Byte) (s : State) : (offerBytes bs s).opstate = s.opstate := rfl
@[simp] theorem offerBytes_ckA (bs : List Byte) (s : State) : (offerBytes bs s).ckA = s.ckA := rfl
@[simp] theorem offerBytes_ckB (bs : List Byte) (s : State) : (offerBytes bs s).ckB = s.ckB := rfl
@[simp] theorem offerBytes_xacc (bs : List Byte) (s : State) : (offerBytes bs s).xacc = s.xacc := rfl
@[simp] theorem offerBytes_cls (bs : List Byte) (s : State) : (offerBytes bs s).cls = s.cls := rfl
@[simp] theorem offerBytes_id (bs : List Byte) (s : State) : (offerBytes bs s).id = s.id := rfl
@[simp] theorem offerBytes_len (bs : List Byte) (s : State) : (offerBytes bs s).len = s.len := rfl
@[simp] theorem offerBytes_cnt (bs : List Byte) (s : State) : (offerBytes bs s).cnt = s.cnt := rfl
@[simp] theorem offerBytes_rckA (bs : List Byte) (s : State) : (offerBytes bs s).rckA = s.rckA := rfl
@[simp] theorem offerBytes_rckB (bs : List Byte) (s : State) : (offerBytes bs s).rckB = s.rckB := rfl
@[simp] theorem offerBytes_rxck (bs : List Byte) (s : State) : (offerBytes bs s).rxck = s.rxck := rfl
@[simp] theorem offerBytes_msgCls (bs : List Byte) (s : State) : (offerBytes bs s).msgCls = s.msgCls := rfl
@[simp] theorem offerBytes_msgId (bs : List Byte) (s : State) : (offerBytes bs s).msgId = s.msgId := rfl
@[simp] theorem offerBytes_msgLen (bs : List Byte) (s : State) : (offerBytes bs s).msgLen = s.msgLen := rfl
@[simp] theorem offerBytes_busy (bs : List Byte) (s : State) : (offerBytes bs s).busy = s.busy := rfl
@[simp] theorem offerBytes_done (bs : List Byte) (s : State) : (offerBytes bs s).done = s.done := rfl
@[simp] theorem offerBytes_msgValid (bs : List Byte) (s : State) : (offerBytes bs s).msgValid = s.msgValid := rfl
@[simp] theorem offerBytes_feSync2 (bs : List Byte) (s : State) : (offerBytes bs s).feSync2 = s.feSync2 := rfl
@[simp] theorem offerBytes_result (bs : List Byte) (s : State) : (offerBytes bs s).result = s.result := rfl
@[simp] theorem offerBytes_argClsid (bs : List Byte) (s : State) : (offerBytes bs s).argClsid = s.argClsid := rfl
@[simp] theorem offerBytes_argLen (bs : List Byte) (s : State) : (offerBytes bs s).argLen = s.argLen := rfl
@[simp] theorem offerBytes_argName (bs : List Byte) (s : State) : (offerBytes bs s).argName = s.argName := rfl
@[simp] theorem offerBytes_timeout (bs : List Byte) (s : State) : (offerBytes bs s).timeout = s.timeout := rfl
@[simp] theorem offerBytes_elapsed (bs : List Byte) (s : State) : (offerBytes bs s).elapsed = s.elapsed := rfl
@[simp] theorem offerBytes_maxPayload (bs : List Byte) (s : State) : (offerBytes bs s).maxPayload = s.maxPayload := rfl
@[simp] theorem offerBytes_frameDeadline (bs : List Byte) (s : State) : (offerBytes bs s).frameDeadline = s.frameDeadline := rfl
@[simp] theorem offerBytes_txbuf (bs : List Byte) (s : State) : (offerBytes bs s).txbuf = s.txbuf := rfl
@[simp] theorem offerBytes_rxbuf (bs : List Byte) (s : State) : (offerBytes bs s).rxbuf = s.rxbuf := rfl
@[simp] theorem offerBytes_line (bs : List Byte) (s : State) : (offerBytes bs s).line = s.line := rfl
@[simp] theorem offerBytes_sin (bs : List Byte) (s : State) : (offerBytes bs s).sin = s.sin := rfl
@[simp] theorem offerBytes_din (bs : List Byte) (s : State) : (offerBytes bs s).din = s.din ++ bs := rfl
@[simp] theorem offerBytes_tx (bs : List Byte) (s : State) : (offerBytes bs s).tx = s.tx := rfl
@[simp] theorem offerBytes_sout (bs : List Byte) (s : State) : (offerBytes bs s).sout = s.sout := rfl
@[simp] theorem offerBytes_txReady (bs : List Byte) (s : State) : (offerBytes bs s).txReady = s.txReady := rfl
@[simp] theorem offerBytes_soutWanted (bs : List Byte) (s : State) : (offerBytes bs s).soutWanted = s.soutWanted := rfl
@[simp] theorem offerBytes_agenda (bs : List Byte) (s : State) : (offerBytes bs s).agenda = s.agenda := rfl
@[simp] theorem offerBytes_seen (bs : List Byte) (s : State) : (offerBytes bs s).seen = s.seen := rfl

end Sys2Proof.Machine
end

