-- ==== Sys2Proof/Laws/Ops.lean ====
section
/-! SUPPORT. One lemma for each shared operation that says everything it can do. -/

namespace Sys2Proof.Machine

/-! ### Commands -/

/-- A command that meets a busy block is ignored (R35). -/
theorem onCmd_busy (f : State → Result) (s : State) (h : s.busy = true) : onCmd f s = .next s := by
  simp [onCmd, h]

/-- A command that meets an idle block is accepted, `DONE` cleared first (R32, R35). -/
theorem onCmd_idle (f : State → Result) (s : State) (h : s.busy = false) : onCmd f s = f (acceptCmd s) := by
  simp [onCmd, h]

/-- What a command can answer. -/
theorem onCmd_next (f : State → Result) (s s' : State) (h : onCmd f s = .next s') :
    (s.busy = true ∧ s' = s) ∨ (s.busy = false ∧ f (acceptCmd s) = .next s') := by
  unfold onCmd at h
  split at h
  · exact .inl ⟨‹_›, by cases h; rfl⟩
  · exact .inr ⟨by simp_all, h⟩

/-- What the checksum commands can answer. -/
theorem foldTxbuf_next (k : List Byte → State → State) (s s' : State) (h : foldTxbuf k s = .next s') :
    (Config.pbufBytes < s.argLen.toNat ∧ s' = report .errPayloadTooLarge s) ∨
    (s.argLen.toNat ≤ Config.pbufBytes ∧
      ∃ bs, s.txbuf.readFrom 0 s.argLen.toNat = .ok bs ∧ s' = report .resOk (k bs s)) := by
  unfold foldTxbuf at h
  split at h
  · exact .inl ⟨‹_›, by cases h; rfl⟩
  · split at h
    · cases h
    · rename_i bs hbs; exact .inr ⟨by omega, bs, hbs, by cases h; rfl⟩

/-! ### Steps that emit -/

theorem txStep_ready (b : Byte) (f : State → State) (s : State) (h : s.txReady = true) :
    txStep b f s = .next (emitTx b (f s)) := by simp [txStep, h]

theorem txStep_wait (b : Byte) (f : State → State) (s : State) (h : s.txReady = false) :
    txStep b f s = .next s := by simp [txStep, h]

/-- What a step that emits a byte can answer. -/
theorem txStep_next (b : Byte) (f : State → State) (s s' : State) (h : txStep b f s = .next s') :
    (s.txReady = true ∧ s' = emitTx b (f s)) ∨ (s.txReady = false ∧ s' = s) := by
  unfold txStep at h
  split at h
  · exact .inl ⟨‹_›, by cases h; rfl⟩
  · exact .inr ⟨by simp_all, by cases h; rfl⟩

/-- What a decoder step that emits a symbol can answer. -/
theorem dinEmit_next (y : Symbol) (f : State → State) (t w s' : State) (h : dinEmit y f t w = .next s') :
    (0 < w.soutWanted ∧ s' = emitSout y (f t)) ∨ (w.soutWanted = 0 ∧ s' = w) := by
  unfold dinEmit at h
  split at h
  · exact .inl ⟨‹_›, by cases h; rfl⟩
  · exact .inr ⟨by omega, by cases h; rfl⟩

/-! ### The receiver -/

/-- The common tests of the mid-frame states (R234, R236). -/
theorem midFrame_next (f : Byte → State → Result) (r : Option Byte) (s s' : State) (h : midFrame f r s = .next s') :
    (deadlinePassed s = true ∧ s' = complete .resNoMessage s) ∨
    (deadlinePassed s = false ∧ r = none ∧ s' = complete .errTransport s) ∨
    (deadlinePassed s = false ∧ ∃ b, r = some b ∧ f b s = .next s') := by
  unfold midFrame at h
  split at h
  · exact .inl ⟨‹_›, by cases h; rfl⟩
  · split at h
    · exact .inr (.inl ⟨by simp_all, rfl, by cases h; rfl⟩)
    · exact .inr (.inr ⟨by simp_all, _, rfl, h⟩)

theorem midFrame_byte (f : Byte → State → Result) (b : Byte) (s : State) (h : deadlinePassed s = false) :
    midFrame f (some b) s = f b s := by simp [midFrame, h]

/-- What is taken from the line (R70, R213, R240). -/
theorem onLine_next (f : Option Byte → State → Result) (s s' : State) (h : onLine f s = .next s') :
    (s.line = [] ∧ s' = s) ∨
    (∃ rest, s.line = .tick :: rest ∧ s' = tickEvent { s with line := rest }) ∨
    (∃ r rest, s.line = .rx r :: rest ∧ f r { s with line := rest } = .next s') := by
  unfold onLine at h
  split at h
  · exact .inl ⟨‹_›, by cases h; rfl⟩
  · exact .inr (.inl ⟨_, ‹_›, by cases h; rfl⟩)
  · exact .inr (.inr ⟨_, _, ‹_›, h⟩)

/-- What is taken from `DIN` (R77, R279). -/
theorem onDin_next (f : Byte → State → State → Result) (s s' : State) (h : onDin f s = .next s') :
    (s.din = [] ∧ s' = s) ∨ (∃ b rest, s.din = b :: rest ∧ f b { s with din := rest } s = .next s') := by
  unfold onDin at h
  split at h
  · exact .inl ⟨‹_›, by cases h; rfl⟩
  · exact .inr ⟨_, _, ‹_›, h⟩

/-- An answer at the head of the line goes to the state's rule (R70). -/
theorem onLine_rx (f : Option Byte → State → Result) (s : State) (r : Option Byte) (rest : List LineEvent)
    (h : s.line = .rx r :: rest) : onLine f s = f r { s with line := rest } := by
  unfold onLine; split <;> simp_all

/-- A tick at the head of the line counts (R213). -/
theorem onLine_tick (f : Option Byte → State → Result) (s : State) (rest : List LineEvent)
    (h : s.line = .tick :: rest) : onLine f s = .next (tickEvent { s with line := rest }) := by
  unfold onLine; split <;> simp_all

/-- With nothing on the line the receiver waits (R240). -/
theorem onLine_nil (f : Option Byte → State → Result) (s : State) (h : s.line = []) : onLine f s = .next s := by
  unfold onLine; split <;> simp_all

/-- The next byte of `DIN` goes to the state's rule (R77). -/
theorem onDin_cons (f : Byte → State → State → Result) (s : State) (b : Byte) (rest : List Byte)
    (h : s.din = b :: rest) : onDin f s = f b { s with din := rest } s := by
  unfold onDin; split <;> simp_all

/-- Without a byte the decoder waits (R279). -/
theorem onDin_nil (f : Byte → State → State → Result) (s : State) (h : s.din = []) : onDin f s = .next s := by
  unfold onDin; split <;> simp_all

/-! ### The tick -/

/-- Outside the receiver states a tick changes nothing (R213). -/
theorem tickEvent_idle (s : State) (h : s.opstate.isReceiver = false) : tickEvent s = s := by
  simp [tickEvent, h]

/-- In a receiver state a tick counts, saturating (R213). -/
theorem tickEvent_receiver (s : State) (h : s.opstate.isReceiver = true) :
    tickEvent s = { s with elapsed := if s.elapsed = 0xFFFFFFFF then s.elapsed else s.elapsed + 1 } := by
  simp [tickEvent, h]

/-! ### Host accesses -/

theorem hostWriteTxbuf_next (a : BitVec 15) (v : Byte) (s s' : State) (h : hostWriteTxbuf a v s = .next s') :
    s.opstate.isUbxEncoder = false ∧ s' = { s with txbuf := s.txbuf.write a.toNat v } := by
  unfold hostWriteTxbuf at h
  split at h
  · cases h
  · exact ⟨by simp_all, by cases h; rfl⟩

theorem hostReadBuf_next (b : Buf) (a : BitVec 15) (s s' : State) (h : hostReadBuf b a s = .next s') :
    bufferInUse b s = false ∧
      ∃ v, (bufOf b s).read a.toNat = some v ∧ s' = { s with seen := s.seen ++ [.byte b a.toNat v] } := by
  unfold hostReadBuf at h
  split at h
  · cases h
  · split at h
    · cases h
    · exact ⟨by simp_all, _, ‹_›, by cases h; rfl⟩

theorem hostCopyMsg_next (s s' : State) (h : hostCopyMsg s = .next s') :
    s.opstate.isReceiver = false ∧ ∃ bs, s.rxbuf.readFrom 0 s.msgLen.toNat = .ok bs ∧
      s' = { s with seen := s.seen ++ [.message s.result (packHalf s.msgCls s.msgId) s.msgLen bs] } := by
  unfold hostCopyMsg at h
  split at h
  · cases h
  · split at h
    · cases h
    · exact ⟨by simp_all, _, ‹_›, by cases h; rfl⟩

end Sys2Proof.Machine
end

