-- ==== Sys2Proof/Laws/Wire.lean ====
section
/-! SUPPORT. The laws of the wire formats: lengths, and how a sentence's body is cut and joined. -/

namespace Sys2Proof.Machine

open Sys2Proof.Config

/-! ### The frame -/

@[simp] theorem ubxBody_length (c i : Byte) (p : List Byte) : (ubxBody c i p).length = 4 + p.length := by
  simp [ubxBody]; omega

/-- A frame has `8 + N` bytes (R90, R92). -/
@[simp] theorem ubxFrameBytes_length (c i : Byte) (p : List Byte) (a b : Byte) :
    (ubxFrameBytes c i p a b).length = 8 + p.length := by
  simp [ubxFrameBytes]; omega

/-- `ubx_encode` of a payload that the length field holds (R151). -/
theorem ubxEncode_ok (c i : Byte) (p : List Byte) (h : p.length ≤ lenMax) :
    ubxEncode c i p = .ok (ubxFrameBytes c i p (ck2 (ubxBody c i p)).1 (ck2 (ubxBody c i p)).2) := by
  simp [ubxEncode, Nat.not_lt.mpr h]

/-- `ubx_encode` of any other payload (R151). -/
theorem ubxEncode_error (c i : Byte) (p : List Byte) (h : lenMax < p.length) :
    ubxEncode c i p = .error .errPayloadTooLarge := by
  simp [ubxEncode, h]

/-! ### The sentence -/

/-- A field character is no separator, no marker and no terminator. -/
theorem fieldChar_iff (b : Byte) :
    fieldChar b = true ↔ b ≠ comma ∧ b ≠ star ∧ b ≠ cr ∧ b ≠ lf ∧ b ≠ dollar := by
  simp [fieldChar]

/-- A body character: a comma or a field character. -/
theorem bodyStopper_false_iff (b : Byte) : bodyStopper b = false ↔ b ≠ cr ∧ b ≠ lf ∧ b ≠ dollar := by
  simp [bodyStopper]

/-- The body ends at the first marker. -/
theorem takeBody_append (body tail : List Byte) (h : ∀ b ∈ body, b ≠ star ∧ bodyStopper b = false) :
    takeBody (body ++ star :: tail) = some (body, tail) := by
  induction body with
  | nil => simp [takeBody]
  | cons b bs ih =>
    have hb := h b (by simp)
    have hr := ih fun x hx => h x (by simp [hx])
    simp [takeBody, hb.1, hb.2, hr]

/-- What the body is, when there is one. -/
theorem takeBody_some (bs body tail : List Byte) (h : takeBody bs = some (body, tail)) :
    bs = body ++ star :: tail ∧ ∀ b ∈ body, b ≠ star ∧ bodyStopper b = false := by
  induction bs generalizing body with
  | nil => simp [takeBody] at h
  | cons b bs ih =>
    unfold takeBody at h
    split at h
    · simp only [Option.some.injEq, Prod.mk.injEq] at h
      obtain ⟨rfl, rfl⟩ := h; simp_all
    · split at h
      · cases h
      · rename_i h1 h2
        obtain ⟨⟨q, r⟩, hq, he⟩ := Option.map_eq_some_iff.mp h
        simp only [Prod.mk.injEq] at he
        obtain ⟨rfl, rfl⟩ := he
        obtain ⟨e, hall⟩ := ih q hq
        refine ⟨by simp [e], fun x hx => ?_⟩
        rcases List.mem_cons.mp hx with rfl | hx
        · exact ⟨h1, by simpa using h2⟩
        · exact hall x hx

/-- A split is never empty. -/
theorem splitCommas_ne_nil (bs : List Byte) : splitCommas bs ≠ [] := by
  cases bs with
  | nil => simp [splitCommas]
  | cons b bs =>
    unfold splitCommas
    split
    · simp
    · split <;> simp

/-- A field without commas, followed by the end. -/
theorem splitCommas_field (f : List Byte) (h : ∀ b ∈ f, b ≠ comma) : splitCommas f = [f] := by
  induction f with
  | nil => rfl
  | cons b f ih =>
    have hb := h b (by simp)
    have hr := ih fun x hx => h x (by simp [hx])
    simp [splitCommas, hb, hr]

/-- A field without commas, followed by a comma. -/
theorem splitCommas_field_comma (f rest : List Byte) (h : ∀ b ∈ f, b ≠ comma) :
    splitCommas (f ++ comma :: rest) = f :: splitCommas rest := by
  induction f with
  | nil => simp [splitCommas]
  | cons b f ih =>
    have hb := h b (by simp)
    have hr := ih fun x hx => h x (by simp [hx])
    simp [splitCommas, hb, hr]

/-- Splitting undoes joining (R181, R261). -/
theorem splitCommas_joined (tag : List Byte) (fields : List (List Byte)) (ht : ∀ b ∈ tag, b ≠ comma)
    (hf : ∀ f ∈ fields, ∀ b ∈ f, b ≠ comma) : splitCommas (nmeaJoined tag fields) = tag :: fields := by
  induction fields generalizing tag with
  | nil => simpa [nmeaJoined, fieldBytes] using splitCommas_field tag ht
  | cons f fs ih =>
    have h1 := ih f (hf f (by simp)) fun g hg => hf g (by simp [hg])
    simp only [nmeaJoined, fieldBytes] at h1 ⊢
    rw [splitCommas_field_comma _ _ ht, h1]

/-- Joining undoes splitting. -/
theorem joined_splitCommas (bs tag : List Byte) (fields : List (List Byte)) (h : splitCommas bs = tag :: fields) :
    nmeaJoined tag fields = bs := by
  induction bs generalizing tag fields with
  | nil => simp only [splitCommas, List.cons.injEq] at h; obtain ⟨rfl, rfl⟩ := h; rfl
  | cons b bs ih =>
    unfold splitCommas at h
    split at h
    · rename_i hb
      simp only [List.cons.injEq] at h
      obtain ⟨rfl, rfl⟩ := h
      cases hs : splitCommas bs with
      | nil => exact absurd hs (splitCommas_ne_nil bs)
      | cons f fs =>
        have := ih f fs hs
        simp only [nmeaJoined] at this
        simp [nmeaJoined, fieldBytes, this, hb]
    · split at h
      · rename_i hs; exact absurd hs (splitCommas_ne_nil bs)
      · rename_i f fs hs
        simp only [List.cons.injEq] at h
        obtain ⟨rfl, rfl⟩ := h
        have := ih f fs hs
        simp only [nmeaJoined] at this
        simp [nmeaJoined, this]

/-- The fields of a split hold no comma. -/
theorem splitCommas_no_comma (bs : List Byte) : ∀ f ∈ splitCommas bs, ∀ b ∈ f, b ≠ comma ∧ b ∈ bs := by
  induction bs with
  | nil => simp [splitCommas]
  | cons b bs ih =>
    unfold splitCommas
    split
    · intro f hf x hx
      rcases List.mem_cons.mp hf with rfl | hf
      · simp at hx
      · exact ⟨(ih f hf x hx).1, by simp [(ih f hf x hx).2]⟩
    · rename_i hb
      split
      · rename_i hs; exact absurd hs (splitCommas_ne_nil bs)
      · rename_i g gs hs
        rw [hs] at ih
        intro f hf x hx
        rcases List.mem_cons.mp hf with rfl | hf
        · rcases List.mem_cons.mp hx with rfl | hx
          · exact ⟨hb, by simp⟩
          · exact ⟨(ih g (by simp) x hx).1, by simp [(ih g (by simp) x hx).2]⟩
        · exact ⟨(ih f (by simp [hf]) x hx).1, by simp [(ih f (by simp [hf]) x hx).2]⟩

/-- The tail the encoder writes is the tail the decoder accepts (R67, R96). -/
@[simp] theorem checkTail_nmeaTail (c : Byte) (rest : List Byte) : checkTail c ((nmeaTail c).tail ++ rest) = .ok rest := by
  simp [nmeaTail, checkTail]

/-- The tail the decoder accepts is the one the encoder writes. -/
theorem checkTail_ok (c : Byte) (bs rest : List Byte) (h : checkTail c bs = .ok rest) :
    bs = (nmeaTail c).tail ++ rest := by
  unfold checkTail at h
  split at h
  · split at h
    · rename_i hv lv h1 h2
      split at h
      · cases h
      · rename_i hc
        split at h
        · rename_i he
          simp only [Except.ok.injEq] at h
          simp only [not_or, not_not] at hc
          subst he
          simp [nmeaTail, hexchar_of_hexval _ _ h1, hexchar_of_hexval _ _ h2, hc.1, hc.2, h]
        · cases h
    · cases h
  · cases h

end Sys2Proof.Machine
end

