-- ==== Sys2Proof/Laws/PerInstr.lean ====
section
/-! SUPPORT. Statements made for every row of the opcode table, one lemma for each row. -/

namespace Sys2Proof.Laws

open Sys2Proof.Machine

/-- How many bytes a row's encoding has: one for a command byte, a name or an outcome (R100, R112, R300), two for a symbol
word (R107, log 23), `8 + N` for a frame (R90), the joined text and five for a sentence (R96, R181), none for a
pseudo-operation (R119). -/
def EncodedLength.bytes (i : Instr) : Nat :=
  match i with
  | .ubxFrame _ _ p _ _ => 8 + p.length
  | .nmeaSentence tag fields => (nmeaJoined tag fields).length + 5
  | i =>
    match i.format with
    | .sym10 => 2
    | .pseudo => 0
    | _ => 1

/-- The encoding of a row has the length its format gives it. -/
def EncodedLength.Statement (i : Instr) : Prop := (encode i).length = EncodedLength.bytes i

theorem EncodedLength.ck2 : EncodedLength.Statement .ck2 := rfl

theorem EncodedLength.ckx : EncodedLength.Statement .ckx := rfl

theorem EncodedLength.lookup : EncodedLength.Statement .lookup := rfl

theorem EncodedLength.ubxenc : EncodedLength.Statement .ubxenc := rfl

theorem EncodedLength.ubxrecv : EncodedLength.Statement .ubxrecv := rfl

theorem EncodedLength.nmeaenc : EncodedLength.Statement .nmeaenc := rfl

theorem EncodedLength.nmeadec : EncodedLength.Statement .nmeadec := rfl

theorem EncodedLength.reservedCmd (op : Byte) : EncodedLength.Statement (.reservedCmd op) := rfl

theorem EncodedLength.symCh (b : Byte) : EncodedLength.Statement (.symCh b) := rfl

theorem EncodedLength.symFs (d : Byte) : EncodedLength.Statement (.symFs d) := rfl

theorem EncodedLength.symEnd (d : Byte) : EncodedLength.Statement (.symEnd d) := rfl

theorem EncodedLength.symReserved (d : Byte) : EncodedLength.Statement (.symReserved d) := rfl

theorem EncodedLength.ubxFrame (c : Byte) (i : Byte) (p : List Byte) (a : Byte) (b : Byte) : EncodedLength.Statement (.ubxFrame c i p a b) := by
  simp only [EncodedLength.Statement, EncodedLength.bytes, encode, ubxFrameBytes_length]

theorem EncodedLength.nmeaSentence (tag : List Byte) (fields : List (List Byte)) : EncodedLength.Statement (.nmeaSentence tag fields) := by
  simp only [EncodedLength.Statement, EncodedLength.bytes, encode, nmeaEncode, nmeaTail, List.length_append,
    List.length_cons, List.length_nil]

theorem EncodedLength.nameCfgMsg : EncodedLength.Statement .nameCfgMsg := rfl

theorem EncodedLength.nameCfgNav5 : EncodedLength.Statement .nameCfgNav5 := rfl

theorem EncodedLength.nameCfgCfg : EncodedLength.Statement .nameCfgCfg := rfl

theorem EncodedLength.nameGll : EncodedLength.Statement .nameGll := rfl

theorem EncodedLength.nameRmc : EncodedLength.Statement .nameRmc := rfl

theorem EncodedLength.nameGsv : EncodedLength.Statement .nameGsv := rfl

theorem EncodedLength.resIdle : EncodedLength.Statement .resIdle := rfl

theorem EncodedLength.resOk : EncodedLength.Statement .resOk := rfl

theorem EncodedLength.resNoMessage : EncodedLength.Statement .resNoMessage := rfl

theorem EncodedLength.errPayloadTooLarge : EncodedLength.Statement .errPayloadTooLarge := rfl

theorem EncodedLength.errUnknownMessageType : EncodedLength.Statement .errUnknownMessageType := rfl

theorem EncodedLength.errFraming : EncodedLength.Statement .errFraming := rfl

theorem EncodedLength.errChecksumMismatch : EncodedLength.Statement .errChecksumMismatch := rfl

theorem EncodedLength.errTransport : EncodedLength.Statement .errTransport := rfl

theorem EncodedLength.errTextFormat : EncodedLength.Statement .errTextFormat := rfl

theorem EncodedLength.errBadCommand : EncodedLength.Statement .errBadCommand := rfl

theorem EncodedLength.ubxencNamed (name : Byte) (p : List Byte) : EncodedLength.Statement (.ubxencNamed name p) := rfl

theorem EncodedLength.pubxSetbaud (port : List Byte) (inMask : List Byte) (outMask : List Byte) (baud : List Byte) (autobaud : List Byte) : EncodedLength.Statement (.pubxSetbaud port inMask outMask baud autobaud) := rfl

theorem EncodedLength.pubxSetrate (tag : List Byte) (subtype : List Byte) (code : List Byte) (r1 : List Byte) (r2 : List Byte) (r3 : List Byte) (r4 : List Byte) (r5 : List Byte) : EncodedLength.Statement (.pubxSetrate tag subtype code r1 r2 r3 r4 r5) := rfl

theorem EncodedLength.exchange (m : Message) (timeout : Word) : EncodedLength.Statement (.exchange m timeout) := rfl

theorem EncodedLength.ubxdecode (bytes : List Byte) : EncodedLength.Statement (.ubxdecode bytes) := rfl

end Sys2Proof.Laws
end

