-- ==== Sys2Proof/Laws/Step.lean ====
section
/-! SUPPORT. What a step does: once for the fetch, once for the block's turn, and the run lemmas. -/

namespace Sys2Proof.Machine

/-- In a receiver state, and where no tick is due, a step of the block is the transition of its `OPSTATE`. -/
theorem blockStep_receiver (s : State) (h : s.opstate.isReceiver = true) : blockStep s = blockMove s := by
  simp [blockStep, h]

theorem blockStep_no_tick (s : State) (h : ∀ rest, s.line ≠ .tick :: rest) : blockStep s = blockMove s := by
  unfold blockStep
  split
  · rfl
  · split
    · exact absurd ‹_› (h _)
    · rfl

/-- What one step of the block is. -/
theorem blockStep_cases (s : State) :
    blockStep s = blockMove s ∨
    (s.opstate.isReceiver = false ∧ ∃ rest, s.line = .tick :: rest ∧ blockStep s = .next { s with line := rest }) := by
  unfold blockStep
  split
  · exact .inl rfl
  · rename_i hr
    split
    · rename_i rest h
      refine .inr ⟨by simpa using hr, rest, h, ?_⟩
      rw [tickEvent_idle _ (by simpa using hr)]
    · exact .inl rfl

/-- While the host waits the block has the step. -/
theorem step_hostWaits (s : State) (h : HostWaits s) : step s = blockStep s := by
  unfold step runAgenda
  rcases h with h | ⟨rest, h, hd⟩
  · rw [h]
  · rw [h]; simp [hd]

/-- In the block's turn a step is the transition of its `OPSTATE`. -/
theorem step_blockTurn (s : State) (h : BlockTurn s) : step s = blockMove s := by
  rw [step_hostWaits s h.1, blockStep_no_tick s h.2]

/-- While the host waits, a receiver's step is the transition of its `OPSTATE`. -/
theorem step_receiver (s : State) (h : HostWaits s) (hr : s.opstate.isReceiver = true) : step s = blockMove s := by
  rw [step_hostWaits s h, blockStep_receiver s hr]

/-- Bytes of an input format reach the block as the item that the decoder reads back. -/
theorem fetch_inputEvent_cmd8 (b : Byte) : fetch (inputEvent .cmd8 [b]) = decodeWhole .cmd8 [b] := by
  simp [inputEvent, fetch, decodeWhole, decode]

theorem fetch_inputEvent_sym10 (lo hi : Byte) (h : hi < 4) :
    fetch (inputEvent .sym10 [lo, hi]) = decodeWhole .sym10 [lo, hi] := by
  show some _ = decodeWhole .sym10 [lo, hi]
  simp only [decodeWhole, decode, if_pos h]
  rfl

/-- A table word reaches the block as the item that is the instruction the decoder reads from it. -/
theorem fetch_tableEvent (nbits w : Nat) : fetch (tableEvent nbits w) = decodeTableWord nbits w := by
  unfold tableEvent decodeTableWord tableWord
  split
  · exact fetch_inputEvent_cmd8 _
  · split
    · rename_i h
      refine fetch_inputEvent_sym10 _ _ ?_
      have : w / 256 % 256 < 4 := by omega
      rw [BitVec.lt_def]
      simpa using this
    · dsimp only
      split <;> rfl

/-- An item that is an instruction runs by its meaning. -/
theorem step_fetched (s : State) (e : Event) (rest : List Event) (i : Instr) (h : s.agenda = e :: rest)
    (hf : fetch e = some i) : step s = exec i { s with agenda := rest } := by
  have hw : e ≠ .wait := by rintro rfl; simp [fetch] at hf
  unfold step runAgenda
  rw [h]
  simp [hw, hf]

/-- An item that is no instruction and does not wait is performed. -/
theorem step_performed (s : State) (e : Event) (rest : List Event) (h : s.agenda = e :: rest)
    (hw : ¬ (e = .wait ∧ s.done = false)) (hf : fetch e = none) : step s = perform e { s with agenda := rest } := by
  unfold step runAgenda
  rw [h]
  simp only [hw, if_false, hf]

/-- What a step is. -/
theorem step_cases (s : State) :
    step s = blockStep s ∨
    (∃ e rest i, s.agenda = e :: rest ∧ fetch e = some i ∧ step s = exec i { s with agenda := rest }) ∨
    (∃ e rest, s.agenda = e :: rest ∧ fetch e = none ∧ ¬ (e = .wait ∧ s.done = false) ∧
      step s = perform e { s with agenda := rest }) := by
  cases ha : s.agenda with
  | nil => exact .inl (step_hostWaits s (.inl ha))
  | cons e rest =>
    by_cases hw : e = .wait ∧ s.done = false
    · exact .inl (step_hostWaits s (.inr ⟨rest, by rw [ha, hw.1], hw.2⟩))
    · cases hf : fetch e with
      | none => exact .inr (.inr ⟨e, rest, rfl, hf, hw, step_performed s e rest ha hw hf⟩)
      | some i => exact .inr (.inl ⟨e, rest, i, rfl, hf, step_fetched s e rest i ha hf⟩)

@[simp] theorem run_zero (s : State) : run 0 s = .next s := rfl

theorem run_succ (k : Nat) (s : State) :
    run (k + 1) s = match step s with
      | .next t => run k t
      | .fault r => .fault r
      | .refused r => .refused r := rfl

/-- A run goes on from its first step. -/
theorem run_step (k : Nat) (s t : State) (h : step s = .next t) : run (k + 1) s = run k t := by
  simp [run_succ, h]

/-- A run in two parts. -/
theorem run_add (k l : Nat) (s t : State) (h : run k s = .next t) : run (k + l) s = run l t := by
  induction k generalizing s with
  | zero => simp only [run_zero, Host.Outcome.next.injEq] at h; subst h; simp
  | succ k ih =>
    rw [run_succ] at h
    rw [show k + 1 + l = (k + l) + 1 by omega, run_succ]
    cases hs : step s with
    | next u => rw [hs] at h; exact ih u h
    | fault r => rw [hs] at h; cases h
    | refused r => rw [hs] at h; cases h

/-- The model's own run is the host's. -/
theorem run_eq_core_run (k : Nat) (s : State) : run k s = Host.Core.run Sys2Proof.core k s := by
  induction k generalizing s with
  | zero => rfl
  | succ k ih =>
    cases hs : step s with
    | next t =>
      have hc : Sys2Proof.core.step s = .next t := hs
      simp only [run_succ, hs, Host.Core.run, hc]
      exact ih t
    | fault r =>
      have hc : Sys2Proof.core.step s = .fault r := hs
      simp only [run_succ, hs, Host.Core.run, hc]
      rfl
    | refused r =>
      have hc : Sys2Proof.core.step s = .refused r := hs
      simp only [run_succ, hs, Host.Core.run, hc]
      rfl

end Sys2Proof.Machine
end

