-- ==== Sys2Proof/Tests/Slice0.lean ====
section
/-! SUPPORT. The author's own tests: the well-formedness smoke test, a written word for every row, one step of every
instruction, and a witness for the hypotheses of every statement. Expected values come from the spec (the rule or vector
stands beside each test). -/

namespace Sys2Proof.Tests

open Sys2Proof Sys2Proof.Machine Sys2Proof.Config

/-! ### Small states -/

/-- Right after reset, with the given agenda. -/
def withAgenda (es : List Event) : State := { State.reset with agenda := es }

/-- A busy block in the given state. -/
def busyIn (o : OpState) : State := { State.reset with opstate := o, busy := true }

/-- A receiver in the given state, with the given line. -/
def receiving (o : OpState) (l : List LineEvent) : State := { busyIn o with line := l }

/-- A sentence decoder in the given state, with the given bytes and a host ready to take one symbol. -/
def decoding (o : OpState) (bs : List Byte) : State := { busyIn o with din := bs, soutWanted := 1 }

/-- A sentence encoder in the given state, with the given symbols. -/
def encoding (o : OpState) (ys : List Symbol) : State := { busyIn o with sin := ys }

/-- `bytes` in TXBUF from address 0 on, and `ARG_LEN` their number. -/
def loaded (bytes : List Byte) : State :=
  { State.reset with
    txbuf := bytes.zipIdx.map fun p => (p.2, p.1), argLen := BitVec.ofNat 16 bytes.length }

/-- `n` zero bytes in TXBUF, from address `a` on. -/
def zeros : Nat → Nat → Memory
  | _, 0 => []
  | a, n + 1 => (a, 0) :: zeros (a + 1) n

/-- `n` zero bytes in TXBUF and `ARG_LEN = n`. -/
def loadedZeros (n : Nat) : State := { State.reset with txbuf := zeros 0 n, argLen := BitVec.ofNat 16 n }

/-- What a field shows after a step that answers a next state. -/
def after {α : Type} (r : Result) (f : State → α) : Option α :=
  match r with
  | .next t => some (f t)
  | _ => none

theorem zeros_read (n : Nat) : ∀ a j : Nat, j < n → (zeros a n).read (a + j) = some 0 := by
  induction n with
  | zero => intro a j h; omega
  | succ n ih =>
    intro a j h
    cases j with
    | zero => simp [zeros, Memory.read]
    | succ j =>
      have := ih (a + 1) j (by omega)
      simp only [zeros, Memory.read]
      rw [if_neg (by omega), show a + (j + 1) = a + 1 + j by omega]
      exact this

theorem loadedZeros_holds (n : Nat) : Holds (loadedZeros n).txbuf (List.replicate n 0) := by
  intro a h
  have := zeros_read n 0 a (by simpa using h)
  simp only [List.length_replicate] at h
  simpa [loadedZeros, h] using this

/-! ### Every well-formedness check refuses -/

/-- A defined code is no reserved one (R101). -/
theorem test_wf_reserved_code : (Instr.reservedCmd 0x01).wf = false := by decide

/-- The frame of R168 with a wrong checksum (R93). -/
theorem test_wf_frame_checksum :
    (Instr.ubxFrame 0x06 0x01 [0xF0, 0x01, 0x00] 0xFB 0x12).wf = false := by decide

/-- A payload of 32768 bytes or more (R90). -/
theorem test_wf_frame_length (c i a b : Byte) (p : List Byte) (h : 32768 ≤ p.length) :
    (Instr.ubxFrame c i p a b).wf = false := by
  have : payloadOk p = false := decide_eq_false (show ¬ p.length ≤ 32767 by omega)
  simp [Instr.wf, this]

/-- A tag without its `$` (R96). -/
theorem test_wf_tag : (Instr.nmeaSentence [0x50] []).wf = false := by decide

/-- A second `$` in the tag (R278). -/
theorem test_wf_tag_characters : (Instr.nmeaSentence [0x24, 0x24] []).wf = false := by decide

/-- A comma in a field (R278). -/
theorem test_wf_field_characters : (Instr.nmeaSentence [0x24] [[0x2C]]).wf = false := by decide

/-- A payload that TXBUF cannot hold (R60). -/
theorem test_wf_named_payload (name : Byte) (p : List Byte) (h : 32769 ≤ p.length) :
    (Instr.ubxencNamed name p).wf = false :=
  decide_eq_false (show ¬ p.length ≤ 32768 by omega)

/-- A named sentence whose tag has no `$` (R17, R201). -/
theorem test_wf_setrate_tag : (Instr.pubxSetrate [] [] [] [] [] [] [] []).wf = false := by decide

/-- The message of an exchange: a tag without `$` (R17). -/
theorem test_wf_exchange_tag : (Instr.exchange (.text [0x50] []) 0).wf = false := by decide

/-- The message of an exchange: a payload that TXBUF cannot hold (R60). -/
theorem test_wf_exchange_payload (c i : Byte) (p : List Byte) (v : Word) (h : 32769 ≤ p.length) :
    (Instr.exchange (.binary c i p) v).wf = false :=
  decide_eq_false (show ¬ p.length ≤ 32768 by omega)

/-! ### A written word for every row -/

/-- The seven commands (R100). -/
theorem test_decode_commands :
    decode .cmd8 [0x01] = .ok (.ck2, []) ∧ decode .cmd8 [0x02] = .ok (.ckx, []) ∧
    decode .cmd8 [0x03] = .ok (.lookup, []) ∧ decode .cmd8 [0x04] = .ok (.ubxenc, []) ∧
    decode .cmd8 [0x05] = .ok (.ubxrecv, []) ∧ decode .cmd8 [0x06] = .ok (.nmeaenc, []) ∧
    decode .cmd8 [0x07] = .ok (.nmeadec, []) := by decide

/-- Reserved codes at the ends of their ranges (R101). -/
theorem test_decode_reserved :
    decode .cmd8 [0x00] = .ok (.reservedCmd 0x00, []) ∧ decode .cmd8 [0x08] = .ok (.reservedCmd 0x08, []) ∧
    decode .cmd8 [0xFF] = .ok (.reservedCmd 0xFF, []) := by decide

/-- The four symbol kinds (R107): 0x024, 0x100, 0x2FF, 0x301; a bit above bit 9 is refused. -/
theorem test_decode_symbols :
    decode .sym10 [0x24, 0x00] = .ok (.symCh 0x24, []) ∧ decode .sym10 [0x00, 0x01] = .ok (.symFs 0x00, []) ∧
    decode .sym10 [0xFF, 0x02] = .ok (.symEnd 0xFF, []) ∧ decode .sym10 [0x01, 0x03] = .ok (.symReserved 0x01, []) ∧
    decode .sym10 [0x00, 0x04] = .error .symbolWidth := by decide

/-- The frame of R168, and what follows it. -/
theorem test_decode_frame :
    decode .frame [0xB5, 0x62, 0x06, 0x01, 0x03, 0x00, 0xF0, 0x01, 0x00, 0xFB, 0x11, 0xB5]
      = .ok (.ubxFrame 0x06 0x01 [0xF0, 0x01, 0x00] 0xFB 0x11, [0xB5]) := by decide

/-- A negative length, a wrong sync byte, a wrong checksum, a frame cut short (R90, R93, R94). -/
theorem test_decode_bad_frames :
    decode .frame [0xB5, 0x62, 0x00, 0x00, 0x00, 0x80] = .error .negativeLength ∧
    decode .frame [0xB5, 0x63] = .error .sync ∧
    decode .frame [0xB5, 0x62, 0x00, 0x00, 0x00, 0x00, 0x00, 0x01] = .error .frameChecksum ∧
    decode .frame [0xB5, 0x62, 0x00, 0x00, 0x01, 0x00, 0x00, 0x00] = .error .truncated := by decide

/-- `$PUBX*1F` with its terminator (V-TD-04), and lower-case digits (R106). -/
theorem test_decode_sentence :
    decode .sentence [0x24, 0x50, 0x55, 0x42, 0x58, 0x2A, 0x31, 0x46, 0x0D, 0x0A]
      = .ok (.nmeaSentence [0x24, 0x50, 0x55, 0x42, 0x58] [], []) ∧
    decode .sentence [0x24, 0x50, 0x55, 0x42, 0x58, 0x2A, 0x31, 0x66, 0x0D, 0x0A] = .error .sentenceForm := by decide

/-- The six names, and an index that names nothing (R112, R113). -/
theorem test_decode_names :
    decode .cidrom [0x00] = .ok (.nameCfgMsg, []) ∧ decode .cidrom [0x01] = .ok (.nameCfgNav5, []) ∧
    decode .cidrom [0x02] = .ok (.nameCfgCfg, []) ∧ decode .cidrom [0x80] = .ok (.nameGll, []) ∧
    decode .cidrom [0x81] = .ok (.nameRmc, []) ∧ decode .cidrom [0x82] = .ok (.nameGsv, []) ∧
    decode .cidrom [0x03] = .error .unknownName := by decide

/-- Five of the ten outcomes (R300). -/
theorem test_decode_results :
    decode .result8 [0x00] = .ok (.resIdle, []) ∧ decode .result8 [0x01] = .ok (.resOk, []) ∧
    decode .result8 [0x02] = .ok (.resNoMessage, []) ∧ decode .result8 [0x10] = .ok (.errPayloadTooLarge, []) ∧
    decode .result8 [0x11] = .ok (.errUnknownMessageType, []) := by decide

/-- The other five outcomes, and a byte that is none (R300). -/
theorem test_decode_errors :
    decode .result8 [0x12] = .ok (.errFraming, []) ∧
    decode .result8 [0x13] = .ok (.errChecksumMismatch, []) ∧ decode .result8 [0x14] = .ok (.errTransport, []) ∧
    decode .result8 [0x15] = .ok (.errTextFormat, []) ∧ decode .result8 [0x16] = .ok (.errBadCommand, []) ∧
    decode .result8 [0x17] = .error .unknownResult := by decide

/-- A pseudo-operation has no word (R119): its five rows decode from nothing, and encode to nothing. -/
theorem test_pseudo_has_no_word :
    decode .pseudo [] = .error .noWord ∧ encode (.ubxencNamed 0 []) = [] ∧ encode (.pubxSetbaud [] [] [] [] []) = [] ∧
    encode (.pubxSetrate [0x24] [] [] [] [] [] [] []) = [] ∧ encode (.exchange (.binary 0 0 []) 0) = [] ∧
    encode (.ubxdecode [0x00]) = [] := by decide

/-- Table words (log 7): a command, a symbol, the two sync bytes alone with zeros after them. -/
theorem test_table_words :
    decodeTableWord 8 0x05 = some .ubxrecv ∧ decodeTableWord 16 0x141 = some (.symFs 0x41) ∧
    decodeTableWord 16 0x62B5 = some (.ubxFrame 0 0 [] 0 0) := by decide

/-! ### One step of every instruction -/

/-- The checksum of the frame of R168. -/
theorem test_ck2 :
    after (exec .ck2 (loaded [0x06, 0x01, 0x03, 0x00, 0xF0, 0x01, 0x00])) (fun t => (t.ckA, t.ckB, t.result))
      = some (0xFB, 0x11, 0x01) := by decide

/-- `PUBX` gives 0x1F (V-TD-04). -/
theorem test_ckx :
    after (exec .ckx (loaded [0x50, 0x55, 0x42, 0x58])) (fun t => (t.xacc, t.result)) = some (0x1F, 0x01) := by decide

theorem test_lookup :
    after (exec .lookup { State.reset with argName := 0x01 }) (fun t => t.argClsid) = some 0x2406 := by decide

theorem test_ubxenc :
    after (exec .ubxenc { State.reset with argClsid := 0x2406 }) (fun t => (t.cls, t.id, t.opstate))
      = some (0x06, 0x24, .eSync1) := by decide

theorem test_ubxenc_negative_length :
    after (exec .ubxenc { State.reset with argLen := 0x8000 }) (fun t => (t.result, t.busy)) = some (0x10, false) := by
  decide

theorem test_ubxrecv :
    after (exec .ubxrecv { State.reset with elapsed := 7, msgValid := true })
      (fun t => (t.elapsed, t.msgValid, t.opstate)) = some (0, false, .rSeek) := by decide

theorem test_nmeaenc :
    after (exec .nmeaenc { State.reset with xacc := 9, rxck := 9 }) (fun t => (t.xacc, t.rxck, t.opstate))
      = some (0, 9, .tFirst) := by decide

theorem test_nmeadec :
    after (exec .nmeadec { State.reset with xacc := 9, rxck := 9 }) (fun t => (t.xacc, t.rxck, t.opstate))
      = some (0, 0, .nStart) := by decide

theorem test_reserved_cmd :
    after (exec (.reservedCmd 0x08) State.reset) (fun t => (t.result, t.done, t.busy)) = some (0x16, true, false) := by
  decide

/-- The first character must be `$` (R186). -/
theorem test_sym_ch :
    after (exec (.symCh 0x24) (busyIn .tFirst)) (fun t => (t.tx, t.xacc, t.opstate)) = some ([0x24], 0, .tBody) ∧
    after (exec (.symCh 0x50) (busyIn .tFirst)) (fun t => (t.tx, t.result)) = some ([], 0x15) := by decide

theorem test_sym_fs :
    after (exec (.symFs 0x41) (busyIn .tBody)) (fun t => (t.tx, t.xacc)) = some ([0x2C], 0x2C) := by decide

theorem test_sym_end :
    after (exec (.symEnd 0x41) (busyIn .tBody)) (fun t => (t.tx, t.xacc, t.opstate)) = some ([0x2A], 0, .tHexHi) := by
  decide

theorem test_sym_reserved :
    after (exec (.symReserved 0) (busyIn .tBody)) (fun t => (t.tx, t.result, t.opstate)) = some ([], 0x15, .idle) := by
  decide

theorem test_ubx_frame :
    after (exec (.ubxFrame 0x06 0x01 [0xF0] 0xAA 0xBB) State.reset) (fun t => t.line)
      = some (answers [0xB5, 0x62, 0x06, 0x01, 0x01, 0x00, 0xF0, 0xAA, 0xBB]) := by decide

theorem test_nmea_sentence :
    after (exec (.nmeaSentence [0x24, 0x50, 0x55, 0x42, 0x58] []) State.reset) (fun t => t.din)
      = some [0x24, 0x50, 0x55, 0x42, 0x58, 0x2A, 0x31, 0x46, 0x0D, 0x0A] := by decide

/-- The six names (R112). -/
theorem test_names :
    after (exec .nameCfgMsg State.reset) (fun t => t.argClsid) = some 0x0106 ∧
    after (exec .nameCfgNav5 State.reset) (fun t => t.argClsid) = some 0x2406 ∧
    after (exec .nameCfgCfg State.reset) (fun t => t.argClsid) = some 0x0906 ∧
    after (exec .nameGll State.reset) (fun t => t.argClsid) = some 0x01F0 ∧
    after (exec .nameRmc State.reset) (fun t => t.argClsid) = some 0x04F0 ∧
    after (exec .nameGsv State.reset) (fun t => t.argClsid) = some 0x03F0 := by decide

/-- The ten outcomes on a busy block (R300, R316). -/
theorem test_outcomes :
    after (exec .resIdle (busyIn .rSeek)) (fun t => (t.result, t.done, t.busy)) = some (0x00, false, false) ∧
    after (exec .resOk (busyIn .rSeek)) (fun t => (t.result, t.done, t.busy)) = some (0x01, true, false) ∧
    after (exec .resNoMessage (busyIn .rSeek)) (fun t => t.result) = some 0x02 ∧
    after (exec .errPayloadTooLarge (busyIn .rSeek)) (fun t => t.result) = some 0x10 ∧
    after (exec .errUnknownMessageType (busyIn .rSeek)) (fun t => t.result) = some 0x11 ∧
    after (exec .errFraming (busyIn .rSeek)) (fun t => t.result) = some 0x12 ∧
    after (exec .errChecksumMismatch (busyIn .rSeek)) (fun t => t.result) = some 0x13 ∧
    after (exec .errTransport (busyIn .rSeek)) (fun t => t.result) = some 0x14 ∧
    after (exec .errTextFormat (busyIn .rSeek)) (fun t => t.result) = some 0x15 ∧
    after (exec .errBadCommand (busyIn .rSeek)) (fun t => t.result) = some 0x16 := by decide

theorem test_ubxenc_named :
    after (exec (.ubxencNamed 0x81 [0x55]) State.reset) (fun t => t.agenda)
      = some [.wr .argName 0x81, .wr .cmd 0x03, .skipIf 0x11 3, .wrbuf 0 0x55, .wr .argLen 1, .wr .cmd 0x04] := by
  decide

/-- `41`, then a comma, as symbols (R200, R107). -/
theorem test_pubx_setbaud :
    after (exec (.pubxSetbaud [0x31] [] [] [] []) State.reset) (fun t => (t.agenda.drop 6).take 4)
      = some [.putSin 0x100, .putSin 0x034, .putSin 0x031, .putSin 0x100] := by decide

/-- The trailing `0` and `END` (R201). -/
theorem test_pubx_setrate :
    after (exec (.pubxSetrate [0x24] [] [] [] [] [] [] []) State.reset) (fun t => t.agenda.drop 9)
      = some [.putSin 0x100, .putSin 0x030, .putSin 0x200] := by decide

theorem test_exchange :
    after (exec (.exchange (.binary 0x06 0x24 [0x11]) 9) State.reset) (fun t => t.agenda)
      = some [.wr .argClsid 0x2406, .wr .argLen 1, .wrbuf 0 0x11, .wr .cmd 0x04, .wait, .wr .timeout 9, .wr .cmd 0x05,
        .wait, .copyMsg, .wr .cmd 0x05, .wait, .copyMsg] := by decide

theorem test_ubxdecode :
    after (exec (.ubxdecode [0xB5]) { State.reset with line := [.tick] }) (fun t => (t.line, t.agenda))
      = some ([.rx (some 0xB5), .tick], [.wr .cmd 0x05, .wait, .copyMsg]) := by decide

/-! ### One step of the block -/

/-- `B5 B5`: the second byte is dropped, recorded, and not looked at again (R222, R223, V-RX-07). -/
theorem test_second_sync :
    after (step (receiving .rSync2 [.rx (some 0xB5)])) (fun t => (t.opstate, t.feSync2)) = some (.rSeek, true) := by
  decide

/-- The timeout comes before the comparison (R216). -/
theorem test_timeout_first :
    after (step { receiving .rSeek [.rx (some 0xB5)] with elapsed := 1 }) (fun t => t.result) = some 0x02 := by decide

/-- `ELAPSED = TIMEOUT` has not expired (R214). -/
theorem test_timeout_strict :
    after (step { receiving .rSeek [.rx (some 0xB5)] with elapsed := 5, timeout := 5 }) (fun t => t.opstate)
      = some .rSync2 := by decide

/-- A checksum mismatch shows both checksums (R249). -/
theorem test_checksum_mismatch :
    after (step { receiving .rCkB [.rx (some 0x1C)] with ckA := 0x07, ckB := 0x1B, rckA := 0x07 })
      (fun t => (readReg .ckout t, readReg .rckout t, t.result, t.msgValid)) = some (0x1B07, 0x1C07, 0x13, false) := by
  decide

/-- `STATUS` (R36). -/
theorem test_status : readReg .status { State.reset with done := true, feSync2 := true } = 0x0A := by decide

/-- `CONFIG` with its defaults (R9, R46). -/
theorem test_config : readReg .config State.reset = 0x00007FFF := by decide

/-- Bytes that are no frame arrive all the same (R71, R72); an index that names nothing is looked up in vain (R113). -/
theorem test_no_instruction :
    after (step (withAgenda [.arrive [0xB5, 0x63]])) (fun t => t.line) = some (answers [0xB5, 0x63]) ∧
    after (step (withAgenda [.name 0x83])) (fun t => (t.argName, t.result, t.argClsid)) = some (0x83, 0x11, 0) := by decide

/-- A named sentence whose tag has no `$` runs, and NMEAENC ends it (R186). -/
theorem test_tag_without_dollar :
    after (run 3 (withAgenda [.call (.pubxSetrate [0x50] [] [] [] [] [] [] [])])) (fun t => (t.result, t.tx, t.opstate))
      = some (0x15, [], .idle) := by decide

/-- A byte nothing has written stops UBXENC (R52). -/
theorem test_unwritten_byte :
    step { busyIn .ePay with len := 1 } = .fault (.unwrittenByte .txbuf 0) := by rfl

/-! ### Witnesses: the hypotheses of each statement can be met, clause by clause, at the ends of their ranges -/

theorem witness_NamesLoadTheirCodes :
    (withAgenda [.name 0x03]).busy = false ∧ (withAgenda [.name 0x03]).agenda = .name 0x03 :: [] ∧
    (0x03 : Byte) ∉ ([0x00, 0x01, 0x02, 0x80, 0x81, 0x82] : List Byte) := by decide

theorem busyIn_turn (o : OpState) : BlockTurn (busyIn o) := ⟨.inl rfl, nofun⟩

theorem receiving_waits (o : OpState) (l : List LineEvent) : HostWaits (receiving o l) := .inl rfl

theorem decoding_turn (o : OpState) (bs : List Byte) : BlockTurn (decoding o bs) := ⟨.inl rfl, nofun⟩

theorem encoding_turn (o : OpState) (ys : List Symbol) : BlockTurn (encoding o ys) := ⟨.inl rfl, nofun⟩

theorem witness_DecodeOfEncode :
    (Instr.reservedCmd 0x00).wf = true ∧ (Instr.reservedCmd 0x08).wf = true ∧ (Instr.symFs 0xFF).wf = true ∧
    (Instr.ubxFrame 0 0 [] 0 0).wf = true ∧ (Instr.nmeaSentence [0x24] [[]]).wf = true ∧ Instr.nameGsv.wf = true ∧
    Instr.errBadCommand.wf = true ∧ Instr.errBadCommand.format ≠ .pseudo := by decide

theorem witness_DecodedBytesAreTheEncoding : decode .sym10 [0xFF, 0x03, 0x00] = .ok (.symReserved 0xFF, [0x00]) := by
  decide

theorem witness_StepRunsTheDecodedInstruction :
    decodeTableWord 8 0x01 = some .ck2 ∧ (withAgenda [.wr .cmd 0x100]).agenda = .wr .cmd 0x100 :: [] ∧
    (withAgenda [.putSin 0x3FF]).agenda = .putSin 0x3FF :: [] ∧
    decode .frame [0xB5, 0x62, 0x00, 0x00, 0x00, 0x00, 0x00, 0x00] = .ok (.ubxFrame 0 0 [] 0 0, []) ∧
    decode .sentence [0x24, 0x2A, 0x30, 0x30, 0x0D, 0x0A] = .ok (.nmeaSentence [0x24] [], []) ∧
    decode .cidrom [0x80] = .ok (.nameGll, []) ∧
    (withAgenda [.call (.ubxdecode [])]).agenda = .call (.ubxdecode []) :: [] := by decide

theorem witness_BusyBlockIgnoresEveryCommand :
    ({ busyIn .rSeek with agenda := [.wr .cmd 0x05] } : State).busy = true := by decide

theorem witness_CkTwoFoldsTheBuffer :
    (loaded [0x01]).busy = false ∧ (loaded [0x01]).argLen.toNat = [(0x01 : Byte)].length ∧
    Holds (loaded [0x01]).txbuf [0x01] ∧
    (loadedZeros 32768).busy = false ∧ (loadedZeros 32768).argLen.toNat = (List.replicate 32768 (0 : Byte)).length ∧
    Holds (loadedZeros 32768).txbuf (List.replicate 32768 0) ∧
    32768 < ({ State.reset with argLen := 32769 } : State).argLen.toNat := by
  refine ⟨rfl, rfl, ?_, rfl, ?_, loadedZeros_holds 32768, by decide⟩
  · unfold Holds; decide
  · rw [List.length_replicate]; rfl

theorem witness_CkxFoldsTheBuffer :
    State.reset.busy = false ∧ State.reset.argLen.toNat = ([] : List Byte).length ∧ Holds State.reset.txbuf [] ∧
    32768 < ({ State.reset with argLen := 0xFFFF } : State).argLen.toNat :=
  ⟨rfl, rfl, nofun, by decide⟩

theorem witness_UnwrittenBytesStopTheMachine :
    (({ State.reset with argLen := 32768 } : State).busy = false ∧
      ({ State.reset with argLen := 32768 } : State).argLen.toNat ≤ 32768 ∧
      0 < ({ State.reset with argLen := 32768 } : State).argLen.toNat ∧
      WrittenBelow ({ State.reset with argLen := 32768 } : State).txbuf 0 ∧
      ({ State.reset with argLen := 32768 } : State).txbuf.read 0 = none) ∧
    (BlockTurn { busyIn .ePay with cnt := 32767 } ∧
      ({ busyIn .ePay with cnt := 32767 } : State).txReady = true ∧
      ({ busyIn .ePay with cnt := 32767 } : State).cnt.toNat ≤ 32767 ∧
      ({ busyIn .ePay with cnt := 32767 } : State).txbuf.read 32767 = none) :=
  ⟨⟨rfl, by decide, by decide, nofun, rfl⟩, busyIn_turn .ePay, rfl, by decide, rfl⟩

theorem witness_LookupReadsTheTable :
    State.reset.busy = false ∧ State.reset.argName = 0x00 ∧
    (0x03 : Byte) ∉ ([0x00, 0x01, 0x02, 0x80, 0x81, 0x82] : List Byte) ∧
    (0x7F : Byte) ∉ ([0x00, 0x01, 0x02, 0x80, 0x81, 0x82] : List Byte) ∧
    (0x83 : Byte) ∉ ([0x00, 0x01, 0x02, 0x80, 0x81, 0x82] : List Byte) := by decide

/-- The hypothesis of NamesLoadTheirCodes, UbxrecvAcceptance, TextCommandsAcceptance and ReservedCodesAreRefused. -/
theorem witness_idle_block : State.reset.busy = false ∧ ((0x00 : Byte) = 0x00 ∨ 0x08 ≤ (0x00 : Byte)) ∧
    ((0x08 : Byte) = 0x00 ∨ 0x08 ≤ (0x08 : Byte)) ∧ 0x08 ≤ (0xFF : Byte) := by decide

theorem witness_UbxencAcceptance :
    32767 < ({ State.reset with argLen := 0x8000 } : State).argLen.toNat ∧
    ({ State.reset with argLen := 0x7FFF } : State).argLen.toNat ≤ 32767 ∧ State.reset.argLen.toNat ≤ 32767 := by decide

/-- Every state of the frame encoder can be the block's turn; the payload state with its index at either end. -/
theorem witness_EncoderTransitions :
    (∀ o ∈ ([.eSync1, .eSync2, .eCls, .eId, .eLen0, .eLen1, .ePay, .eCkA, .eCkB] : List OpState),
      BlockTurn (busyIn o) ∧ (busyIn o).opstate = o ∧ (busyIn o).txReady = true) ∧
    ({ loaded [0x55] with opstate := .ePay } : State).txbuf.read 0 = some 0x55 ∧
    ({ busyIn .ePay with cnt := 32767, txbuf := [(32767, 1)] } : State).txbuf.read 32767 = some 1 :=
  ⟨fun o _ => ⟨busyIn_turn o, rfl, rfl⟩, rfl, rfl⟩

theorem witness_AWaitingBlockStays :
    (BlockTurn { busyIn .eCkB with txReady := false } ∧ OpState.eCkB.isUbxEncoder = true) ∧
    BlockTurn { busyIn .tLf with txReady := false } ∧
    BlockTurn { encoding .tFirst [.ch 0x24] with txReady := false } ∧
    (∀ y ∈ ([.ch 0x00, .ch 0xFF, .fs, .endMsg] : List Symbol),
      BlockTurn { encoding .tBody [y] with txReady := false }) ∧
    (BlockTurn (encoding .tFirst []) ∧ (encoding .tFirst []).sin = []) ∧
    (BlockTurn (decoding .nHex1 []) ∧ (decoding .nHex1 []).din = []) ∧
    BlockTurn { decoding .nStart [0x24] with soutWanted := 0 } ∧
    (BlockTurn { decoding .nBody [0x2C] with soutWanted := 0 } ∧
      (0x2C : Byte) ∉ ([0x2A, 0x0D, 0x0A, 0x24] : List Byte)) ∧
    (BlockTurn { decoding .nLf [0x0A] with soutWanted := 0 } ∧
      ({ decoding .nLf [0x0A] with soutWanted := 0 } : State).rxck = 0) :=
  ⟨⟨⟨.inl rfl, nofun⟩, rfl⟩, ⟨.inl rfl, nofun⟩, ⟨.inl rfl, nofun⟩, fun _ _ => ⟨.inl rfl, nofun⟩, ⟨encoding_turn .tFirst [], rfl⟩, ⟨decoding_turn .nHex1 [], rfl⟩,
    ⟨.inl rfl, nofun⟩, ⟨⟨.inl rfl, nofun⟩, by decide⟩, ⟨.inl rfl, nofun⟩, rfl⟩

theorem witness_UbxencEmitsTheFrame :
    ({ loadedZeros 32767 with agenda := [.wr .cmd 0x04] } : State).busy = false ∧
    ({ loadedZeros 32767 with agenda := [.wr .cmd 0x04] } : State).line = [] ∧
    ({ loadedZeros 32767 with agenda := [.wr .cmd 0x04] } : State).txReady = true ∧
    ({ loadedZeros 32767 with agenda := [.wr .cmd 0x04] } : State).argLen.toNat
      = (List.replicate 32767 (0 : Byte)).length ∧
    Holds ({ loadedZeros 32767 with agenda := [.wr .cmd 0x04] } : State).txbuf (List.replicate 32767 0) ∧
    Holds (withAgenda [.wr .cmd 0x04]).txbuf [] ∧ (withAgenda [.wr .cmd 0x04]).argLen.toNat = 0 ∧
    (loadedZeros 32768).argLen.toNat = (List.replicate 32768 (0 : Byte)).length := by
  refine ⟨rfl, rfl, rfl, ?_, loadedZeros_holds 32767, nofun, rfl, ?_⟩ <;> rw [List.length_replicate] <;> rfl

/-- Answers that meet each clause of the seek and of the second sync byte: an expired timer, one that is just not
expired. -/
theorem witness_SeekOnAnAnswer :
    HostWaits (receiving .rSeek [.rx none]) ∧ (receiving .rSeek [.rx none]).line = .rx none :: [] ∧
    ({ receiving .rSeek [.rx none] with elapsed := 1 } : State).timeout
      < ({ receiving .rSeek [.rx none] with elapsed := 1 } : State).elapsed ∧
    ¬ (receiving .rSeek [.rx (some 0xB5)]).timeout < (receiving .rSeek [.rx (some 0xB5)]).elapsed ∧
    (some 0x62 : Option Byte) ≠ some 0xB5 :=
  ⟨.inl rfl, rfl, by decide, by decide, by decide⟩

theorem witness_SecondSyncByte :
    HostWaits { receiving .rSync2 [.rx none] with frameDeadline := true, elapsed := 1 } ∧
    ({ receiving .rSync2 [.rx none] with frameDeadline := true, elapsed := 1 } : State).frameDeadline = true ∧
    ¬ ((receiving .rSync2 [.rx none]).frameDeadline = true ∧
      (receiving .rSync2 [.rx none]).timeout < (receiving .rSync2 [.rx none]).elapsed) ∧ (0xB5 : Byte) ≠ 0x62 :=
  ⟨.inl rfl, rfl, by decide, by decide⟩

theorem witness_MidFrameDeadlineAndShortRead :
    HostWaits (receiving .rSync2 [.rx none]) ∧ (receiving .rSync2 [.rx none]).opstate.isReceiver = true ∧
    (receiving .rSync2 [.rx none]).opstate ≠ .rSeek ∧ (receiving .rCkB [.rx none]).opstate ≠ .rSeek ∧
    (receiving .rSync2 [.rx none]).line = .rx none :: [] :=
  ⟨.inl rfl, rfl, by decide, by decide, rfl⟩

/-- The hypotheses of HeaderBytes, LengthTest and ChecksumBytesAndVerdict: a byte in every mid-frame state, no deadline. -/
theorem witness_mid_frame_byte :
    ∀ o ∈ ([.rCls, .rId, .rLen0, .rLen1, .rPay, .rCkA, .rCkB] : List OpState),
      HostWaits (receiving o [.rx (some 0x80)]) ∧ (receiving o [.rx (some 0x80)]).opstate = o ∧
      (receiving o [.rx (some 0x80)]).line = .rx (some 0x80) :: [] ∧
      ¬ ((receiving o [.rx (some 0x80)]).frameDeadline = true ∧
        (receiving o [.rx (some 0x80)]).timeout < (receiving o [.rx (some 0x80)]).elapsed) :=
  fun _ _ => ⟨.inl rfl, rfl, rfl, nofun⟩

/-- The length test at its edges: the least negative length, the greatest plausible one, the least implausible one,
zero. -/
theorem witness_LengthTest :
    ((0x80 : Byte) ++ (0x00 : Byte)).getLsbD 15 = true ∧
    ¬ (((0x7F : Byte) ++ (0xFF : Byte)).getLsbD 15 = true ∨ (32767#15).toNat < ((0x7F : Byte) ++ (0xFF : Byte)).toNat) ∧
    (32766#15).toNat < ((0x7F : Byte) ++ (0xFF : Byte)).toNat ∧ (0x00 : Byte) ++ (0x00 : Byte) = (0 : Half) := by decide

theorem witness_PayloadIsTakenWhole :
    HostWaits { receiving .rPay (answers [0x55] ++ [.tick]) with len := 1 } ∧
    ({ receiving .rPay (answers [0x55] ++ [.tick]) with len := 1 } : State).cnt = 0 ∧ ([0x55] : List Byte) ≠ [] ∧
    ({ receiving .rPay (answers [0x55] ++ [.tick]) with len := 1 } : State).len.toNat = [(0x55 : Byte)].length ∧
    ({ receiving .rPay [] with cnt := 32767 } : State).cnt.toNat ≤ 32767 :=
  ⟨.inl rfl, rfl, by decide, rfl, by decide⟩

/-- A right and a wrong checksum byte (R232). -/
theorem witness_ChecksumBytesAndVerdict :
    ((receiving .rCkB []).rckA = (receiving .rCkB []).ckA ∧ (0 : Byte) = (receiving .rCkB []).ckB) ∧
    ¬ ((receiving .rCkB []).rckA = (receiving .rCkB []).ckA ∧ (1 : Byte) = (receiving .rCkB []).ckB) := by decide

/-- A right and a wrong frame at the greatest plausible length, and the empty one. -/
theorem witness_ReceiverJudgesEveryFrame :
    ({ withAgenda [.wr .cmd 0x05] with maxPayload := 1 } : State).busy = false ∧
    [(0x07 : Byte)].length ≤ ({ withAgenda [.wr .cmd 0x05] with maxPayload := 1 } : State).maxPayload.toNat ∧
    ck2 (ubxBody 0 0 []) = (0, 0) ∧ ck2 (ubxBody 0x06 0x01 [0x07]) = (0x0F, 0x2C) ∧
    ck2 (ubxBody 0x06 0x01 [0x07]) ≠ (0x0F, 0x2B) := by decide

theorem witness_SeekPassesOverTheRest :
    HostWaits { receiving .rSeek ([.tick, .rx none, .rx (some 0x62)] ++ [.rx (some 0xB5)]) with timeout := 1 } ∧
    ([.tick, .rx none, .rx (some 0x62)] : List LineEvent).all quiet = true ∧
    (0 : Word).toNat + tickCount [.tick, .rx none, .rx (some 0x62)] ≤ (1 : Word).toNat :=
  ⟨.inl rfl, by decide, by decide⟩

theorem witness_OnlyAnAnswerEndsAReceive :
    HostWaits (receiving .rCkB (List.replicate 2 .tick)) ∧
    (receiving .rCkB (List.replicate 2 .tick)).opstate.isReceiver = true ∧ (receiving .rSeek []).line = [] :=
  ⟨.inl rfl, rfl, rfl⟩

theorem witness_TickCountsOnlyInAReceive :
    ({ busyIn .rSeek with agenda := [.tick], elapsed := 0xFFFFFFFF } : State).opstate.isReceiver = true ∧
    ({ busyIn .tBody with agenda := [.tick] } : State).opstate.isReceiver = false ∧
    HostWaits (receiving .rSeek [.tick]) ∧ HostWaits (receiving .eSync1 [.tick]) :=
  ⟨rfl, rfl, .inl rfl, .inl rfl⟩

theorem witness_WireFormsArriveByteByByte :
    (withAgenda [.arrive [0x00]]).agenda = .arrive [0x00] :: [] ∧ (withAgenda [.putDin []]).agenda = .putDin [] :: [] := by
  decide

/-- The hypotheses of FirstSymbolMustBeDollar, BodySymbols and SymbolRowsOfferASymbol: any symbol in either state. -/
theorem witness_symbols :
    (∀ y ∈ ([.ch 0x24, .ch 0x2A, .fs, .endMsg, .reserved] : List Symbol),
      BlockTurn (encoding .tFirst [y]) ∧ (encoding .tFirst [y]).sin = y :: [] ∧ (encoding .tFirst [y]).txReady = true ∧
      BlockTurn (encoding .tBody [y]) ∧ (encoding .tBody [y]).sin = y :: []) ∧
    (encoding .tFirst []).sin = [] ∧ ({ encoding .tBody [] with txReady := false } : State).txReady = false ∧
    Symbol.ch 0x2A ≠ .ch 0x24 :=
  ⟨fun y _ => ⟨encoding_turn .tFirst [y], rfl, rfl, encoding_turn .tBody [y], rfl⟩, rfl, rfl, by decide⟩

theorem witness_SentenceTail :
    ∀ o ∈ ([.tHexHi, .tHexLo, .tCr, .tLf] : List OpState),
      BlockTurn (busyIn o) ∧ (busyIn o).txReady = true ∧ (busyIn o).opstate = o :=
  fun o _ => ⟨busyIn_turn o, rfl, rfl⟩

theorem witness_NmeaencEmitsTheSentence :
    (withAgenda (sendText [0x24] [])).busy = false ∧ (withAgenda (sendText [0x24] [])).sin = [] ∧
    (withAgenda (sendText [0x24] [])).line = [] ∧ (withAgenda (sendText [0x24] [])).txReady = true := by decide

/-- The hypotheses of DecoderStartAndBody and DecoderDigitsAndVerdict: any byte in any state. -/
theorem witness_decoder_byte :
    (∀ o ∈ ([.nStart, .nBody, .nHex1, .nHex2, .nCr, .nLf] : List OpState),
      ∀ b ∈ ([0x24, 0x2C, 0x2A, 0x0D, 0x0A, 0x30, 0x46, 0x47] : List Byte),
      BlockTurn (decoding o [b]) ∧ (decoding o [b]).opstate = o ∧ (decoding o [b]).din = b :: [] ∧
      0 < (decoding o [b]).soutWanted ∧ (decoding o [b]).rxck = (decoding o [b]).xacc ∧
      ({ decoding o [b] with rxck := 1 } : State).rxck ≠ (decoding o [b]).xacc) ∧
    hexDigit 9 = 0x39 ∧ hexDigit 10 = 0x41 ∧ (∀ n : BitVec 4, (0x40 : Byte) ≠ hexDigit n) ∧
    (∀ n : BitVec 4, (0x61 : Byte) ≠ hexDigit n) ∧
    (0x2B : Byte) ∉ ([0x2C, 0x2A, 0x0D, 0x0A, 0x24] : List Byte) :=
  ⟨fun o _ b _ => ⟨decoding_turn o [b], rfl, rfl, Nat.one_pos, rfl, (by decide : (1 : Byte) ≠ 0)⟩, by decide, by decide, by decide, by decide, by decide⟩

/-- An idle block told to decode, the given bytes on `DIN` and a host ready for that many symbols. -/
def decoderAt (bs : List Byte) : State :=
  { withAgenda [.wr .cmd 0x07] with din := bs, soutWanted := bs.length }

/-- The cases of nmea_decode (R261): V-TD-06, a wrong digit, a wrong first byte, nothing yet and a prefix of a sentence; the
first three with a byte after them. -/
theorem witness_NmeadecComputesNmeaDecode :
    (∀ bs : List Byte, (decoderAt bs).busy = false ∧ (decoderAt bs).agenda = [.wr .cmd 0x07] ∧ (decoderAt bs).line = [] ∧
      (decoderAt bs).din = bs ∧ bs.length ≤ (decoderAt bs).soutWanted) ∧
    nmeaDecode [0x24, 0x2A, 0x30, 0x30, 0x0D, 0x0A, 0x07] = .ok ([[0x24]], [0x07]) ∧
    nmeaDecode [0x24, 0x2A, 0x30, 0x31, 0x0D, 0x0A, 0x07] = .error .checksum ∧
    (nmeaDecode [0x41, 0x07] = .error .format ∧ Viable [] ∧ ¬ Viable ([] ++ [0x41])) ∧
    (nmeaDecode [] = .error .format ∧ nmeaDecode [0x24, 0x2A] = .error .format ∧ Viable [0x24, 0x2A]) := by
  refine ⟨fun bs => ⟨rfl, rfl, rfl, rfl, Nat.le_refl _⟩, by decide, by decide, ⟨by decide, ?_, ?_⟩, by decide, by decide, ?_⟩
  · exact ⟨[0x24, 0x2A, 0x30, 0x30, 0x0D, 0x0A], by decide⟩
  · rintro ⟨more, h⟩; exact h rfl
  · exact ⟨[0x30, 0x30, 0x0D, 0x0A], by decide⟩

theorem witness_ResetEventAtAnyTime :
    ({ busyIn .rPay with agenda := [.rst] } : State).agenda = .rst :: [] ∧
    after (exec .resIdle (busyIn .rPay)) (fun _ => true) = some true := by decide

theorem witness_HostRegisterWrites :
    ({ busyIn .rSeek with agenda := [.wr .timeout 1] } : State).busy = true ∧
    (withAgenda [.wr .argLen 0x12345]).busy = false ∧ Reg.argLen ≠ .cmd ∧
    Reg.status ∉ ([.argClsid, .argLen, .argName, .timeout] : List Reg) := by decide

theorem witness_HostRegisterReads : (withAgenda [.rd .xout]).agenda = .rd .xout :: [] := by decide

/-- The hypotheses of each clause; a write is allowed in every state outside the frame encoder (log 13). -/
theorem witness_HostBufferAccesses :
    (withAgenda [.wrbuf 0x7FFF 1]).opstate.isUbxEncoder = false ∧
    (∀ o ∈ ([.rPay, .tBody, .nBody] : List OpState),
      ({ busyIn o with agenda := [.wrbuf 0 1] } : State).opstate.isUbxEncoder = false ∧
      ({ busyIn o with agenda := [.wrbuf 0 1] } : State).busy = true) ∧
    ({ busyIn .ePay with agenda := [.wrbuf 0 1] } : State).opstate.isUbxEncoder = true ∧
    (withAgenda [.rdbuf .txbuf 0]).txbuf.read 0 = none ∧
    ({ withAgenda [.rdbuf .txbuf 0] with txbuf := [(0, 1)] } : State).txbuf.read 0 = some 1 ∧
    ({ busyIn .rPay with agenda := [.rdbuf .rxbuf 0] } : State).opstate.isReceiver = true ∧
    ({ withAgenda [.rdbuf .rxbuf 0] with rxbuf := [(0, 1)] } : State).rxbuf.read 0 = some 1 := by decide

/-- A state that holds a received message, with one thing for the host to do. -/
def received (e : Event) : State :=
  { State.reset with
    msgCls := 0x06, msgId := 0x01, msgLen := 1, msgValid := true, rxbuf := [(0, 0x55)], result := 0x01, done := true,
    agenda := [e] }

theorem received_inv : Inv (received (.wr .cmd 0x05)) := by
  constructor <;> first | decide | (unfold WrittenBelow; decide)

theorem receiving_inv : Inv (receiving .rCkB [.rx (some 0)]) := by
  constructor <;> first | decide | (unfold WrittenBelow; decide)

theorem short_read_inv : Inv (receiving .rCkB [.rx none]) := by
  constructor <;> first | decide | (unfold WrittenBelow; decide)

theorem encoding_inv : Inv (encoding .tFirst [.ch 0x24]) := by
  constructor <;> first | decide | (unfold WrittenBelow; decide)

/-- The hypotheses of EveryStepKeepsTheInvariant, AReceivedMessageStays and NoAddressOutsideABuffer: an accepted UBXRECV, and
the step that receives a message. -/
theorem witness_AReceivedMessageStays :
    Inv (received (.wr .cmd 0x05)) ∧ (∃ t, step (received (.wr .cmd 0x05)) = .next t) ∧
    (received (.wr .cmd 0x05)).msgValid = true ∧ (∀ rest, (received (.wr .cmd 0x05)).agenda ≠ .rst :: rest) ∧
    Inv (receiving .rCkB [.rx (some 0)]) ∧ (∃ t, step (receiving .rCkB [.rx (some 0)]) = .next t ∧ t.msgValid = true) :=
  ⟨received_inv, ⟨_, rfl⟩, rfl, nofun, receiving_inv, ⟨_, rfl, rfl⟩⟩

theorem witness_OneOperationAtATime :
    Inv (encoding .tFirst [.ch 0x24]) ∧
    (∃ t, step (encoding .tFirst [.ch 0x24]) = .next t ∧ t.opstate ≠ .idle) ∧
    (encoding .tFirst [.ch 0x24]).busy = true :=
  ⟨encoding_inv, ⟨_, rfl, by decide⟩, rfl⟩

theorem witness_AReceiveEndsWithOneOfFiveResults :
    Inv (receiving .rCkB [.rx none]) ∧ (∃ t, step (receiving .rCkB [.rx none]) = .next t ∧ t.opstate = .idle) ∧
    (receiving .rCkB [.rx none]).opstate.isReceiver = true ∧
    ∀ rest, (receiving .rCkB [.rx none]).agenda ≠ .rst :: rest :=
  ⟨short_read_inv, ⟨_, rfl, rfl⟩, rfl, nofun⟩

/-- A step that emits a byte, and one that emits a symbol: the hypotheses of ParametersNeverChange, TxGrowsOnlyInAnEncode,
SoutGrowsOnlyInADecode and TransitionsLeaveTheRestAlone. -/
theorem witness_steps_that_emit :
    (∃ t, step (busyIn .eSync1) = .next t ∧ t.tx = [0xB5]) ∧
    (∃ t, blockMove (decoding .nStart [0x24]) = .next t ∧ t.sout = [.ch 0x24]) ∧
    (∃ t, blockMove (receiving .rCkB [.rx (some 0)]) = .next t ∧ t.msgValid = true) ∧
    (∃ t, blockMove (encoding .tBody [.fs]) = .next t ∧ t.xacc = 0x2C) ∧ blockMove State.reset = .next State.reset :=
  ⟨⟨_, rfl, rfl⟩, ⟨_, rfl, rfl⟩, ⟨_, rfl, rfl⟩, ⟨_, rfl, rfl⟩, rfl⟩

theorem witness_InstructionsLeaveTheRestAlone :
    Instr.ubxrecv ≠ .resIdle ∧ ∃ t, exec .ubxrecv State.reset = .next t ∧ t.opstate = .rSeek :=
  ⟨nofun, _, rfl, rfl⟩

theorem witness_DualSumDetectsChanges : (0x00 : Byte) ≠ 0x01 ∧ (0x7F : Byte) ≠ 0xFF := by decide

theorem witness_XorIgnoresTheOrder : [(1 : Byte), 2].Perm [2, 1] := List.Perm.swap 2 1 []

theorem witness_NamedEncodeLooksUpFirst :
    ((withAgenda [.call (.ubxencNamed 0x82 (List.replicate 32768 0))]).busy = false ∧
      32767 < (List.replicate 32768 (0 : Byte)).length) ∧
    (withAgenda [.call (.ubxencNamed 0x00 [])]).busy = false ∧ (withAgenda [.call (.ubxencNamed 0x00 [])]).opstate = .idle ∧
    (0x83 : Byte) ∉ ([0x00, 0x01, 0x02, 0x80, 0x81, 0x82] : List Byte) ∧
    (List.replicate 0 (0 : Byte)).length ≤ 32767 :=
  ⟨⟨rfl, by rw [List.length_replicate]; decide⟩, rfl, rfl, by decide, by decide⟩

theorem witness_DecodeOfAnEncodedMessage :
    ubxEncode 0 0 [] = .ok [0xB5, 0x62, 0, 0, 0, 0, 0, 0] ∧
    (withAgenda [.call (.ubxdecode [0xB5, 0x62, 0, 0, 0, 0, 0, 0])]).busy = false ∧
    ([] : List Byte).length ≤ (withAgenda [.call (.ubxdecode [0xB5, 0x62, 0, 0, 0, 0, 0, 0])]).maxPayload.toNat := by decide

end Sys2Proof.Tests
end

section
/-! What a step leaves unchanged. `Keeps` says it of one answer; each shared operation has one rule for it, and the proofs
about transitions, instructions and steps follow the shape of the definitions with these rules. -/

namespace Sys2Proof.Machine

section
variable {α : Type} {g : State → α} {s : State}

/-- If the answer is a next state, `g` shows the same of it as of `s`. -/
def Keeps (g : State → α) (s : State) (r : Result) : Prop := ∀ t, r = .next t → g t = g s

theorem keeps_next {t : State} (h : g t = g s) : Keeps g s (.next t) := by
  rintro _ ⟨⟩; exact h

theorem keeps_self : Keeps g s (.next s) := keeps_next rfl

theorem keeps_fault (r : Fault) : Keeps g s (.fault r) := by
  rintro _ ⟨⟩

theorem keeps_refused (r : Refusal) : Keeps g s (.refused r) := by
  rintro _ ⟨⟩

theorem keeps_of_eq {u : State} {r : Result} (h : g u = g s) (hr : Keeps g u r) : Keeps g s r :=
  fun t ht => (hr t ht).trans h

theorem keeps_ite {c : Prop} [Decidable c] {a b : Result} (ha : Keeps g s a) (hb : Keeps g s b) :
    Keeps g s (if c then a else b) := by
  split
  · exact ha
  · exact hb

theorem keeps_onCmd {f : State → Result} (h : Keeps g s (f (acceptCmd s))) : Keeps g s (onCmd f s) :=
  keeps_ite keeps_self h

theorem keeps_foldTxbuf {k : List Byte → State → State} (he : g (report .errPayloadTooLarge s) = g s)
    (hk : ∀ bs, g (report .resOk (k bs s)) = g s) : Keeps g s (foldTxbuf k s) := by
  intro t ht
  rcases foldTxbuf_next k s t ht with ⟨_, rfl⟩ | ⟨_, bs, _, rfl⟩
  · exact he
  · exact hk bs

theorem keeps_txStep {b : Byte} {f : State → State} (h : g (emitTx b (f s)) = g s) : Keeps g s (txStep b f s) :=
  keeps_ite (keeps_next h) keeps_self

theorem keeps_dinEmit {y : Symbol} {f : State → State} {taken : State} (h : g (emitSout y (f taken)) = g s) :
    Keeps g s (dinEmit y f taken s) :=
  keeps_ite (keeps_next h) keeps_self

theorem keeps_onDin {f : Byte → State → State → Result} (h : ∀ b rest, Keeps g s (f b { s with din := rest } s)) :
    Keeps g s (onDin f s) := by
  intro t ht
  rcases onDin_next f s t ht with ⟨_, rfl⟩ | ⟨b, rest, _, hb⟩
  · rfl
  · exact h b rest t hb

theorem keeps_onLine {f : Option Byte → State → Result}
    (htick : ∀ rest, g (tickEvent { s with line := rest }) = g s)
    (h : ∀ r rest, Keeps g s (f r { s with line := rest })) : Keeps g s (onLine f s) := by
  intro t ht
  rcases onLine_next f s t ht with ⟨_, rfl⟩ | ⟨rest, _, rfl⟩ | ⟨r, rest, _, hr⟩
  · rfl
  · exact htick rest
  · exact h r rest t hr

theorem keeps_midFrame {f : Byte → State → Result} {r : Option Byte} (hd : g (complete .resNoMessage s) = g s)
    (he : g (complete .errTransport s) = g s) (h : ∀ b, Keeps g s (f b s)) : Keeps g s (midFrame f r s) := by
  intro t ht
  rcases midFrame_next f r s t ht with ⟨_, rfl⟩ | ⟨_, _, rfl⟩ | ⟨_, b, _, hb⟩
  · exact hd
  · exact he
  · exact h b t hb

theorem keeps_hostWriteTxbuf {a : BitVec 15} {v : Byte} (h : g { s with txbuf := s.txbuf.write a.toNat v } = g s) :
    Keeps g s (hostWriteTxbuf a v s) :=
  keeps_ite (keeps_refused _) (keeps_next h)

theorem keeps_hostReadBuf {b : Buf} {a : BitVec 15} (h : ∀ l, g { s with seen := l } = g s) :
    Keeps g s (hostReadBuf b a s) := by
  intro t ht
  obtain ⟨_, v, _, rfl⟩ := hostReadBuf_next b a s t ht
  exact h _

theorem keeps_hostCopyMsg (h : ∀ l, g { s with seen := l } = g s) : Keeps g s (hostCopyMsg s) := by
  intro t ht
  obtain ⟨_, bs, _, rfl⟩ := hostCopyMsg_next s t ht
  exact h _

/-- A step of the block keeps what its transition keeps and what does not show the line. -/
theorem keeps_blockStep (hline : ∀ rest, g { s with line := rest } = g s) (h : Keeps g s (blockMove s)) :
    Keeps g s (blockStep s) := by
  rcases blockStep_cases s with hs | ⟨_, rest, _, hs⟩
  · rw [hs]; exact h
  · rw [hs]; exact keeps_next (hline rest)

/-- A step keeps what does not show the agenda, if the block, every instruction and every other item keep it. -/
theorem keeps_step (hagenda : ∀ rest, g { s with agenda := rest } = g s) (hblock : Keeps g s (blockStep s))
    (hexec : ∀ i u, Keeps g u (exec i u)) (hperform : ∀ e u, Keeps g u (perform e u)) : Keeps g s (step s) := by
  rcases step_cases s with hs | ⟨e, rest, i, _, _, hs⟩ | ⟨e, rest, _, _, _, hs⟩
  · rw [hs]; exact hblock
  · rw [hs]; exact keeps_of_eq (hagenda rest) (hexec i _)
  · rw [hs]; exact keeps_of_eq (hagenda rest) (hperform e _)

end

end Sys2Proof.Machine
end

section
/-! The two parameters in `CONFIG` (R9, R46) under every transition, instruction and step. -/

namespace Sys2Proof.Machine

/-- `MAX_PAYLOAD` and `CFG_FRAME_DEADLINE` (R9). -/
def params (s : State) : BitVec 15 × Bool := (s.maxPayload, s.frameDeadline)

@[simp] theorem params_tickEvent (s : State) : params (tickEvent s) = params s := by simp [params]

@[simp] theorem params_writeReg (r : Reg) (v : Word) (s : State) : params (writeReg r v s) = params s := by simp [params]

/-! ### The transitions of the block -/

theorem keeps_params_ePay (s : State) : Keeps params s (stepEPay s) := by
  refine keeps_ite (keeps_ite (keeps_fault _) ?_) keeps_self
  split
  · exact keeps_fault _
  · exact keeps_txStep rfl

/-- `R_SEEK`, whatever the answer (R216). -/
theorem keeps_params_seek (s : State) : Keeps params s (stepRSeek s) :=
  keeps_onLine (fun _ => params_tickEvent _) fun _ _ =>
    keeps_ite (keeps_next rfl) (keeps_ite (keeps_next rfl) (keeps_next rfl))

/-- A mid-frame state keeps the parameters if its own rule for a byte does (R234, R236). -/
theorem keeps_params_midFrame {f : Byte → State → Result} (h : ∀ b u, Keeps params u (f b u)) (s : State) :
    Keeps params s (onLine (midFrame f) s) :=
  keeps_onLine (fun _ => params_tickEvent _) fun _ _ =>
    keeps_of_eq rfl (keeps_midFrame rfl rfl fun b => h b _)

theorem keeps_params_tFirst (s : State) : Keeps params s (stepTFirst s) := by
  unfold stepTFirst
  split
  · exact keeps_self
  · exact keeps_ite (keeps_txStep rfl) (keeps_next rfl)

theorem keeps_params_tBody (s : State) : Keeps params s (stepTBody s) := by
  unfold stepTBody
  split
  · exact keeps_self
  · exact keeps_txStep rfl
  · exact keeps_txStep rfl
  · exact keeps_txStep rfl
  · exact keeps_next rfl

/-- The transition of every `OPSTATE` (R30, R31). -/
theorem keeps_params_blockMove (s : State) : Keeps params s (blockMove s) := by
  unfold blockMove
  cases s.opstate with
  | idle => exact keeps_self
  | eSync1 | eSync2 | eCls | eId | eLen0 | eLen1 | eCkA | eCkB => exact keeps_txStep rfl
  | ePay => exact keeps_params_ePay s
  | rSeek => exact keeps_params_seek s
  | rCls | rId | rLen0 | rCkA =>
    refine keeps_params_midFrame (fun _ _ => ?_) s
    exact keeps_next rfl
  | rSync2 | rCkB =>
    refine keeps_params_midFrame (fun _ _ => ?_) s
    exact keeps_ite (keeps_next rfl) (keeps_next rfl)
  | rLen1 =>
    refine keeps_params_midFrame (fun _ _ => ?_) s
    exact keeps_ite (keeps_next rfl) (keeps_ite (keeps_next rfl) (keeps_next rfl))
  | rPay =>
    refine keeps_params_midFrame (fun _ _ => ?_) s
    exact keeps_ite (keeps_fault _) (keeps_next rfl)
  | tFirst => exact keeps_params_tFirst s
  | tBody => exact keeps_params_tBody s
  | tHexHi | tHexLo | tCr | tLf => exact keeps_txStep rfl
  | nStart => exact keeps_onDin fun _ _ => keeps_ite (keeps_dinEmit rfl) (keeps_next rfl)
  | nBody =>
    exact keeps_onDin fun _ _ => keeps_ite (keeps_dinEmit rfl)
      (keeps_ite (keeps_next rfl) (keeps_ite (keeps_next rfl) (keeps_dinEmit rfl)))
  | nHex1 =>
    refine keeps_onDin fun b _ => ?_
    unfold dinHex1
    split <;> exact keeps_next rfl
  | nHex2 =>
    refine keeps_onDin fun b _ => ?_
    unfold dinHex2
    split <;> exact keeps_next rfl
  | nCr => exact keeps_onDin fun _ _ => keeps_ite (keeps_next rfl) (keeps_next rfl)
  | nLf =>
    exact keeps_onDin fun _ _ =>
      keeps_ite (keeps_ite (keeps_dinEmit rfl) (keeps_next rfl)) (keeps_next rfl)

theorem keeps_params_blockStep (s : State) : Keeps params s (blockStep s) :=
  keeps_blockStep (fun _ => rfl) (keeps_params_blockMove s)

/-! ### The instructions -/

theorem keeps_params_lookup (s : State) : Keeps params s (execLookup s) := by
  refine keeps_onCmd ?_
  unfold lookupEffect
  split <;> exact keeps_next rfl

/-- A name is a write to `ARG_NAME` and a `LOOKUP` (R112, R152; log 9). -/
theorem keeps_params_namedLookup (n : Byte) (s : State) : Keeps params s (namedLookup n s) :=
  keeps_of_eq (params_writeReg _ _ s) (keeps_params_lookup _)

/-- A symbol goes behind those that wait, and the encoder takes the first if it can (R74; log 10). -/
theorem keeps_params_offerSymbol (y : Symbol) (s : State) : Keeps params s (offerSymbol y s) := by
  refine keeps_of_eq (u := { s with sin := s.sin ++ [y] }) rfl ?_
  unfold offerSymbol takeSymbol
  split
  · exact keeps_params_tFirst _
  · exact keeps_params_tBody _
  · exact keeps_self

/-- Every row of the opcode table, `RES_IDLE` included: the event reset keeps the parameters (R51). -/
theorem keeps_params_exec (i : Instr) (s : State) : Keeps params s (exec i s) := by
  cases i with
  | ck2 | ckx => exact keeps_onCmd (keeps_of_eq rfl (keeps_foldTxbuf rfl fun _ => rfl))
  | lookup => exact keeps_params_lookup s
  | ubxenc => exact keeps_onCmd (keeps_ite (keeps_next rfl) (keeps_next rfl))
  | ubxrecv | nmeaenc | nmeadec | reservedCmd => exact keeps_onCmd (keeps_next rfl)
  | symCh | symFs | symEnd | symReserved => exact keeps_params_offerSymbol _ s
  | nameCfgMsg | nameCfgNav5 | nameCfgCfg | nameGll | nameRmc | nameGsv => exact keeps_params_namedLookup _ s
  | ubxFrame | nmeaSentence => exact keeps_next rfl
  | resIdle => exact keeps_next rfl
  | resOk | resNoMessage | errPayloadTooLarge | errUnknownMessageType | errFraming | errChecksumMismatch
  | errTransport | errTextFormat | errBadCommand => exact keeps_next rfl
  | ubxencNamed | pubxSetbaud | pubxSetrate | exchange | ubxdecode => exact keeps_next rfl

/-! ### The other items of the agenda, and the step -/

theorem keeps_params_perform (e : Event) (s : State) : Keeps params s (perform e s) := by
  cases e with
  | wr r v => exact keeps_next (params_writeReg r v s)
  | wrbuf => exact keeps_hostWriteTxbuf rfl
  | rdbuf => exact keeps_hostReadBuf fun _ => rfl
  | copyMsg => exact keeps_hostCopyMsg fun _ => rfl
  | putSin | call => exact keeps_params_exec _ s
  | name n => exact keeps_params_namedLookup n s
  | skipIf c n =>
    refine keeps_next ?_
    split <;> rfl
  | tick => exact keeps_next (params_tickEvent s)
  | rst => exact keeps_next rfl
  | go => exact keeps_params_blockStep s
  | rd | arrive | putDin | getSout | wait | answer | sink => exact keeps_next rfl

theorem keeps_params_step (s : State) : Keeps params s (step s) :=
  keeps_step (fun _ => rfl) (keeps_params_blockStep s) keeps_params_exec keeps_params_perform

end Sys2Proof.Machine

namespace Sys2Proof.Proofs

open Sys2Proof.Machine

/-- Settles O50: `params` is one of the views that every step keeps. -/
theorem parametersNeverChange : Obligations.ParametersNeverChange := by
  intro s t h
  exact Prod.mk.inj (keeps_params_step s t h)

end Sys2Proof.Proofs
end

section
/-! The event tick (R213), in closed form, from the agenda and from the line. -/

namespace Sys2Proof.Machine

/-- A 32-bit count that stops at its greatest value (R213), as a number. -/
theorem saturating_succ (w : Word) :
    (if w = 0xFFFFFFFF then w else w + 1) = BitVec.ofNat 32 (min (w.toNat + 1) 4294967295) := by
  have hw := w.isLt
  apply BitVec.eq_of_toNat_eq
  rw [BitVec.toNat_ofNat]
  split
  next h => subst h; rfl
  next h =>
    have hne : w.toNat ≠ 4294967295 := fun he => h (BitVec.eq_of_toNat_eq he)
    rw [BitVec.toNat_add, show (1 : Word).toNat = 1 from rfl]
    omega

theorem tickEvent_elapsed (s : State) (h : s.opstate.isReceiver = true) :
    tickEvent s = { s with elapsed := BitVec.ofNat 32 (min (s.elapsed.toNat + 1) 4294967295) } := by
  rw [tickEvent_receiver s h, saturating_succ]

/-- Every transition of the receiver takes the next thing on the line (R70, R213). -/
theorem blockMove_receiver (s : State) (h : s.opstate.isReceiver = true) : ∃ f, blockMove s = onLine f s := by
  unfold blockMove
  cases ho : s.opstate with
  | rSeek | rSync2 | rCls | rId | rLen0 | rLen1 | rPay | rCkA | rCkB => exact ⟨_, rfl⟩
  | idle | eSync1 | eSync2 | eCls | eId | eLen0 | eLen1 | ePay | eCkA | eCkB | tFirst | tBody | tHexHi | tHexLo | tCr
  | tLf | nStart | nBody | nHex1 | nHex2 | nCr | nLf => simp [ho, OpState.isReceiver] at h

/-- A tick at the head of the line takes the step of the block, in every `OPSTATE` (R213; log 16). -/
theorem blockStep_tick (s : State) (rest : List LineEvent) (h : s.line = .tick :: rest) :
    blockStep s = .next (tickEvent { s with line := rest }) := by
  cases hr : s.opstate.isReceiver with
  | true =>
    obtain ⟨f, hf⟩ := blockMove_receiver s hr
    rw [blockStep_receiver s hr, hf, onLine_tick f s rest h]
  | false => simp [blockStep, hr, h]

/-- A tick of the tick source. -/
theorem step_tick (s : State) (rest : List Event) (h : s.agenda = .tick :: rest) :
    step s = .next (tickEvent { s with agenda := rest }) :=
  step_performed s .tick rest h (by simp) rfl

end Sys2Proof.Machine

namespace Sys2Proof.Proofs

open Sys2Proof.Machine

/-- Settles O27: from either source the step is `tickEvent`, whose two cases are the two clauses. -/
theorem tickCountsOnlyInAReceive : Obligations.TickCountsOnlyInAReceive := by
  refine ⟨fun s rest ha => ?_, fun s rest hw hl => ?_⟩
  · rw [step_tick s rest ha]
    exact ⟨fun hr => congrArg _ (tickEvent_elapsed _ hr), fun hr => congrArg _ (tickEvent_idle _ hr)⟩
  · rw [step_hostWaits s hw, blockStep_tick s rest hl]
    exact ⟨fun hr => congrArg _ (tickEvent_elapsed _ hr), fun hr => congrArg _ (tickEvent_idle _ hr)⟩

end Sys2Proof.Proofs
end

section
/-! The outcome rows (R300, R316) and the state after reset (R51). -/

namespace Sys2Proof.Machine

/-- The row of the opcode table an outcome is (R300). -/
def outcomeRow : ResultCode → Instr
  | .resIdle => .resIdle
  | .resOk => .resOk
  | .resNoMessage => .resNoMessage
  | .errPayloadTooLarge => .errPayloadTooLarge
  | .errUnknownMessageType => .errUnknownMessageType
  | .errFraming => .errFraming
  | .errChecksumMismatch => .errChecksumMismatch
  | .errTransport => .errTransport
  | .errTextFormat => .errTextFormat
  | .errBadCommand => .errBadCommand

/-- The row of every outcome but `RES_IDLE` raises it (R14, R316; log 8). -/
theorem exec_outcomeRow (c : ResultCode) (s : State) (h : c ≠ .resIdle) :
    exec (outcomeRow c) s = .next (complete c s) := by
  cases c with
  | resIdle => exact absurd rfl h
  | resOk | resNoMessage | errPayloadTooLarge | errUnknownMessageType | errFraming | errChecksumMismatch
  | errTransport | errTextFormat | errBadCommand => rfl

/-- Bit 4 of a code marks an error (R300). -/
theorem resultCode_bit4_iff (c : ResultCode) :
    (resultCode c).getLsbD 4 = true ↔ c ≠ .resIdle ∧ c ≠ .resOk ∧ c ≠ .resNoMessage := by
  cases c <;> decide

/-- `CONFIG` shows the parameters and nothing else (R46). -/
theorem readReg_config_of_params {s t : State} (h : params t = params s) : readReg .config t = readReg .config s := by
  obtain ⟨hm, hf⟩ := Prod.mk.inj h
  simp only [readReg, hm, hf]

end Sys2Proof.Machine

namespace Sys2Proof.Proofs

open Sys2Proof.Machine

/-- Settles O38: each listed pair is the row and the code of one outcome, and the row is `complete` of it. -/
theorem outcomesCompleteTheOperation : Obligations.OutcomesCompleteTheOperation := by
  refine ⟨fun s i code hmem => ?_, resultCode_bit4_iff⟩
  change (i, code) ∈ ([.resOk, .resNoMessage, .errPayloadTooLarge, .errUnknownMessageType, .errFraming,
    .errChecksumMismatch, .errTransport, .errTextFormat, .errBadCommand] : List ResultCode).map
      fun c => (outcomeRow c, resultCode c) at hmem
  obtain ⟨c, hc, hpair⟩ := List.mem_map.mp hmem
  obtain ⟨rfl, rfl⟩ := Prod.mk.inj hpair
  exact exec_outcomeRow c s (by rintro rfl; simp at hc)

/-- Settles O40: the fixed values of `State.reset`, its empty buffers, and the parameters kept by the event reset. -/
theorem resetState : Obligations.ResetState := by
  have hparams : ∀ s t : State, exec .resIdle s = .next t →
      readReg .config t = readReg .config s ∧ t.maxPayload = s.maxPayload ∧ t.frameDeadline = s.frameDeadline := by
    intro s t h
    have hp : params t = params s := keeps_params_exec .resIdle s t h
    exact ⟨readReg_config_of_params hp, Prod.mk.inj hp⟩
  exact ⟨rfl, rfl, rfl, rfl, rfl, rfl, rfl, rfl, rfl, rfl, rfl, rfl, rfl, rfl, rfl, rfl, rfl, rfl, rfl, rfl, rfl, rfl,
    rfl, rfl, rfl, fun _ => ⟨rfl, rfl⟩, hparams⟩

end Sys2Proof.Proofs
end

section
/-! Host writes to the registers (R34, R46). -/

namespace Sys2Proof.Machine

/-- A write to a register other than `CMD` is performed by `writeReg` (R34, R35). -/
theorem step_wr (s : State) (r : Reg) (v : Word) (rest : List Event) (h : s.agenda = .wr r v :: rest) (hr : r ≠ .cmd) :
    step s = .next (writeReg r v { s with agenda := rest }) := by
  have hfetch : fetch (.wr r v) = none := by
    cases r with
    | cmd => exact absurd rfl hr
    | status | result | argClsid | argLen | argName | timeout | elapsed | msgClsid | msgLen | ckout | rckout | xout
    | config => rfl
  exact step_performed s (.wr r v) rest h (by simp) hfetch

/-- While `BUSY = 1` a write is ignored (R46). -/
theorem writeReg_of_busy (r : Reg) (v : Word) (s : State) (h : s.busy = true) : writeReg r v s = s := by
  simp [writeReg, h]

section
variable (v : Word) (s : State) (h : s.busy = false)
include h

/-- While `BUSY = 0` each writable register takes the value cut to its width (R12, R38, R39, R41, R42). -/
theorem writeReg_argClsid_of_idle : writeReg .argClsid v s = { s with argClsid := v.setWidth 16 } := by
  simp [writeReg, h]

theorem writeReg_argLen_of_idle : writeReg .argLen v s = { s with argLen := v.setWidth 16 } := by
  simp [writeReg, h]

theorem writeReg_argName_of_idle : writeReg .argName v s = { s with argName := v.setWidth 8 } := by
  simp [writeReg, h]

theorem writeReg_timeout_of_idle : writeReg .timeout v s = { s with timeout := v } := by
  simp [writeReg, h]

end

/-- A register that is not writable ignores a write at any time (R46). -/
theorem writeReg_of_readOnly (r : Reg) (v : Word) (s : State) (h : r ∉ [.argClsid, .argLen, .argName, .timeout]) :
    writeReg r v s = s := by
  unfold writeReg
  split
  · rfl
  · cases r with
    | argClsid | argLen | argName | timeout => simp at h
    | cmd | status | result | elapsed | msgClsid | msgLen | ckout | rckout | xout | config => rfl

end Sys2Proof.Machine

namespace Sys2Proof.Proofs

open Sys2Proof.Machine

/-- Settles O41: the step is `writeReg`, register by register. -/
theorem hostRegisterWrites : Obligations.HostRegisterWrites := by
  intro s r v rest ha hr
  rw [step_wr s r v rest ha hr, ← BitVec.setWidth_eq_extractLsb' (by decide),
    ← BitVec.setWidth_eq_extractLsb' (by decide)]
  refine ⟨fun hb => congrArg _ (writeReg_of_busy r v _ hb), fun hb => ⟨?_, ?_, ?_, ?_, fun hro => ?_⟩⟩
  · rintro rfl
    exact congrArg _ (writeReg_argClsid_of_idle v _ hb)
  · rintro rfl
    exact congrArg _ (writeReg_argLen_of_idle v _ hb)
  · rintro rfl
    exact congrArg _ (writeReg_argName_of_idle v _ hb)
  · rintro rfl
    exact congrArg _ (writeReg_timeout_of_idle v _ hb)
  · exact congrArg _ (writeReg_of_readOnly r v _ hro)

end Sys2Proof.Proofs
end

section
/-! What an operation can answer. `Answers P F` asks `P` of the next state and `F` of the fault, and each shared operation
has one rule for it. It is what `Keeps` says, for any relation to the state before and with the faults included. -/

namespace Sys2Proof.Machine

/-- A next state has `P`, a fault has `F`. -/
def Answers (P : State → Prop) (F : Fault → Prop) : Result → Prop
  | .next t => P t
  | .fault f => F f
  | .refused _ => True

/-- Nothing is asked of a fault. -/
def anyFault (_ : Fault) : Prop := True

section
variable {P : State → Prop} {F : Fault → Prop} {s : State}

theorem Answers.of_next {r : Result} {t : State} (h : Answers P F r) (hr : r = .next t) : P t := by
  subst hr; exact h

theorem Answers.of_fault {r : Result} {f : Fault} (h : Answers P F r) (hr : r = .fault f) : F f := by
  subst hr; exact h

theorem Answers.mono {Q : State → Prop} {r : Result} (h : Answers P F r) (hpq : ∀ t, P t → Q t) : Answers Q F r := by
  cases r with
  | next t => exact hpq t h
  | fault f => exact h
  | refused => trivial

theorem answers_ite {c : Prop} [Decidable c] {a b : Result} (ha : c → Answers P F a) (hb : ¬ c → Answers P F b) :
    Answers P F (if c then a else b) := by
  split
  next h => exact ha h
  next h => exact hb h

/-! ### Commands -/

theorem answers_onCmd {f : State → Result} (hbusy : P s) (h : s.busy = false → Answers P F (f (acceptCmd s))) :
    Answers P F (onCmd f s) :=
  answers_ite (fun _ => hbusy) fun hb => h (by simpa using hb)

theorem answers_foldTxbuf {k : List Byte → State → State} (hlarge : P (report .errPayloadTooLarge s))
    (hfault : ∀ a, F (.unwrittenByte .txbuf a)) (hk : ∀ bs, P (report .resOk (k bs s))) :
    Answers P F (foldTxbuf k s) := by
  refine answers_ite (fun _ => hlarge) fun _ => ?_
  split
  next a _ => exact hfault a
  next bs _ => exact hk bs

theorem answers_lookup (hknown : ∀ c i, P (report .resOk { s with argClsid := packHalf c i }))
    (hunknown : P (report .errUnknownMessageType s)) : Answers P F (lookupEffect s) := by
  unfold lookupEffect
  split
  next c i _ => exact hknown c i
  next => exact hunknown

/-! ### Transitions -/

theorem answers_txStep {b : Byte} {f : State → State} (hwait : P s) (h : P (emitTx b (f s))) :
    Answers P F (txStep b f s) :=
  answers_ite (fun _ => h) fun _ => hwait

theorem answers_dinEmit {y : Symbol} {f : State → State} {taken : State} (hwait : P s) (h : P (emitSout y (f taken))) :
    Answers P F (dinEmit y f taken s) :=
  answers_ite (fun _ => h) fun _ => hwait

theorem answers_onDin {f : Byte → State → State → Result} (hwait : P s)
    (h : ∀ b rest, Answers P F (f b { s with din := rest } s)) : Answers P F (onDin f s) := by
  unfold onDin
  split
  · exact hwait
  · exact h _ _

theorem answers_onLine {f : Option Byte → State → Result} (hwait : P s)
    (htick : ∀ rest, P (tickEvent { s with line := rest })) (h : ∀ r rest, Answers P F (f r { s with line := rest })) :
    Answers P F (onLine f s) := by
  unfold onLine
  split
  · exact hwait
  · exact htick _
  · exact h _ _

theorem answers_midFrame {f : Byte → State → Result} {r : Option Byte} (hdeadline : P (complete .resNoMessage s))
    (hshort : P (complete .errTransport s)) (h : ∀ b, Answers P F (f b s)) : Answers P F (midFrame f r s) := by
  refine answers_ite (fun _ => hdeadline) fun _ => ?_
  cases r with
  | none => exact hshort
  | some b => exact h b

theorem answers_ePay (hwait : P s) (houtside : Config.lenMax < s.cnt.toNat → F (.outsideBuffer .txbuf s.cnt.toNat))
    (hfault : F (.unwrittenByte .txbuf s.cnt.toNat)) (h : ∀ x, P (emitTx x (ePayEffect x s))) :
    Answers P F (stepEPay s) := by
  refine answers_ite (fun _ => answers_ite houtside fun _ => ?_) fun _ => hwait
  split
  · exact hfault
  · exact answers_txStep hwait (h _)

theorem answers_tFirst (hwait : P s)
    (hdollar : ∀ rest, P (emitTx Config.dollar (goTo .tBody { s with sin := rest })))
    (hother : ∀ rest, P (complete .errTextFormat { s with sin := rest })) : Answers P F (stepTFirst s) := by
  unfold stepTFirst
  split
  · exact hwait
  · exact answers_ite (fun _ => answers_txStep hwait (hdollar _)) fun _ => hother _

/-- A character and a field separator are the same to the encoder: a byte that is emitted and folded (R188). -/
theorem answers_tBody (hwait : P s) (hfold : ∀ b rest, P (emitTx b (foldXacc b { s with sin := rest })))
    (hend : ∀ rest, P (emitTx Config.star (goTo .tHexHi { s with sin := rest })))
    (hreserved : ∀ rest, P (complete .errTextFormat { s with sin := rest })) : Answers P F (stepTBody s) := by
  unfold stepTBody
  split
  · exact hwait
  · exact answers_txStep hwait (hfold _ _)
  · exact answers_txStep hwait (hfold _ _)
  · exact answers_txStep hwait (hend _)
  · exact hreserved _

/-! ### The host, and the step -/

theorem answers_hostWriteTxbuf {a : BitVec 15} {v : Byte} (h : P { s with txbuf := s.txbuf.write a.toNat v }) :
    Answers P F (hostWriteTxbuf a v s) :=
  answers_ite (fun _ => trivial) fun _ => h

theorem answers_hostReadBuf {b : Buf} {a : BitVec 15} (hfault : ∀ b a, F (.unwrittenByte b a))
    (h : ∀ l, P { s with seen := l }) : Answers P F (hostReadBuf b a s) := by
  refine answers_ite (fun _ => trivial) fun _ => ?_
  split
  · exact hfault _ _
  · exact h _

theorem answers_hostCopyMsg (hfault : ∀ b a, F (.unwrittenByte b a)) (h : ∀ l, P { s with seen := l }) :
    Answers P F (hostCopyMsg s) := by
  refine answers_ite (fun _ => trivial) fun _ => ?_
  split
  · exact hfault _ _
  · exact h _

theorem answers_blockStep (hline : ∀ rest, P { s with line := rest }) (h : Answers P F (blockMove s)) :
    Answers P F (blockStep s) := by
  rcases blockStep_cases s with hs | ⟨_, rest, _, hs⟩
  · rw [hs]; exact h
  · rw [hs]; exact hline rest

theorem answers_step (hblock : Answers P F (blockStep s))
    (hexec : ∀ e rest i, s.agenda = e :: rest → fetch e = some i → Answers P F (exec i { s with agenda := rest }))
    (hperform : ∀ e rest, s.agenda = e :: rest → fetch e = none → Answers P F (perform e { s with agenda := rest })) :
    Answers P F (step s) := by
  rcases step_cases s with hs | ⟨e, rest, i, ha, hf, hs⟩ | ⟨e, rest, ha, hf, _, hs⟩
  · rw [hs]; exact hblock
  · rw [hs]; exact hexec e rest i ha hf
  · rw [hs]; exact hperform e rest ha hf

end

end Sys2Proof.Machine
end

section
/-! The units of the block (R30) and what a transition of each may write. A transition's frame is an equation: the next
state is the old one with the written fields of the next state in it. -/

namespace Sys2Proof.Machine

/-- The four units that have states of their own (R30). -/
inductive BlockUnit where
  | frameEncoder | receiver | textEncoder | textDecoder

/-- The unit a value of `OPSTATE` belongs to; none for `IDLE` (R30). -/
def OpState.unit : OpState → Option BlockUnit
  | .idle => none
  | .eSync1 | .eSync2 | .eCls | .eId | .eLen0 | .eLen1 | .ePay | .eCkA | .eCkB => some .frameEncoder
  | .rSeek | .rSync2 | .rCls | .rId | .rLen0 | .rLen1 | .rPay | .rCkA | .rCkB => some .receiver
  | .tFirst | .tBody | .tHexHi | .tHexLo | .tCr | .tLf => some .textEncoder
  | .nStart | .nBody | .nHex1 | .nHex2 | .nCr | .nLf => some .textDecoder

theorem unit_eq_none_iff (o : OpState) : o.unit = none ↔ o = .idle := by
  cases o <;> simp [OpState.unit]

theorem isReceiver_iff_unit (o : OpState) : o.isReceiver = true ↔ o.unit = some .receiver := by
  cases o <;> simp [OpState.isReceiver, OpState.unit]

theorem isUbxEncoder_iff_unit (o : OpState) : o.isUbxEncoder = true ↔ o.unit = some .frameEncoder := by
  cases o <;> simp [OpState.isUbxEncoder, OpState.unit]

theorem mem_textEncoder_iff_unit (o : OpState) :
    o ∈ [.tFirst, .tBody, .tHexHi, .tHexLo, .tCr, .tLf] ↔ o.unit = some .textEncoder := by
  cases o <;> simp [OpState.unit]

theorem mem_textDecoder_iff_unit (o : OpState) :
    o ∈ [.nStart, .nBody, .nHex1, .nHex2, .nCr, .nLf] ↔ o.unit = some .textDecoder := by
  cases o <;> simp [OpState.unit]

/-- The operation goes on in the same unit, or the block is idle (R40). -/
def StaysInUnit (s t : State) : Prop := t.opstate.unit = s.opstate.unit ∨ t.opstate.unit = none

/-- A transition of the frame encoder (R156 to R165). -/
def FrameEncoderWrites (s t : State) : Prop :=
  t = { s with
    opstate := t.opstate, busy := t.busy, done := t.done, result := t.result, ckA := t.ckA, ckB := t.ckB, cnt := t.cnt,
    tx := t.tx }

/-- A transition of the sentence encoder (R182 to R193). -/
def TextEncoderWrites (s t : State) : Prop :=
  t = { s with
    opstate := t.opstate, busy := t.busy, done := t.done, result := t.result, xacc := t.xacc, sin := t.sin, tx := t.tx }

/-- A transition of the sentence decoder (R262 to R274). -/
def TextDecoderWrites (s t : State) : Prop :=
  t = { s with
    opstate := t.opstate, busy := t.busy, done := t.done, result := t.result, xacc := t.xacc, rxck := t.rxck,
    din := t.din, sout := t.sout, soutWanted := t.soutWanted }

/-- The registers that tell the received message (R28). -/
def msgRegs (s : State) : Byte × Byte × Half := (s.msgCls, s.msgId, s.msgLen)

/-- A transition of the receiver (R216 to R236): RXBUF only at `CNT` in `R_PAY`, `MSG_*` only in the step from `R_CKB` that
ends the receive with `RES_OK`. -/
structure ReceiverWrites (s t : State) : Prop where
  written : t = { s with
    opstate := t.opstate, busy := t.busy, done := t.done, result := t.result, ckA := t.ckA, ckB := t.ckB, cls := t.cls,
    id := t.id, len := t.len, cnt := t.cnt, rckA := t.rckA, rckB := t.rckB, msgCls := t.msgCls, msgId := t.msgId,
    msgLen := t.msgLen, msgValid := t.msgValid, feSync2 := t.feSync2, elapsed := t.elapsed, line := t.line,
    rxbuf := t.rxbuf }
  payload : t.rxbuf = s.rxbuf ∨ s.opstate = .rPay ∧ ∃ b, t.rxbuf = s.rxbuf.write s.cnt.toNat b
  message : msgRegs t = msgRegs s ∨
    s.opstate = .rCkB ∧ t.opstate = .idle ∧ t.result = resultCode .resOk ∧ t.msgValid = true ∧
      msgRegs t = (s.cls, s.id, s.len)

/-- What a transition of the current unit may write; in `IDLE` nothing (R31, R342). -/
def UnitWrites (s t : State) : Prop :=
  match s.opstate.unit with
  | none => t = s
  | some .frameEncoder => FrameEncoderWrites s t
  | some .receiver => ReceiverWrites s t
  | some .textEncoder => TextEncoderWrites s t
  | some .textDecoder => TextDecoderWrites s t

theorem unit_ite {c : Prop} [Decidable c] {a b : OpState} {u : Option BlockUnit} (ha : a.unit = u) (hb : b.unit = u) :
    (if c then a else b).unit = u := by
  split
  · exact ha
  · exact hb

theorem staysInUnit_of_eq {s t : State} {u : Option BlockUnit} (hs : s.opstate.unit = u) (ht : t.opstate.unit = u) :
    StaysInUnit s t :=
  .inl (ht.trans hs.symm)

section
variable {s : State}

theorem frameEncoder_writes (hu : s.opstate.unit = some .frameEncoder) :
    Answers (fun t => StaysInUnit s t ∧ FrameEncoderWrites s t) anyFault (blockMove s) := by
  have hwait : StaysInUnit s s ∧ FrameEncoderWrites s s := ⟨.inl rfl, rfl⟩
  unfold blockMove
  cases ho : s.opstate with
  | eSync1 | eSync2 | eCls | eId | eLen0 | eCkA => exact answers_txStep hwait ⟨.inl hu.symm, rfl⟩
  | eLen1 => exact answers_txStep hwait ⟨staysInUnit_of_eq hu (unit_ite rfl rfl), rfl⟩
  | ePay =>
    exact answers_ePay hwait (fun _ => trivial) trivial fun _ => ⟨staysInUnit_of_eq hu (unit_ite rfl rfl), rfl⟩
  | eCkB => exact answers_txStep hwait ⟨.inr rfl, rfl⟩
  | _ => simp [ho, OpState.unit] at hu

theorem tFirst_writes (hu : s.opstate.unit = some .textEncoder) :
    Answers (fun t => StaysInUnit s t ∧ TextEncoderWrites s t) anyFault (stepTFirst s) :=
  answers_tFirst ⟨.inl rfl, rfl⟩ (fun _ => ⟨.inl hu.symm, rfl⟩) fun _ => ⟨.inr rfl, rfl⟩

theorem tBody_writes (hu : s.opstate.unit = some .textEncoder) :
    Answers (fun t => StaysInUnit s t ∧ TextEncoderWrites s t) anyFault (stepTBody s) :=
  answers_tBody ⟨.inl rfl, rfl⟩ (fun _ _ => ⟨.inl rfl, rfl⟩) (fun _ => ⟨.inl hu.symm, rfl⟩) fun _ => ⟨.inr rfl, rfl⟩

theorem textEncoder_writes (hu : s.opstate.unit = some .textEncoder) :
    Answers (fun t => StaysInUnit s t ∧ TextEncoderWrites s t) anyFault (blockMove s) := by
  have hwait : StaysInUnit s s ∧ TextEncoderWrites s s := ⟨.inl rfl, rfl⟩
  unfold blockMove
  cases ho : s.opstate with
  | tFirst => exact tFirst_writes hu
  | tBody => exact tBody_writes hu
  | tHexHi | tHexLo | tCr => exact answers_txStep hwait ⟨.inl hu.symm, rfl⟩
  | tLf => exact answers_txStep hwait ⟨.inr rfl, rfl⟩
  | _ => simp [ho, OpState.unit] at hu

theorem textDecoder_writes (hu : s.opstate.unit = some .textDecoder) :
    Answers (fun t => StaysInUnit s t ∧ TextDecoderWrites s t) anyFault (blockMove s) := by
  have hwait : StaysInUnit s s ∧ TextDecoderWrites s s := ⟨.inl rfl, rfl⟩
  unfold blockMove
  cases ho : s.opstate with
  | nStart =>
    exact answers_onDin hwait fun _ _ => answers_ite (fun _ => answers_dinEmit hwait ⟨.inl hu.symm, rfl⟩) fun _ =>
      ⟨.inr rfl, rfl⟩
  | nBody =>
    exact answers_onDin hwait fun _ _ => answers_ite (fun _ => answers_dinEmit hwait ⟨.inl rfl, rfl⟩) fun _ =>
      answers_ite (fun _ => ⟨.inl hu.symm, rfl⟩) fun _ =>
      answers_ite (fun _ => ⟨.inr rfl, rfl⟩) fun _ => answers_dinEmit hwait ⟨.inl rfl, rfl⟩
  | nHex1 =>
    refine answers_onDin hwait fun _ _ => ?_
    unfold dinHex1
    split
    · exact ⟨.inl hu.symm, rfl⟩
    · exact ⟨.inr rfl, rfl⟩
  | nHex2 =>
    refine answers_onDin hwait fun _ _ => ?_
    unfold dinHex2
    split
    · exact ⟨.inl hu.symm, rfl⟩
    · exact ⟨.inr rfl, rfl⟩
  | nCr =>
    exact answers_onDin hwait fun _ _ => answers_ite (fun _ => ⟨.inl hu.symm, rfl⟩) fun _ => ⟨.inr rfl, rfl⟩
  | nLf =>
    exact answers_onDin hwait fun _ _ => answers_ite
      (fun _ => answers_ite (fun _ => answers_dinEmit hwait ⟨.inr rfl, rfl⟩) fun _ => ⟨.inr rfl, rfl⟩) fun _ =>
      ⟨.inr rfl, rfl⟩
  | _ => simp [ho, OpState.unit] at hu

/-- What the receiver's transitions share: the line, the ticks and the answers (R70, R213, R240). -/
theorem onLine_writes {f : Option Byte → State → Result} (hu : s.opstate.unit = some .receiver)
    (h : ∀ r rest, Answers (fun t => StaysInUnit s t ∧ ReceiverWrites s t) anyFault (f r { s with line := rest })) :
    Answers (fun t => StaysInUnit s t ∧ ReceiverWrites s t) anyFault (onLine f s) := by
  refine answers_onLine ⟨.inl rfl, rfl, .inl rfl, .inl rfl⟩ (fun rest => ?_) h
  rw [tickEvent_receiver { s with line := rest } ((isReceiver_iff_unit _).mpr hu)]
  exact ⟨.inl rfl, rfl, .inl rfl, .inl rfl⟩

/-- What the mid-frame states share: both common tests end the receive (R234, R236). -/
theorem onLine_midFrame_writes {f : Byte → State → Result} (hu : s.opstate.unit = some .receiver)
    (h : ∀ b rest, Answers (fun t => StaysInUnit s t ∧ ReceiverWrites s t) anyFault (f b { s with line := rest })) :
    Answers (fun t => StaysInUnit s t ∧ ReceiverWrites s t) anyFault (onLine (midFrame f) s) :=
  onLine_writes hu fun _ rest =>
    answers_midFrame ⟨.inr rfl, rfl, .inl rfl, .inl rfl⟩ ⟨.inr rfl, rfl, .inl rfl, .inl rfl⟩ fun b => h b rest

theorem receiver_writes (hu : s.opstate.unit = some .receiver) :
    Answers (fun t => StaysInUnit s t ∧ ReceiverWrites s t) anyFault (blockMove s) := by
  unfold blockMove
  cases ho : s.opstate with
  | rSeek =>
    exact onLine_writes hu fun _ _ => answers_ite (fun _ => ⟨.inr rfl, rfl, .inl rfl, .inl rfl⟩) fun _ =>
      answers_ite (fun _ => ⟨.inl hu.symm, rfl, .inl rfl, .inl rfl⟩) fun _ => ⟨.inl rfl, rfl, .inl rfl, .inl rfl⟩
  | rSync2 =>
    exact onLine_midFrame_writes hu fun _ _ => answers_ite (fun _ => ⟨.inl hu.symm, rfl, .inl rfl, .inl rfl⟩) fun _ =>
      ⟨.inl hu.symm, rfl, .inl rfl, .inl rfl⟩
  | rCls | rId | rLen0 | rCkA => exact onLine_midFrame_writes hu fun _ _ => ⟨.inl hu.symm, rfl, .inl rfl, .inl rfl⟩
  | rLen1 =>
    exact onLine_midFrame_writes hu fun _ _ => answers_ite (fun _ => ⟨.inr rfl, rfl, .inl rfl, .inl rfl⟩) fun _ =>
      answers_ite (fun _ => ⟨.inl hu.symm, rfl, .inl rfl, .inl rfl⟩) fun _ =>
      ⟨.inl hu.symm, rfl, .inl rfl, .inl rfl⟩
  | rPay =>
    exact onLine_midFrame_writes hu fun b _ => answers_ite (fun _ => trivial) fun _ =>
      ⟨staysInUnit_of_eq hu (unit_ite rfl rfl), rfl, .inr ⟨ho, b, rfl⟩, .inl rfl⟩
  | rCkB =>
    exact onLine_midFrame_writes hu fun _ _ =>
      answers_ite (fun _ => ⟨.inr rfl, rfl, .inl rfl, .inr ⟨ho, rfl, rfl, rfl, rfl⟩⟩) fun _ =>
      ⟨.inr rfl, rfl, .inl rfl, .inl rfl⟩
  | _ => simp [ho, OpState.unit] at hu

/-- Every transition writes what its unit may write, and goes on in its unit or ends the operation (R30, R31). -/
theorem blockMove_writes : Answers (fun t => StaysInUnit s t ∧ UnitWrites s t) anyFault (blockMove s) := by
  unfold UnitWrites
  cases hu : s.opstate.unit with
  | none =>
    have ho : s.opstate = .idle := (unit_eq_none_iff _).mp hu
    unfold blockMove
    rw [ho]
    exact ⟨.inl rfl, rfl⟩
  | some u =>
    cases u with
    | frameEncoder => exact frameEncoder_writes hu
    | receiver => exact receiver_writes hu
    | textEncoder => exact textEncoder_writes hu
    | textDecoder => exact textDecoder_writes hu

end

end Sys2Proof.Machine

namespace Sys2Proof.Proofs

open Sys2Proof.Machine

/-- Settles O53: the frame of the running unit, read off clause by clause. -/
theorem transitionsLeaveTheRestAlone : Obligations.TransitionsLeaveTheRestAlone := by
  intro s t h
  obtain ⟨-, hw⟩ := (blockMove_writes (s := s)).of_next h
  simp only [mem_textEncoder_iff_unit, mem_textDecoder_iff_unit, isReceiver_iff_unit, isUbxEncoder_iff_unit,
    ← Bool.not_eq_true, ← unit_eq_none_iff]
  unfold UnitWrites at hw
  split at hw
  next hu =>
    subst hw
    simp [hu]
  next hu =>
    rw [show t = _ from hw]
    simp [hu]
  next hu =>
    have hbuf : ∀ a, a ≠ s.cnt.toNat ∨ s.opstate ≠ .rPay → t.rxbuf.read a = s.rxbuf.read a := by
      intro a ha
      rcases hw.payload with he | ⟨ho, b, he⟩
      · rw [he]
      · rw [he, Memory.read_write_other _ _ _ _ (ha.resolve_right (not_not_intro ho))]
    rw [hw.written]
    simpa [hu] using hbuf
  next hu =>
    rw [show t = _ from hw]
    simp [hu]
  next hu =>
    rw [show t = _ from hw]
    simp [hu]

end Sys2Proof.Proofs
end

section
/-! What an instruction may write in the step it is executed in, row by row, in the form of `UnitWrites`. -/

namespace Sys2Proof.Machine

/-- A `NAME` row: `ARG_NAME`, and what `LOOKUP` writes (R112, R152; log 9). -/
def NameWrites (s t : State) : Prop :=
  t = { s with argName := t.argName, argClsid := t.argClsid, done := t.done, result := t.result }

/-- An outcome but `RES_IDLE` (R14, R316). -/
def OutcomeWrites (s t : State) : Prop :=
  t = { s with opstate := t.opstate, busy := t.busy, done := t.done, result := t.result }

/-- A pseudo-operation: the agenda, and for `UBXDECODE` the line (R119, R244). -/
def PseudoWrites (s t : State) : Prop := t = { s with agenda := t.agenda, line := t.line }

/-- What a row may write; `RES_IDLE` writes everything. A symbol goes behind those that wait and the sentence encoder may
take the first of them, so a symbol row writes what that unit does (R74; log 10). -/
def RowWrites (i : Instr) (s t : State) : Prop :=
  match i with
  | .ck2 => t = { s with done := t.done, result := t.result, ckA := t.ckA, ckB := t.ckB }
  | .ckx => t = { s with done := t.done, result := t.result, xacc := t.xacc }
  | .lookup => t = { s with done := t.done, result := t.result, argClsid := t.argClsid }
  | .ubxenc =>
    t = { s with
      opstate := t.opstate, busy := t.busy, done := t.done, result := t.result, cls := t.cls, id := t.id, len := t.len,
      ckA := t.ckA, ckB := t.ckB, cnt := t.cnt }
  | .ubxrecv =>
    t = { s with
      opstate := t.opstate, busy := t.busy, done := t.done, elapsed := t.elapsed, feSync2 := t.feSync2,
      msgValid := t.msgValid }
  | .nmeaenc => t = { s with opstate := t.opstate, busy := t.busy, done := t.done, xacc := t.xacc }
  | .nmeadec => t = { s with opstate := t.opstate, busy := t.busy, done := t.done, xacc := t.xacc, rxck := t.rxck }
  | .reservedCmd _ => t = { s with done := t.done, result := t.result }
  | .symCh _ | .symFs _ | .symEnd _ | .symReserved _ => TextEncoderWrites s t
  | .ubxFrame _ _ _ _ _ => t = { s with line := t.line }
  | .nmeaSentence _ _ => t = { s with din := t.din }
  | .nameCfgMsg | .nameCfgNav5 | .nameCfgCfg | .nameGll | .nameRmc | .nameGsv => NameWrites s t
  | .resIdle => True
  | .resOk | .resNoMessage | .errPayloadTooLarge | .errUnknownMessageType | .errFraming | .errChecksumMismatch
  | .errTransport | .errTextFormat | .errBadCommand => OutcomeWrites s t
  | .ubxencNamed _ _ | .pubxSetbaud _ _ _ _ _ | .pubxSetrate _ _ _ _ _ _ _ _ | .exchange _ _ | .ubxdecode _ =>
    PseudoWrites s t

section
variable {s : State}

theorem namedLookup_writes (n : Byte) : Answers (NameWrites s) anyFault (namedLookup n s) := by
  cases hb : s.busy with
  | true =>
    unfold namedLookup
    rw [writeReg_of_busy _ _ s hb, onCmd_busy _ _ hb]
    exact rfl
  | false =>
    unfold namedLookup
    rw [writeReg_argName_of_idle _ s hb]
    exact answers_onCmd rfl fun _ => answers_lookup (fun _ _ => rfl) rfl

theorem offerSymbol_writes (y : Symbol) : Answers (TextEncoderWrites s) anyFault (offerSymbol y s) := by
  unfold offerSymbol takeSymbol
  split
  · exact answers_tFirst rfl (fun _ => rfl) fun _ => rfl
  · exact answers_tBody rfl (fun _ _ => rfl) (fun _ => rfl) fun _ => rfl
  · exact rfl

/-- Every row writes what it may write. -/
theorem exec_writes (i : Instr) : Answers (RowWrites i s) anyFault (exec i s) := by
  cases i with
  | ck2 | ckx => exact answers_onCmd rfl fun _ => answers_foldTxbuf rfl (fun _ => trivial) fun _ => rfl
  | lookup => exact answers_onCmd rfl fun _ => answers_lookup (fun _ _ => rfl) rfl
  | ubxenc => exact answers_onCmd rfl fun _ => answers_ite (fun _ => rfl) fun _ => rfl
  | ubxrecv | nmeaenc | nmeadec | reservedCmd => exact answers_onCmd rfl fun _ => rfl
  | symCh | symFs | symEnd | symReserved => exact offerSymbol_writes _
  | ubxFrame | nmeaSentence => exact rfl
  | nameCfgMsg | nameCfgNav5 | nameCfgCfg | nameGll | nameRmc | nameGsv => exact namedLookup_writes _
  | resIdle => exact trivial
  | resOk | resNoMessage | errPayloadTooLarge | errUnknownMessageType | errFraming | errChecksumMismatch
  | errTransport | errTextFormat | errBadCommand => exact rfl
  | ubxencNamed | pubxSetbaud | pubxSetrate | exchange | ubxdecode => exact rfl

end

end Sys2Proof.Machine

namespace Sys2Proof.Proofs

open Sys2Proof.Machine

/-- Settles O54: the frame of the row, read off clause by clause. -/
theorem instructionsLeaveTheRestAlone : Obligations.InstructionsLeaveTheRestAlone := by
  intro i s t hi h
  have hw : RowWrites i s t := (exec_writes i).of_next h
  cases i with
  | resIdle => exact absurd rfl hi
  | _ =>
    rw [show t = _ from hw]
    simp [Instr.format]

end Sys2Proof.Proofs
end

section
/-! How a word becomes an instruction (R35, R100, R118), and the commands that meet a busy block (R40). -/

namespace Sys2Proof.Machine

theorem decodeCommand_format (op : Byte) : (decodeCommand op).format = .cmd8 := by
  unfold decodeCommand
  split_ifs <;> rfl

/-- A command, or a name on the way to `LOOKUP`, that meets a busy block changes nothing (R35, R40, R46). -/
theorem exec_of_busy {i : Instr} {s : State} (hf : i.format = .cmd8 ∨ i.format = .cidrom) (hb : s.busy = true) :
    exec i s = .next s := by
  have hname : ∀ n, namedLookup n s = .next s := fun n => by
    rw [namedLookup, writeReg_of_busy _ _ s hb, onCmd_busy _ _ hb]
  cases i with
  | ck2 | ckx | lookup | ubxenc | ubxrecv | nmeaenc | nmeadec | reservedCmd => exact onCmd_busy _ s hb
  | nameCfgMsg | nameCfgNav5 | nameCfgCfg | nameGll | nameRmc | nameGsv => exact hname _
  | _ => simp [Instr.format] at hf

theorem decodeWhole_eq_some {f : Format} {bs : List Byte} {i : Instr} (h : decode f bs = .ok (i, [])) :
    decodeWhole f bs = some i := by
  unfold decodeWhole
  rw [h]

end Sys2Proof.Machine

namespace Sys2Proof.Proofs

open Sys2Proof.Machine

/-- Settles O5: a command byte is one of the commands, and a busy block ignores each. -/
theorem busyBlockIgnoresEveryCommand : Obligations.BusyBlockIgnoresEveryCommand := by
  intro s v rest hb ha
  exact (step_fetched s _ rest _ ha rfl).trans (exec_of_busy (.inl (decodeCommand_format _)) hb)

/-- Settles O4: each item is fetched as the instruction its word decodes to. -/
theorem stepRunsTheDecodedInstruction : Obligations.StepRunsTheDecodedInstruction := by
  refine ⟨fun s nbits w i h => ?_, fun s v rest ha => step_fetched s _ rest _ ha rfl,
    fun s w rest ha => step_fetched s _ rest _ ha rfl, fun s bs i rest h ha => ?_, fun s bs i rest h ha => ?_,
    fun s n i rest h ha => ?_, fun s p rest ha => step_fetched s _ rest _ ha rfl⟩
  · exact step_fetched (s.withFetchWord nbits w) _ s.agenda i rfl ((fetch_tableEvent nbits w).trans h)
  · exact step_fetched s _ rest i ha (decodeWhole_eq_some h)
  · exact step_fetched s _ rest i ha (decodeWhole_eq_some h)
  · refine step_fetched s _ rest i ha ?_
    simp only [decode] at h
    split at h <;> simp_all [fetch]

/-- Settles O39: `resetEvent` is this state, and the item of the agenda is performed by it. -/
theorem resetEventAtAnyTime : Obligations.ResetEventAtAnyTime :=
  fun s => ⟨rfl, fun rest ha => step_performed s .rst rest ha (by simp) rfl⟩

end Sys2Proof.Proofs
end

section
/-! A run of bytes with one that holds no value (R52). -/

namespace Sys2Proof.Machine

/-- A run stops at the first address without a value. -/
theorem readFrom_eq_error (m : Memory) (n a : Nat) (ha : a < n) (hbelow : WrittenBelow m a) (hread : m.read a = none) :
    m.readFrom 0 n = .error a := by
  cases h : m.readFrom 0 n with
  | ok bs =>
    obtain ⟨hlen, hbytes⟩ := Memory.readFrom_sound m 0 n bs h
    have hsome := hbytes a ha
    rw [Nat.zero_add, hread, List.getElem?_eq_getElem (by omega)] at hsome
    cases hsome
  | error e =>
    obtain ⟨-, -, hnone, hwritten⟩ := Memory.readFrom_error m 0 n e h
    congr 1
    rcases Nat.lt_trichotomy e a with hlt | heq | hgt
    · simpa [hnone] using hbelow e hlt
    · exact heq
    · simpa [hread] using hwritten a (Nat.zero_le a) hgt

/-- A checksum command stops at the first byte of its operand without a value (R52, R138, R140). -/
theorem foldTxbuf_unwritten (k : List Byte → State → State) (s : State) (a : Nat)
    (hlen : s.argLen.toNat ≤ Config.pbufBytes) (ha : a < s.argLen.toNat) (hbelow : WrittenBelow s.txbuf a)
    (hread : s.txbuf.read a = none) : foldTxbuf k s = .fault (.unwrittenByte .txbuf a) := by
  unfold foldTxbuf
  rw [if_neg (by omega), readFrom_eq_error _ _ a ha hbelow hread]

/-- UBXENC stops when it comes to a byte without a value (R52, R163). -/
theorem stepEPay_unwritten (s : State) (hready : s.txReady = true) (hcnt : s.cnt.toNat ≤ Config.lenMax)
    (hread : s.txbuf.read s.cnt.toNat = none) : stepEPay s = .fault (.unwrittenByte .txbuf s.cnt.toNat) := by
  unfold stepEPay
  rw [if_pos hready, if_neg (by omega), hread]

end Sys2Proof.Machine

namespace Sys2Proof.Proofs

open Sys2Proof.Machine

/-- Settles O8: the run of bytes stops for both checksum commands, and the payload state for UBXENC. -/
theorem unwrittenBytesStopTheMachine : Obligations.UnwrittenBytesStopTheMachine := by
  constructor
  · intro s a hb hlen ha hbelow hread
    exact ⟨(onCmd_idle _ s hb).trans (foldTxbuf_unwritten _ (acceptCmd s) a hlen ha hbelow hread),
      (onCmd_idle _ s hb).trans (foldTxbuf_unwritten _ (acceptCmd s) a hlen ha hbelow hread)⟩
  · intro s hturn ho hready hcnt hread
    rw [step_blockTurn s hturn, blockMove, ho]
    exact stepEPay_unwritten s hready hcnt hread

end Sys2Proof.Proofs
end

section
/-! What the host reads and writes (R34 to R46, R52, R64, R351). -/

namespace Sys2Proof.Machine

/-- `STATUS`, bit by bit (R36). -/
theorem readReg_status_bit (s : State) (n : Nat) :
    (readReg .status s).getLsbD n =
      if n = 0 then s.busy else if n = 1 then s.done else if n = 2 then s.msgValid else if n = 3 then s.feSync2
      else false := by
  simp only [readReg, statusByte, BitVec.getLsbD_setWidth, BitVec.getLsbD_append, BitVec.getLsbD_ofBool]
  rcases n with _ | _ | _ | _ | n <;> simp

/-- `CONFIG`, bit by bit (R46). -/
theorem readReg_config_bit (s : State) (n : Nat) :
    (readReg .config s).getLsbD n =
      if n < 15 then s.maxPayload.getLsbD n else if n = 15 then s.frameDeadline else false := by
  simp only [readReg, BitVec.getLsbD_append, BitVec.getLsbD_ofBool]
  by_cases hlow : n < 15
  · simp [hlow]
  · by_cases hflag : n = 15
    · simp [hflag]
    · simp [hlow, hflag]
      omega

section
variable {s : State} {rest : List Event} (a : BitVec 15)

theorem step_wrbuf (v : Byte) (h : s.agenda = .wrbuf a v :: rest) :
    step s = hostWriteTxbuf a v { s with agenda := rest } :=
  step_performed s _ rest h (by simp) rfl

/-- A read is refused while the running operation has the buffer for itself, and otherwise faults or is recorded (R52,
R351, U5; log 4, log 14). -/
theorem step_rdbuf (b : Buf) (h : s.agenda = .rdbuf b a :: rest) :
    (bufferInUse b s = true → step s = .refused (.bufferInUse b)) ∧
    (bufferInUse b s = false → (bufOf b s).read a.toNat = none → step s = .fault (.unwrittenByte b a.toNat)) ∧
    ∀ v, bufferInUse b s = false → (bufOf b s).read a.toNat = some v →
      step s = .next { s with agenda := rest, seen := s.seen ++ [.byte b a.toNat v] } := by
  have hstep : step s = hostReadBuf b a { s with agenda := rest } := step_performed s _ rest h (by simp) rfl
  have huse : bufferInUse b { s with agenda := rest } = bufferInUse b s := by cases b <;> rfl
  have hbuf : bufOf b { s with agenda := rest } = bufOf b s := by cases b <;> rfl
  rw [hstep, hostReadBuf, huse, hbuf]
  refine ⟨fun hu => if_pos hu, fun hu hread => ?_, fun v hu hread => ?_⟩ <;>
    rw [if_neg (by simp [hu]), hread]

end

end Sys2Proof.Machine

namespace Sys2Proof.Proofs

open Sys2Proof.Machine

/-- Settles O42: the reading is recorded, and each register shows its fields. -/
theorem hostRegisterReads : Obligations.HostRegisterReads := by
  intro s
  refine ⟨fun r rest ha => ?_, rfl, readReg_status_bit s, rfl, rfl, rfl, rfl, rfl, rfl, rfl, rfl, rfl, rfl, rfl,
    readReg_config_bit s, (readReg_status_bit s 1).symm⟩
  rw [step_performed s _ rest ha (by simp) rfl]
  rfl

/-- Settles O43: a write is `Memory.write`, and a read of either buffer is refused, faults or records the byte. -/
theorem hostBufferAccesses : Obligations.HostBufferAccesses := by
  refine ⟨fun s a v rest ha => ?_, fun s a rest ha => ?_, fun s a rest ha => ?_⟩
  · rw [step_wrbuf a v ha]
    refine ⟨fun hu => if_pos hu, fun hu => ⟨s.txbuf.write a.toNat v, ?_, Memory.read_write_same _ _ _, fun x hx => ?_⟩⟩
    · exact if_neg (by simp [hu])
    · exact Memory.read_write_other _ _ _ _ hx
  · exact step_rdbuf a .txbuf ha
  · exact step_rdbuf a .rxbuf ha

end Sys2Proof.Proofs
end

section
/-! The invariant (R24 to R32, R212, R228) in two parts: what holds in every `OPSTATE`, and what the current one says of the
length, the index and the payload. A move of the block then owes only what its target state says. -/

namespace Sys2Proof.Machine

/-- What an `OPSTATE` says of the length, the index, the payload received so far and the message. -/
def Progress (s : State) : OpState → Prop
  | .eSync1 | .eSync2 | .eCls | .eId | .eLen0 | .eLen1 => s.len.toNat ≤ Config.lenMax ∧ s.cnt = 0
  | .ePay => s.len.toNat ≤ Config.lenMax ∧ s.cnt.toNat < s.len.toNat
  | .eCkA | .eCkB => s.len.toNat ≤ Config.lenMax ∧ s.cnt = s.len
  | .rSeek | .rSync2 | .rCls | .rId | .rLen0 | .rLen1 => s.msgValid = false
  | .rPay =>
    s.msgValid = false ∧ s.len.toNat ≤ s.maxPayload.toNat ∧ WrittenBelow s.rxbuf s.cnt.toNat ∧
      s.cnt.toNat < s.len.toNat
  | .rCkA | .rCkB =>
    s.msgValid = false ∧ s.len.toNat ≤ s.maxPayload.toNat ∧ WrittenBelow s.rxbuf s.cnt.toNat ∧ s.cnt = s.len
  | _ => True

/-- What holds in every `OPSTATE` and does not name it: the result, the buffers and the last message (R28, R37, R60). -/
structure Stored (s : State) : Prop where
  result_legal : legalResult s.result = true
  txbuf_wf : s.txbuf.wf = true
  rxbuf_wf : s.rxbuf.wf = true
  msg_len : s.msgLen.toNat ≤ s.maxPayload.toNat
  msg_written : WrittenBelow s.rxbuf s.msgLen.toNat

/-- What the invariant says of the current `OPSTATE`. -/
theorem Inv.progress {s : State} (h : Inv s) : Progress s s.opstate := by
  obtain ⟨-, -, -, -, -, hlen, hpay, hhead, htail, hrlen, hrpay, hrtail, hwritten, hmsg, -, -⟩ := h
  cases ho : s.opstate with
  | eSync1 | eSync2 | eCls | eId | eLen0 | eLen1 => exact ⟨hlen (by rw [ho]; rfl), hhead (by simp [ho])⟩
  | ePay => exact ⟨hlen (by rw [ho]; rfl), hpay ho⟩
  | eCkA | eCkB => exact ⟨hlen (by rw [ho]; rfl), htail (by simp [ho])⟩
  | rSeek | rSync2 | rCls | rId | rLen0 | rLen1 => exact hmsg (by rw [ho]; rfl)
  | rPay => exact ⟨hmsg (by rw [ho]; rfl), hrlen (by simp [ho]), hwritten (by simp [ho]), hrpay ho⟩
  | rCkA | rCkB =>
    exact ⟨hmsg (by rw [ho]; rfl), hrlen (by simp [ho]), hwritten (by simp [ho]), hrtail (by simp [ho])⟩
  | _ => trivial

theorem Inv.stored {s : State} (h : Inv s) : Stored s :=
  ⟨h.result_legal, h.txbuf_wf, h.rxbuf_wf, h.msg_len, h.msg_written⟩

/-- The parts make up the invariant. -/
theorem Inv.of_parts {s : State} (hs : Stored s) (hbusy : s.busy = true ↔ s.opstate ≠ .idle)
    (hdone : s.done = true → s.busy = false) (hp : Progress s s.opstate) : Inv s where
  busy_iff := hbusy
  done_idle := hdone
  result_legal := hs.result_legal
  txbuf_wf := hs.txbuf_wf
  rxbuf_wf := hs.rxbuf_wf
  msg_len := hs.msg_len
  msg_written := hs.msg_written
  enc_len h := by
    cases ho : s.opstate with
    | eSync1 | eSync2 | eCls | eId | eLen0 | eLen1 | ePay | eCkA | eCkB => rw [ho] at hp; exact hp.1
    | _ => rw [ho] at h; cases h
  enc_pay ho := by rw [ho] at hp; exact hp.2
  enc_head h := by rcases h with ho | ho | ho | ho | ho | ho <;> (rw [ho] at hp; exact hp.2)
  enc_tail h := by rcases h with ho | ho <;> (rw [ho] at hp; exact hp.2)
  rcv_len h := by rcases h with ho | ho | ho <;> (rw [ho] at hp; exact hp.2.1)
  rcv_written h := by rcases h with ho | ho | ho <;> (rw [ho] at hp; exact hp.2.2.1)
  rcv_pay ho := by rw [ho] at hp; exact hp.2.2.2
  rcv_tail h := by rcases h with ho | ho <;> (rw [ho] at hp; exact hp.2.2.2)
  rcv_msg h := by
    cases ho : s.opstate with
    | rSeek | rSync2 | rCls | rId | rLen0 | rLen1 => rw [ho] at hp; exact hp
    | rPay | rCkA | rCkB => rw [ho] at hp; exact hp.1
    | _ => rw [ho] at h; cases h

/-! ### The shared operations keep the invariant -/

/-- The fields `Stored` speaks of. -/
def storedFields (s : State) : Byte × Memory × Memory × Half × BitVec 15 :=
  (s.result, s.txbuf, s.rxbuf, s.msgLen, s.maxPayload)

/-- The other fields of the invariant: `OPSTATE`, the flags, the length and the index. -/
def progressFields (s : State) : OpState × Bool × Bool × Bool × Half × Half :=
  (s.opstate, s.busy, s.done, s.msgValid, s.len, s.cnt)

section
variable {s t : State}

theorem Stored.congr (h : Stored s) (he : storedFields t = storedFields s) : Stored t := by
  obtain ⟨hres, htx, hrx, hml, hmw⟩ := h
  simp only [storedFields, Prod.mk.injEq] at he
  obtain ⟨er, et, ex, el, em⟩ := he
  constructor <;> simp only [*]

theorem Inv.congr (h : Inv s) (hs : storedFields t = storedFields s) (hp : progressFields t = progressFields s) :
    Inv t := by
  have hprog := h.progress
  simp only [progressFields, Prod.mk.injEq] at hp
  obtain ⟨eo, eb, ed, ev, el, ec⟩ := hp
  refine .of_parts (h.stored.congr hs) (by rw [eb, eo]; exact h.busy_iff) (by rw [ed, eb]; exact h.done_idle) ?_
  simp only [storedFields, Prod.mk.injEq] at hs
  obtain ⟨-, -, ex, -, em⟩ := hs
  rw [eo]
  unfold Progress at hprog ⊢
  rw [ev, el, ec, ex, em]
  exact hprog

theorem Inv.busy_eq_false_iff (h : Inv s) : s.busy = false ↔ s.opstate = .idle := by
  rw [← Bool.not_eq_true, h.busy_iff, not_not]

theorem stored_result {c : ResultCode} (h : Stored s) : Stored { s with result := resultCode c } :=
  ⟨by cases c <;> rfl, h.txbuf_wf, h.rxbuf_wf, h.msg_len, h.msg_written⟩

/-- `IDLE` asks for nothing but the flags. -/
theorem Inv.of_idle (hs : Stored s) (ho : s.opstate = .idle) (hb : s.busy = false) : Inv s :=
  .of_parts hs (by simp [ho, hb]) (fun _ => hb) (by rw [ho]; trivial)

theorem inv_complete {c : ResultCode} (h : Stored s) : Inv (complete c s) :=
  .of_idle ((stored_result h).congr rfl) rfl rfl

theorem inv_resetEvent (s : State) : Inv (resetEvent s) :=
  .of_idle ⟨rfl, rfl, rfl, Nat.zero_le _, nofun⟩ rfl rfl

theorem Inv.report {c : ResultCode} (h : Inv s) (hb : s.busy = false) : Inv (report c s) :=
  .of_idle ((stored_result h.stored).congr rfl) (h.busy_eq_false_iff.mp hb) hb

theorem Inv.acceptCmd (h : Inv s) : Inv (acceptCmd s) :=
  .of_parts (h.stored.congr rfl) h.busy_iff nofun (by exact h.progress)

/-- A state of a running operation. -/
theorem Inv.of_running (hs : Stored t) (hb : t.busy = true) (hd : t.done = false) (ho : t.opstate ≠ .idle)
    (hp : Progress t t.opstate) : Inv t :=
  .of_parts hs (by simp [hb, ho]) (by simp [hd]) hp

/-- A move of a running operation. -/
theorem Inv.move (h : Inv s) (hrun : s.opstate ≠ .idle) (hs : Stored t) (hb : t.busy = s.busy) (hd : t.done = s.done)
    (ho : t.opstate ≠ .idle) (hp : Progress t t.opstate) : Inv t := by
  have hbusy : s.busy = true := h.busy_iff.mpr hrun
  have hdone : s.done = false := by
    cases hs : s.done with
    | false => rfl
    | true => rw [h.done_idle hs] at hbusy; cases hbusy
  exact .of_running hs (hb.trans hbusy) (hd.trans hdone) ho hp

/-- A move that leaves what is stored alone. -/
theorem Inv.advance (h : Inv s) (hrun : s.opstate ≠ .idle)
    (he : (storedFields t, t.busy, t.done) = (storedFields s, s.busy, s.done)) (ho : t.opstate ≠ .idle)
    (hp : Progress t t.opstate) : Inv t := by
  obtain ⟨hs, hflags⟩ := Prod.mk.inj he
  obtain ⟨hb, hd⟩ := Prod.mk.inj hflags
  exact h.move hrun (h.stored.congr hs) hb hd ho hp

end

end Sys2Proof.Machine
end

section
/-! Every transition of the block keeps the invariant and addresses no byte outside a buffer (R25, R64). -/

namespace Sys2Proof.Machine

/-- The fault is none at an address outside a buffer (R64). -/
def InsideBuffers (f : Fault) : Prop := ∀ b a, f ≠ .outsideBuffer b a

theorem insideBuffers_unwrittenByte (b : Buf) (a : Nat) : InsideBuffers (.unwrittenByte b a) := nofun

/-! ### The length and the index -/

/-- The index below the length counts without wrapping (R25). -/
theorem toNat_succ_of_lt {c l : Half} (h : c.toNat < l.toNat) : (c + 1).toNat = c.toNat + 1 := by
  have := l.isLt
  rw [BitVec.toNat_add, show (1 : Half).toNat = 1 from rfl]
  omega

theorem succ_lt_of_ne {c l : Half} (h : c.toNat < l.toNat) (hne : c + 1 ≠ l) : (c + 1).toNat < l.toNat := by
  have hlen : (c + 1).toNat ≠ l.toNat := fun he => hne (BitVec.eq_of_toNat_eq he)
  have := toNat_succ_of_lt h
  omega

theorem toNat_pos_of_ne_zero {l : Half} (h : l ≠ 0) : (0 : Half).toNat < l.toNat :=
  Nat.pos_of_ne_zero fun he => h (BitVec.eq_of_toNat_eq he)

theorem le_maxPayload_of_not_badLength {s : State} {l : Half} (h : ¬ badLength s l = true) :
    l.toNat ≤ s.maxPayload.toNat := by
  simp only [badLength, Bool.or_eq_true, decide_eq_true_eq, not_or] at h
  omega

/-! ### RXBUF -/

theorem writtenBelow_write {m : Memory} {n : Nat} (h : WrittenBelow m n) (a : Nat) (v : Byte) :
    WrittenBelow (m.write a v) n := by
  intro x hx
  rw [Memory.read_write]
  split
  · rfl
  · exact h x hx

theorem writtenBelow_write_succ {m : Memory} {a : Nat} (h : WrittenBelow m a) (v : Byte) :
    WrittenBelow (m.write a v) (a + 1) := by
  intro x hx
  rw [Memory.read_write]
  split
  next => rfl
  next hne => exact h x (by omega)

theorem Stored.write_rxbuf {s : State} (h : Stored s) {a : Nat} (ha : a < Config.pbufBytes) (v : Byte) :
    Stored { s with rxbuf := s.rxbuf.write a v } :=
  ⟨h.result_legal, h.txbuf_wf, Memory.wf_write _ _ _ h.rxbuf_wf ha, h.msg_len, writtenBelow_write h.msg_written _ _⟩

section
variable {s : State}

theorem Inv.tickEvent (h : Inv s) : Inv (tickEvent s) :=
  h.congr (by simp [storedFields]) (by simp [progressFields])

theorem ne_idle_of_unit {u : BlockUnit} (hu : s.opstate.unit = some u) : s.opstate ≠ .idle := by
  intro ho
  rw [ho] at hu
  cases hu

/-! ### The frame encoder -/

theorem frameEncoder_inv (h : Inv s) (hu : s.opstate.unit = some .frameEncoder) :
    Answers Inv InsideBuffers (blockMove s) := by
  have hrun := ne_idle_of_unit hu
  have hp := h.progress
  unfold blockMove
  cases ho : s.opstate with
  | eSync1 | eSync2 | eCls | eId | eLen0 =>
    rw [ho] at hp
    exact answers_txStep h (h.advance hrun rfl nofun hp)
  | eLen1 =>
    rw [ho] at hp
    obtain ⟨hlen, hcnt⟩ := hp
    refine answers_txStep h ?_
    split
    next hz => exact h.advance hrun rfl nofun ⟨hlen, hcnt.trans hz.symm⟩
    next hz =>
      exact h.advance hrun rfl nofun ⟨hlen, hcnt ▸ toNat_pos_of_ne_zero hz⟩
  | ePay =>
    rw [ho] at hp
    obtain ⟨hlen, hcnt⟩ := hp
    refine answers_ePay h (fun hout => by omega) (insideBuffers_unwrittenByte _ _) fun x => ?_
    unfold ePayEffect
    split
    next hlast => exact h.advance hrun rfl nofun ⟨hlen, hlast⟩
    next hmore => exact h.advance hrun rfl nofun ⟨hlen, succ_lt_of_ne hcnt hmore⟩
  | eCkA =>
    rw [ho] at hp
    exact answers_txStep h (h.advance hrun rfl nofun hp)
  | eCkB => exact answers_txStep h ((inv_complete (c := .resOk) h.stored).congr rfl rfl)
  | _ => simp [ho, OpState.unit] at hu

/-! ### The receiver -/

/-- What the receiver's transitions share: a tick, or nothing, on the line (R213, R240). -/
theorem onLine_inv {f : Option Byte → State → Result} (h : Inv s)
    (hf : ∀ r rest, Answers Inv InsideBuffers (f r { s with line := rest })) : Answers Inv InsideBuffers (onLine f s) :=
  answers_onLine h (fun rest => Inv.tickEvent (s := { s with line := rest }) (h.congr rfl rfl)) hf

/-- What the mid-frame states share: both common tests end the receive (R234, R236). -/
theorem onLine_midFrame_inv {f : Byte → State → Result} (h : Inv s)
    (hf : ∀ b rest, Answers Inv InsideBuffers (f b { s with line := rest })) :
    Answers Inv InsideBuffers (onLine (midFrame f) s) :=
  onLine_inv h fun _ rest =>
    answers_midFrame (inv_complete (h.stored.congr rfl)) (inv_complete (h.stored.congr rfl)) fun b => hf b rest

theorem receiver_inv (h : Inv s) (hu : s.opstate.unit = some .receiver) :
    Answers Inv InsideBuffers (blockMove s) := by
  have hrun := ne_idle_of_unit hu
  have hp := h.progress
  unfold blockMove
  cases ho : s.opstate with
  | rSeek =>
    rw [ho] at hp
    exact onLine_inv h fun _ _ => answers_ite (fun _ => inv_complete (h.stored.congr rfl)) fun _ =>
      answers_ite (fun _ => h.advance hrun rfl nofun hp) fun _ => h.congr rfl rfl
  | rSync2 =>
    rw [ho] at hp
    exact onLine_midFrame_inv h fun _ _ =>
      answers_ite (fun _ => h.advance hrun rfl nofun hp) fun _ =>
      h.advance hrun rfl nofun hp
  | rCls | rId | rLen0 | rCkA =>
    rw [ho] at hp
    refine onLine_midFrame_inv h fun _ _ => ?_
    exact h.advance hrun rfl nofun hp
  | rLen1 =>
    rw [ho] at hp
    refine onLine_midFrame_inv h fun _ _ => answers_ite (fun _ => inv_complete (h.stored.congr rfl)) fun hgood => ?_
    have hlen := le_maxPayload_of_not_badLength hgood
    exact answers_ite
      (fun hz => h.advance hrun rfl nofun ⟨hp, hlen, nofun, hz.symm⟩) fun hz =>
      h.advance hrun rfl nofun ⟨hp, hlen, nofun, toNat_pos_of_ne_zero hz⟩
  | rPay =>
    rw [ho] at hp
    obtain ⟨hmsg, hlen, hwritten, hcnt⟩ := hp
    have hmax := s.maxPayload.isLt
    have hwritten' (b : Byte) : WrittenBelow (s.rxbuf.write s.cnt.toNat b) (s.cnt + 1).toNat := by
      rw [toNat_succ_of_lt hcnt]
      exact writtenBelow_write_succ hwritten b
    have hin : s.cnt.toNat ≤ Config.lenMax := by unfold Config.lenMax; omega
    refine onLine_midFrame_inv h fun b _ => answers_ite (fun hout => absurd hout (Nat.not_lt.mpr hin)) fun _ => ?_
    have hstored := h.stored.write_rxbuf (Nat.lt_succ_of_le hin) b
    show Inv (goTo (if _ then _ else _) _)
    split
    next hlast => exact h.move hrun (hstored.congr rfl) rfl rfl nofun ⟨hmsg, hlen, hwritten' b, hlast⟩
    next hmore =>
      exact h.move hrun (hstored.congr rfl) rfl rfl nofun ⟨hmsg, hlen, hwritten' b, succ_lt_of_ne hcnt hmore⟩
  | rCkB =>
    rw [ho] at hp
    obtain ⟨-, hlen, hwritten, hcnt⟩ := hp
    refine onLine_midFrame_inv h fun _ _ => answers_ite (fun _ => ?_) fun _ => inv_complete (h.stored.congr rfl)
    exact inv_complete ⟨h.result_legal, h.txbuf_wf, h.rxbuf_wf, hlen, hcnt ▸ hwritten⟩
  | _ => simp [ho, OpState.unit] at hu

/-! ### The sentence encoder and decoder -/

theorem tFirst_inv (h : Inv s) (hrun : s.opstate ≠ .idle) : Answers Inv InsideBuffers (stepTFirst s) :=
  answers_tFirst h (fun _ => h.advance hrun rfl nofun trivial) fun _ =>
    inv_complete (h.stored.congr rfl)

theorem tBody_inv (h : Inv s) (hrun : s.opstate ≠ .idle) : Answers Inv InsideBuffers (stepTBody s) :=
  answers_tBody h (fun _ _ => h.congr rfl rfl) (fun _ => h.advance hrun rfl nofun trivial) fun _ =>
    inv_complete (h.stored.congr rfl)

theorem textEncoder_inv (h : Inv s) (hu : s.opstate.unit = some .textEncoder) :
    Answers Inv InsideBuffers (blockMove s) := by
  have hrun := ne_idle_of_unit hu
  unfold blockMove
  cases ho : s.opstate with
  | tFirst => exact tFirst_inv h hrun
  | tBody => exact tBody_inv h hrun
  | tHexHi | tHexLo | tCr => exact answers_txStep h (h.advance hrun rfl nofun trivial)
  | tLf => exact answers_txStep h ((inv_complete (c := .resOk) h.stored).congr rfl rfl)
  | _ => simp [ho, OpState.unit] at hu

theorem textDecoder_inv (h : Inv s) (hu : s.opstate.unit = some .textDecoder) :
    Answers Inv InsideBuffers (blockMove s) := by
  have hrun := ne_idle_of_unit hu
  have hformat (b : Byte) (rest : List Byte) : Inv (complete .errTextFormat { s with din := rest }) :=
    inv_complete (h.stored.congr rfl)
  unfold blockMove
  cases ho : s.opstate with
  | nStart =>
    exact answers_onDin h fun b rest => answers_ite
      (fun _ => answers_dinEmit h (h.advance hrun rfl nofun trivial)) fun _ => hformat b rest
  | nBody =>
    exact answers_onDin h fun b rest => answers_ite (fun _ => answers_dinEmit h (h.congr rfl rfl)) fun _ =>
      answers_ite (fun _ => h.advance hrun rfl nofun trivial) fun _ =>
      answers_ite (fun _ => hformat b rest) fun _ => answers_dinEmit h (h.congr rfl rfl)
  | nHex1 =>
    refine answers_onDin h fun b rest => ?_
    unfold dinHex1
    split
    · exact h.advance hrun rfl nofun trivial
    · exact hformat b rest
  | nHex2 =>
    refine answers_onDin h fun b rest => ?_
    unfold dinHex2
    split
    · exact h.advance hrun rfl nofun trivial
    · exact hformat b rest
  | nCr =>
    exact answers_onDin h fun b rest => answers_ite (fun _ => h.advance hrun rfl nofun trivial) fun _ => hformat b rest
  | nLf =>
    refine answers_onDin h fun b rest => answers_ite (fun _ => answers_ite (fun _ => ?_) fun _ => ?_) fun _ => hformat b rest
    · exact answers_dinEmit h ((inv_complete (c := .resOk) h.stored).congr rfl rfl)
    · exact inv_complete (h.stored.congr rfl)
  | _ => simp [ho, OpState.unit] at hu

theorem blockMove_inv (h : Inv s) : Answers Inv InsideBuffers (blockMove s) := by
  cases hu : s.opstate.unit with
  | none =>
    unfold blockMove
    rw [(unit_eq_none_iff _).mp hu]
    exact h
  | some u =>
    cases u with
    | frameEncoder => exact frameEncoder_inv h hu
    | receiver => exact receiver_inv h hu
    | textEncoder => exact textEncoder_inv h hu
    | textDecoder => exact textDecoder_inv h hu

end

end Sys2Proof.Machine
end

section
/-! Every instruction, every item of the agenda and every step keeps the invariant. -/

namespace Sys2Proof.Machine

section
variable {s : State}

theorem Inv.writeReg (h : Inv s) (r : Reg) (v : Word) : Inv (writeReg r v s) :=
  h.congr (by simp [storedFields]) (by simp [progressFields])

theorem Inv.setAgenda (h : Inv s) (es : List Event) : Inv { s with agenda := es } :=
  h.congr rfl rfl

/-- A checksum command reports, whether it folds or refuses (R138, R140). -/
theorem foldTxbuf_inv {k : List Byte → State → State} (h : Inv s) (hb : s.busy = false) (hk : ∀ bs, Inv (k bs s))
    (hkb : ∀ bs, (k bs s).busy = s.busy) : Answers Inv InsideBuffers (foldTxbuf k s) :=
  answers_foldTxbuf (h.report hb) (insideBuffers_unwrittenByte _) fun bs => (hk bs).report ((hkb bs).trans hb)

theorem lookup_inv (h : Inv s) : Answers Inv InsideBuffers (execLookup s) :=
  answers_onCmd h fun hb => answers_lookup
    (fun c i => Inv.report (s := { acceptCmd s with argClsid := packHalf c i }) (h.acceptCmd.congr rfl rfl) hb)
    (h.acceptCmd.report hb)

/-- An accepted operation begins with what its first state asks for (R156, R182, R212, R262). -/
theorem Inv.beginOp {o : OpState} {t : State} (h : Inv s) (hs : storedFields t = storedFields s) (hd : t.done = false)
    (ho : o ≠ .idle) (hp : Progress (beginOp o t) o) : Inv (beginOp o t) :=
  .of_running (h.stored.congr hs) rfl hd ho hp

theorem ubxencEffect_inv (h : Inv s) (hb : s.busy = false) (hd : s.done = false) :
    Answers Inv InsideBuffers (ubxencEffect s) :=
  answers_ite (fun _ => h.report hb) fun hlen => h.beginOp rfl hd nofun ⟨Nat.le_of_not_lt hlen, rfl⟩

theorem offerSymbol_inv (h : Inv s) (y : Symbol) : Answers Inv InsideBuffers (offerSymbol y s) := by
  have hput : Inv { s with sin := s.sin ++ [y] } := h.congr rfl rfl
  unfold offerSymbol takeSymbol
  split
  next ho => exact tFirst_inv hput (by rw [ho]; nofun)
  next ho => exact tBody_inv hput (by rw [ho]; nofun)
  next => exact hput

theorem exec_inv (h : Inv s) (i : Instr) : Answers Inv InsideBuffers (exec i s) := by
  cases i with
  | ck2 | ckx =>
    exact answers_onCmd h fun hb => foldTxbuf_inv h.acceptCmd hb (fun _ => h.acceptCmd.congr rfl rfl) fun _ => rfl
  | lookup => exact lookup_inv h
  | ubxenc => exact answers_onCmd h fun hb => ubxencEffect_inv h.acceptCmd hb rfl
  | ubxrecv => exact answers_onCmd h fun _ => h.beginOp rfl rfl nofun rfl
  | nmeaenc | nmeadec => exact answers_onCmd h fun _ => h.beginOp rfl rfl nofun trivial
  | reservedCmd => exact answers_onCmd h fun hb => h.acceptCmd.report hb
  | symCh | symFs | symEnd | symReserved => exact offerSymbol_inv h _
  | nameCfgMsg | nameCfgNav5 | nameCfgCfg | nameGll | nameRmc | nameGsv => exact lookup_inv (h.writeReg _ _)
  | resIdle => exact inv_resetEvent s
  | resOk | resNoMessage | errPayloadTooLarge | errUnknownMessageType | errFraming | errChecksumMismatch
  | errTransport | errTextFormat | errBadCommand => exact inv_complete h.stored
  | ubxFrame | nmeaSentence | ubxencNamed | pubxSetbaud | pubxSetrate | exchange | ubxdecode => exact h.congr rfl rfl

theorem blockStep_inv (h : Inv s) : Answers Inv InsideBuffers (blockStep s) :=
  answers_blockStep (fun _ => h.congr rfl rfl) (blockMove_inv h)

theorem perform_inv (h : Inv s) (e : Event) : Answers Inv InsideBuffers (perform e s) := by
  cases e with
  | wr r v => exact h.writeReg r v
  | wrbuf a v =>
    have hstored : Stored { s with txbuf := s.txbuf.write a.toNat v } :=
      ⟨h.result_legal, Memory.wf_write _ _ _ h.txbuf_wf a.isLt, h.rxbuf_wf, h.msg_len, h.msg_written⟩
    exact answers_hostWriteTxbuf (.of_parts hstored h.busy_iff h.done_idle (by exact h.progress))
  | rdbuf => exact answers_hostReadBuf insideBuffers_unwrittenByte fun _ => h.congr rfl rfl
  | copyMsg => exact answers_hostCopyMsg insideBuffers_unwrittenByte fun _ => h.congr rfl rfl
  | putSin | call => exact exec_inv h _
  | name => exact lookup_inv (h.writeReg _ _)
  | skipIf c n =>
    show Inv (if _ then _ else _)
    split
    · exact h.congr rfl rfl
    · exact h
  | tick => exact h.tickEvent
  | rst => exact inv_resetEvent s
  | go => exact blockStep_inv h
  | rd | arrive | putDin | getSout | wait | answer | sink => exact h.congr rfl rfl

theorem step_inv (h : Inv s) : Answers Inv InsideBuffers (step s) :=
  answers_step (blockStep_inv h) (fun _ rest i _ _ => exec_inv (h.setAgenda rest) i) fun e rest _ _ =>
    perform_inv (h.setAgenda rest) e

end

end Sys2Proof.Machine

namespace Sys2Proof.Proofs

open Sys2Proof.Machine

/-- Settles O44: the invariant is a postcondition of every step from a state that has it. -/
theorem everyStepKeepsTheInvariant : Obligations.EveryStepKeepsTheInvariant :=
  fun _ _ h hstep => (step_inv h).of_next hstep

/-- Settles O45: the state after reset is the reset event's. -/
theorem theInvariantHoldsAtReset : Obligations.TheInvariantHoldsAtReset :=
  inv_resetEvent State.reset

/-- Settles O46: the faults of such a step are inside the buffers. -/
theorem noAddressOutsideABuffer : Obligations.NoAddressOutsideABuffer :=
  fun _ b a h hstep => (step_inv h).of_fault hstep b a rfl

end Sys2Proof.Proofs
end

section
/-! No item of the agenda is an outcome: the block alone raises them (R37, R40). -/

namespace Sys2Proof.Machine

theorem decodeSymbol_format (w : BitVec 10) : (decodeSymbol w).format = .sym10 := by
  unfold decodeSymbol
  dsimp only
  split_ifs <;> rfl

theorem decodeName_format {n : Byte} {i : Instr} (h : decodeName n = some i) : i.format = .cidrom := by
  unfold decodeName at h
  split_ifs at h <;> cases h <;> rfl

theorem decodeFrame_format {bs rest : List Byte} {i : Instr} (h : decodeFrame bs = .ok (i, rest)) : i.format = .frame := by
  unfold decodeFrame at h
  split at h
  · split at h
    · unfold decodeFrameBody at h
      split at h
      · dsimp only at h
        split at h
        · cases h
        · split at h
          · split at h <;> cases h
            rfl
          · cases h
      · cases h
    · cases h
  · cases h

theorem decodeSentence_format {bs rest : List Byte} {i : Instr} (h : decodeSentence bs = .ok (i, rest)) :
    i.format = .sentence := by
  unfold decodeSentence at h
  split at h <;> cases h
  rfl

theorem decode_of_decodeWhole {f : Format} {bs : List Byte} {i : Instr} (h : decodeWhole f bs = some i) :
    decode f bs = .ok (i, []) := by
  unfold decodeWhole at h
  split at h
  next j hj => cases h; exact hj
  next => cases h

theorem fetch_format {e : Event} {i : Instr} (h : fetch e = some i) : i.format ≠ .result8 := by
  cases e with
  | wr r v =>
    cases r with
    | cmd =>
      cases h
      rw [decodeCommand_format]
      nofun
    | _ => cases h
  | putSin w =>
    cases h
    rw [decodeSymbol_format]
    nofun
  | arrive bs =>
    rw [decodeFrame_format (decode_of_decodeWhole h)]
    nofun
  | putDin bs =>
    rw [decodeSentence_format (decode_of_decodeWhole h)]
    nofun
  | name n =>
    rw [decodeName_format h]
    nofun
  | call p =>
    cases h
    cases p <;> nofun
  | _ => cases h

end Sys2Proof.Machine
end

section
/-! The received message (R28, R32, R353): which steps write it. -/

namespace Sys2Proof.Machine

/-- The message as the host sees it: whether it is valid, its registers and RXBUF (R28, R32, R62). -/
def message (s : State) : Bool × (Byte × Byte × Half) × Memory := (s.msgValid, msgRegs s, s.rxbuf)

/-- A step accepts a UBXRECV (R212). -/
def AcceptsReceive (s t : State) : Prop :=
  s.busy = false ∧ t.busy = true ∧ t.opstate = .rSeek ∧ t.elapsed = 0 ∧ t.msgValid = false

/-- A step ends a UBXRECV with `RES_OK` (R232). -/
def CompletesReceive (s t : State) : Prop :=
  s.opstate = .rCkB ∧ t.opstate = .idle ∧ t.result = resultCode .resOk ∧ t.msgValid = true ∧
    msgRegs t = (s.cls, s.id, s.len)

/-- A valid message goes only when a UBXRECV is accepted, and `MSG_*` change only when one ends with `RES_OK`. -/
def MessageRule (s t : State) : Prop :=
  (s.msgValid = true → message t = message s ∨ AcceptsReceive s t) ∧ (msgRegs t = msgRegs s ∨ CompletesReceive s t)

section
variable {s t : State}

theorem messageRule_of_eq (h : message t = message s) : MessageRule s t := by
  obtain ⟨-, hrest⟩ := Prod.mk.inj h
  exact ⟨fun _ => .inl h, .inl (Prod.mk.inj hrest).1⟩

/-- Outside the receiver a transition leaves the message alone; in it there is no valid message (R212). -/
theorem blockMove_message (h : Inv s) : Answers (MessageRule s) anyFault (blockMove s) := by
  refine blockMove_writes.mono fun t ⟨_, hw⟩ => ?_
  unfold UnitWrites at hw
  split at hw
  next => exact messageRule_of_eq (by rw [hw])
  next => exact messageRule_of_eq (by rw [show t = _ from hw]; rfl)
  next hu =>
    have hinvalid : s.msgValid = false := h.rcv_msg ((isReceiver_iff_unit _).mpr hu)
    exact ⟨fun hv => absurd (hinvalid.symm.trans hv) Bool.false_ne_true, hw.message⟩
  next => exact messageRule_of_eq (by rw [show t = _ from hw]; rfl)
  next => exact messageRule_of_eq (by rw [show t = _ from hw]; rfl)

theorem blockStep_message (h : Inv s) : Answers (MessageRule s) anyFault (blockStep s) :=
  answers_blockStep (fun _ => messageRule_of_eq rfl) (blockMove_message h)

/-- Of the rows that are no outcome only UBXRECV writes the message, when it is accepted. -/
theorem exec_message (i : Instr) (hi : i.format ≠ .result8) : Answers (MessageRule s) anyFault (exec i s) := by
  cases i with
  | ubxrecv => exact answers_onCmd (messageRule_of_eq rfl) fun hb => ⟨fun _ => .inr ⟨hb, rfl, rfl, rfl, rfl⟩, .inl rfl⟩
  | resIdle => exact absurd rfl hi
  | _ => exact (exec_writes _).mono fun t hw => messageRule_of_eq (by rw [show t = _ from hw]; rfl)

theorem perform_message (h : Inv s) (e : Event) (hf : fetch e = none) (he : e ≠ .rst) :
    Answers (MessageRule s) anyFault (perform e s) := by
  cases e with
  | wr r v => exact messageRule_of_eq (by simp [message, msgRegs])
  | wrbuf => exact answers_hostWriteTxbuf (messageRule_of_eq rfl)
  | rdbuf => exact answers_hostReadBuf (fun _ _ => trivial) fun _ => messageRule_of_eq rfl
  | copyMsg => exact answers_hostCopyMsg (fun _ _ => trivial) fun _ => messageRule_of_eq rfl
  | putSin | call => cases hf
  | name n => exact (namedLookup_writes n).mono fun t hw => messageRule_of_eq (by rw [show t = _ from hw]; rfl)
  | skipIf c n =>
    show MessageRule s (if _ then _ else _)
    split <;> exact messageRule_of_eq rfl
  | tick => exact messageRule_of_eq (by simp [message, msgRegs])
  | rst => exact absurd rfl he
  | go => exact blockStep_message h
  | rd | arrive | putDin | getSout | wait | answer | sink => exact messageRule_of_eq rfl

theorem step_message (h : Inv s) (hrst : ∀ rest, s.agenda ≠ .rst :: rest) :
    Answers (MessageRule s) anyFault (step s) :=
  answers_step (blockStep_message h)
    (fun _ rest i _ hf => exec_message (s := { s with agenda := rest }) i (fetch_format hf)) fun e rest ha hf =>
    perform_message (h.setAgenda rest) e hf (by rintro rfl; exact hrst rest ha)

end

end Sys2Proof.Machine

namespace Sys2Proof.Proofs

open Sys2Proof.Machine

/-- Settles O47: the rule of the message, its views written out. -/
theorem aReceivedMessageStays : Obligations.AReceivedMessageStays := by
  intro s t h hstep hrst
  obtain ⟨hvalid, hregs⟩ := (step_message h hrst).of_next hstep
  simp only [message, msgRegs, Prod.mk.injEq, AcceptsReceive, CompletesReceive] at hvalid hregs
  refine ⟨fun hv => (hvalid hv).imp_left ?_, hregs⟩
  rintro ⟨he, ⟨hcls, hid, hlen⟩, hbuf⟩
  exact ⟨he.trans hv, hcls, hid, hlen, hbuf⟩

end Sys2Proof.Proofs
end

section
/-! One operation at a time (R40): what a step from a busy state does to `OPSTATE`. -/

namespace Sys2Proof.Machine

section
variable {s : State}

theorem blockStep_staysInUnit : Answers (StaysInUnit s) anyFault (blockStep s) :=
  answers_blockStep (fun _ => .inl rfl) (blockMove_writes.mono fun _ h => h.1)

theorem offerSymbol_staysInUnit (y : Symbol) : Answers (StaysInUnit s) anyFault (offerSymbol y s) := by
  unfold offerSymbol takeSymbol
  split
  next ho =>
    have hu : ({ s with sin := s.sin ++ [y] } : State).opstate.unit = some .textEncoder := by rw [ho]; rfl
    exact (tFirst_writes hu).mono fun _ h => h.1
  next ho =>
    have hu : ({ s with sin := s.sin ++ [y] } : State).opstate.unit = some .textEncoder := by rw [ho]; rfl
    exact (tBody_writes hu).mono fun _ h => h.1
  next => exact .inl rfl

theorem exec_staysInUnit (hb : s.busy = true) (i : Instr) : Answers (StaysInUnit s) anyFault (exec i s) := by
  cases i with
  | ck2 | ckx | lookup | ubxenc | ubxrecv | nmeaenc | nmeadec | reservedCmd =>
    rw [exec_of_busy (.inl rfl) hb]
    exact .inl rfl
  | nameCfgMsg | nameCfgNav5 | nameCfgCfg | nameGll | nameRmc | nameGsv =>
    rw [exec_of_busy (.inr rfl) hb]
    exact .inl rfl
  | symCh | symFs | symEnd | symReserved => exact offerSymbol_staysInUnit _
  | ubxFrame | nmeaSentence | ubxencNamed | pubxSetbaud | pubxSetrate | exchange | ubxdecode => exact .inl rfl
  | resIdle | resOk | resNoMessage | errPayloadTooLarge | errUnknownMessageType | errFraming | errChecksumMismatch
  | errTransport | errTextFormat | errBadCommand => exact .inr rfl

theorem perform_staysInUnit (hb : s.busy = true) (e : Event) : Answers (StaysInUnit s) anyFault (perform e s) := by
  cases e with
  | wr r v => exact .inl (by simp)
  | wrbuf => exact answers_hostWriteTxbuf (.inl rfl)
  | rdbuf => exact answers_hostReadBuf (fun _ _ => trivial) fun _ => .inl rfl
  | copyMsg => exact answers_hostCopyMsg (fun _ _ => trivial) fun _ => .inl rfl
  | putSin | call => exact exec_staysInUnit hb _
  | name n => exact (namedLookup_writes n).mono fun t hw => .inl (by rw [show t = _ from hw])
  | skipIf c n =>
    show StaysInUnit s (if _ then _ else _)
    split <;> exact .inl rfl
  | tick => exact .inl (by simp)
  | rst => exact .inr rfl
  | go => exact blockStep_staysInUnit
  | rd | arrive | putDin | getSout | wait | answer | sink => exact .inl rfl

theorem step_staysInUnit (hb : s.busy = true) : Answers (StaysInUnit s) anyFault (step s) :=
  answers_step blockStep_staysInUnit (fun _ rest i _ _ => exec_staysInUnit (s := { s with agenda := rest }) hb i)
    fun e rest _ _ => perform_staysInUnit (s := { s with agenda := rest }) hb e

end

end Sys2Proof.Machine

namespace Sys2Proof.Proofs

open Sys2Proof.Machine

/-- Settles O48: the step stays in its unit, and the invariant says that `BUSY` is 1 outside `IDLE`. -/
theorem oneOperationAtATime : Obligations.OneOperationAtATime := by
  intro s t h hstep hb ho
  have hinv : Inv t := (step_inv h).of_next hstep
  have hstays : StaysInUnit s t := (step_staysInUnit hb).of_next hstep
  have hu : t.opstate.unit = s.opstate.unit := hstays.resolve_right fun hn => ho ((unit_eq_none_iff _).mp hn)
  refine ⟨hinv.busy_iff.mpr ho, Bool.eq_iff_iff.mpr ?_, Bool.eq_iff_iff.mpr ?_, ?_⟩
  · rw [isReceiver_iff_unit, isReceiver_iff_unit, hu]
  · rw [isUbxEncoder_iff_unit, isUbxEncoder_iff_unit, hu]
  · rw [mem_textEncoder_iff_unit, mem_textEncoder_iff_unit, hu]

end Sys2Proof.Proofs
end

section
/-! The two output streams (R73, R75): a step leaves both as they are, or adds one element to one of them. -/

namespace Sys2Proof.Machine

/-- The bytes taken from TX and the symbols taken from `SOUT`, in order (R73, R75). -/
def outputs (s : State) : List Byte × List Symbol := (s.tx, s.sout)

/-- An encoder hands one byte to a ready sink (R65, R73). -/
def EmitsByte (s t : State) : Prop :=
  s.txReady = true ∧ (s.opstate.unit = some .frameEncoder ∨ s.opstate.unit = some .textEncoder) ∧
    ∃ b, outputs t = (s.tx ++ [b], s.sout)

/-- The sentence decoder hands one symbol to a host that is ready for it, `END` with the verdict `RES_OK` (R75, R108,
R276). -/
def EmitsSymbol (s t : State) : Prop :=
  0 < s.soutWanted ∧ s.opstate ∈ [.nStart, .nBody, .nLf] ∧
    ∃ y, outputs t = (s.tx, s.sout ++ [y]) ∧ y ≠ .reserved ∧ (y = .endMsg ↔ s.opstate = .nLf) ∧
      (y = .endMsg → t.opstate = .idle ∧ t.result = resultCode .resOk)

/-- What a step may do to the outputs. -/
def OutputRule (s t : State) : Prop := outputs t = outputs s ∨ EmitsByte s t ∨ EmitsSymbol s t

section
variable {s : State}

theorem outputRule_of_eq {t : State} (h : outputs t = outputs s) : OutputRule s t := .inl h

/-! ### The transitions that emit -/

theorem txStep_outputs {b : Byte} {f : State → State}
    (hu : s.opstate.unit = some .frameEncoder ∨ s.opstate.unit = some .textEncoder) (hf : outputs (f s) = outputs s) :
    Answers (OutputRule s) anyFault (txStep b f s) := by
  obtain ⟨htx, hsout⟩ := Prod.mk.inj hf
  refine answers_ite (fun hready => .inr (.inl ⟨hready, hu, b, ?_⟩)) fun _ => outputRule_of_eq rfl
  simp [outputs, htx, hsout]

theorem dinEmit_outputs {y : Symbol} {f : State → State} {taken : State} (ho : s.opstate ∈ [.nStart, .nBody, .nLf])
    (hf : outputs (f taken) = outputs s) (hy : y ≠ .reserved) (hend : y = .endMsg ↔ s.opstate = .nLf)
    (hok : y = .endMsg → (f taken).opstate = .idle ∧ (f taken).result = resultCode .resOk) :
    Answers (OutputRule s) anyFault (dinEmit y f taken s) := by
  obtain ⟨htx, hsout⟩ := Prod.mk.inj hf
  refine answers_ite (fun hwanted => .inr (.inr ⟨hwanted, ho, y, ?_, hy, hend, hok⟩)) fun _ => outputRule_of_eq rfl
  simp [outputs, htx, hsout]

theorem frameEncoder_outputs (hu : s.opstate.unit = some .frameEncoder) :
    Answers (OutputRule s) anyFault (blockMove s) := by
  unfold blockMove
  cases ho : s.opstate with
  | eSync1 | eSync2 | eCls | eId | eLen0 | eLen1 | eCkA | eCkB => exact txStep_outputs (.inl hu) rfl
  | ePay =>
    refine answers_ite (fun _ => answers_ite (fun _ => trivial) fun _ => ?_) fun _ => outputRule_of_eq rfl
    split
    · exact trivial
    · exact txStep_outputs (.inl hu) rfl
  | _ => simp [ho, OpState.unit] at hu

theorem tFirst_outputs (hu : s.opstate.unit = some .textEncoder) :
    Answers (OutputRule s) anyFault (stepTFirst s) := by
  unfold stepTFirst
  split
  · exact outputRule_of_eq rfl
  · exact answers_ite (fun _ => txStep_outputs (.inr hu) rfl) fun _ => outputRule_of_eq rfl

theorem tBody_outputs (hu : s.opstate.unit = some .textEncoder) :
    Answers (OutputRule s) anyFault (stepTBody s) := by
  unfold stepTBody
  split
  · exact outputRule_of_eq rfl
  · exact txStep_outputs (.inr hu) rfl
  · exact txStep_outputs (.inr hu) rfl
  · exact txStep_outputs (.inr hu) rfl
  · exact outputRule_of_eq rfl

theorem textEncoder_outputs (hu : s.opstate.unit = some .textEncoder) :
    Answers (OutputRule s) anyFault (blockMove s) := by
  unfold blockMove
  cases ho : s.opstate with
  | tFirst => exact tFirst_outputs hu
  | tBody => exact tBody_outputs hu
  | tHexHi | tHexLo | tCr | tLf => exact txStep_outputs (.inr hu) rfl
  | _ => simp [ho, OpState.unit] at hu

/-- A symbol that is not `END` comes from `N_START` and `N_BODY`; `END` from `N_LF`, with `RES_OK` (R264, R266, R274). -/
theorem textDecoder_outputs (hu : s.opstate.unit = some .textDecoder) :
    Answers (OutputRule s) anyFault (blockMove s) := by
  have hkeep : Answers (OutputRule s) anyFault (.next s) := outputRule_of_eq rfl
  unfold blockMove
  cases ho : s.opstate with
  | nStart =>
    exact answers_onDin hkeep fun _ _ => answers_ite
      (fun _ => dinEmit_outputs (by simp [ho]) rfl nofun (by simp [ho]) nofun) fun _ => outputRule_of_eq rfl
  | nBody =>
    exact answers_onDin hkeep fun _ _ => answers_ite
      (fun _ => dinEmit_outputs (by simp [ho]) rfl nofun (by simp [ho]) nofun) fun _ =>
      answers_ite (fun _ => outputRule_of_eq rfl) fun _ =>
      answers_ite (fun _ => outputRule_of_eq rfl) fun _ =>
      dinEmit_outputs (by simp [ho]) rfl nofun (by simp [ho]) nofun
  | nHex1 =>
    refine answers_onDin hkeep fun _ _ => ?_
    unfold dinHex1
    split <;> exact outputRule_of_eq rfl
  | nHex2 =>
    refine answers_onDin hkeep fun _ _ => ?_
    unfold dinHex2
    split <;> exact outputRule_of_eq rfl
  | nCr =>
    exact answers_onDin hkeep fun _ _ => answers_ite (fun _ => outputRule_of_eq rfl) fun _ => outputRule_of_eq rfl
  | nLf =>
    exact answers_onDin hkeep fun _ _ => answers_ite
      (fun _ => answers_ite
        (fun _ => dinEmit_outputs (by simp [ho]) rfl nofun (by simp [ho]) fun _ => ⟨rfl, rfl⟩) fun _ =>
        outputRule_of_eq rfl) fun _ =>
      outputRule_of_eq rfl
  | _ => simp [ho, OpState.unit] at hu

/-! ### The block, the instructions and the step -/

/-- The receiver and the idle block write neither output. -/
theorem blockMove_outputs : Answers (OutputRule s) anyFault (blockMove s) := by
  have hw := blockMove_writes (s := s)
  unfold UnitWrites at hw
  cases hu : s.opstate.unit with
  | none =>
    rw [hu] at hw
    exact hw.mono fun t ⟨_, he⟩ => outputRule_of_eq (by rw [show t = s from he])
  | some u =>
    cases u with
    | frameEncoder => exact frameEncoder_outputs hu
    | receiver =>
      rw [hu] at hw
      exact hw.mono fun t ⟨_, he⟩ => outputRule_of_eq (by rw [ReceiverWrites.written he]; rfl)
    | textEncoder => exact textEncoder_outputs hu
    | textDecoder => exact textDecoder_outputs hu

theorem blockStep_outputs : Answers (OutputRule s) anyFault (blockStep s) :=
  answers_blockStep (fun _ => outputRule_of_eq rfl) blockMove_outputs

theorem offerSymbol_outputs (y : Symbol) : Answers (OutputRule s) anyFault (offerSymbol y s) := by
  have htext {o : OpState} (ho : s.opstate = o) (hunit : o.unit = some .textEncoder) :
      ({ s with sin := s.sin ++ [y] } : State).opstate.unit = some .textEncoder := (congrArg OpState.unit ho).trans hunit
  unfold offerSymbol takeSymbol
  split
  next ho => exact tFirst_outputs (htext ho rfl)
  next ho => exact tBody_outputs (htext ho rfl)
  next => exact outputRule_of_eq rfl

/-- Of the rows only the symbols can emit, in the step in which the encoder takes one (R74; log 10). -/
theorem exec_outputs (i : Instr) : Answers (OutputRule s) anyFault (exec i s) := by
  cases i with
  | symCh | symFs | symEnd | symReserved => exact offerSymbol_outputs _
  | resIdle => exact outputRule_of_eq rfl
  | _ => exact (exec_writes _).mono fun t hw => outputRule_of_eq (by rw [show t = _ from hw]; rfl)

theorem perform_outputs (e : Event) : Answers (OutputRule s) anyFault (perform e s) := by
  cases e with
  | wr r v => exact outputRule_of_eq (by simp [outputs])
  | wrbuf => exact answers_hostWriteTxbuf (outputRule_of_eq rfl)
  | rdbuf => exact answers_hostReadBuf (fun _ _ => trivial) fun _ => outputRule_of_eq rfl
  | copyMsg => exact answers_hostCopyMsg (fun _ _ => trivial) fun _ => outputRule_of_eq rfl
  | putSin | call => exact exec_outputs _
  | name n => exact (namedLookup_writes n).mono fun t hw => outputRule_of_eq (by rw [show t = _ from hw]; rfl)
  | skipIf c n =>
    show OutputRule s (if _ then _ else _)
    split <;> exact outputRule_of_eq rfl
  | tick => exact outputRule_of_eq (by simp [outputs])
  | go => exact blockStep_outputs
  | rd | arrive | putDin | getSout | wait | rst | answer | sink => exact outputRule_of_eq rfl

theorem step_outputs : Answers (OutputRule s) anyFault (step s) :=
  answers_step blockStep_outputs (fun _ rest i _ _ => exec_outputs (s := { s with agenda := rest }) i)
    fun e rest _ _ => perform_outputs (s := { s with agenda := rest }) e

end

end Sys2Proof.Machine

namespace Sys2Proof.Proofs

open Sys2Proof.Machine

/-- Settles O51: of the three cases of the rule only the emitted byte changes TX. -/
theorem txGrowsOnlyInAnEncode : Obligations.TxGrowsOnlyInAnEncode := by
  intro s t h
  rw [isUbxEncoder_iff_unit, mem_textEncoder_iff_unit]
  rcases step_outputs.of_next h with he | ⟨hready, hu, b, he⟩ | ⟨-, -, y, he, -⟩
  · exact .inl (congrArg Prod.fst he)
  · exact .inr ⟨hready, hu, b, congrArg Prod.fst he⟩
  · exact .inl (congrArg Prod.fst he)

/-- Settles O52: of the three cases of the rule only the emitted symbol changes `SOUT`. -/
theorem soutGrowsOnlyInADecode : Obligations.SoutGrowsOnlyInADecode := by
  intro s t h
  rcases step_outputs.of_next h with he | ⟨-, -, b, he⟩ | ⟨hwanted, ho, y, he, hy⟩
  · exact .inl (congrArg Prod.snd he)
  · exact .inl (congrArg Prod.snd he)
  · exact .inr ⟨hwanted, ho, y, congrArg Prod.snd he, hy⟩

end Sys2Proof.Proofs
end

section
/-! The wire forms (R90, R96): the bytes the decoder reads a frame or a sentence from are the bytes the row stands for, so
bytes arrive in the same way whether they are fetched as a row or performed (log 11). -/

namespace Sys2Proof.Machine

open Sys2Proof.Config

/-! ### The length field (R66, R91) -/

theorem loByte_ofNat (n : Nat) : loByte (BitVec.ofNat 16 n) = BitVec.ofNat 8 (n % 256) := by
  apply BitVec.eq_of_toNat_eq
  simp only [loByte, BitVec.extractLsb'_toNat, BitVec.toNat_ofNat, Nat.shiftRight_zero]
  omega

theorem hiByte_ofNat (n : Nat) : hiByte (BitVec.ofNat 16 n) = BitVec.ofNat 8 (n / 256) := by
  apply BitVec.eq_of_toNat_eq
  simp only [hiByte, BitVec.extractLsb'_toNat, BitVec.toNat_ofNat, Nat.shiftRight_eq_div_pow]
  omega

/-! ### What the decoder accepts -/

/-- A payload that more bytes follow has the length it was cut off with (R94). -/
theorem length_take_of_drop_eq_cons {bs after : List Byte} {b : Byte} {n : Nat} (h : bs.drop n = b :: after) :
    (bs.take n).length = n := by
  have hlen := congrArg List.length h
  rw [List.length_drop, List.length_cons] at hlen
  rw [List.length_take]
  omega

/-- A frame is read from its own bytes, those behind the two sync bytes (R90, R94). -/
theorem encode_of_decodeFrameBody {bs rest : List Byte} {i : Instr} (h : decodeFrameBody bs = .ok (i, rest)) :
    sync1 :: sync2 :: bs = encode i ++ rest := by
  unfold decodeFrameBody at h
  split at h
  next c k l hi tail =>
    dsimp only at h
    split_ifs at h
    split at h
    next a b after hdrop =>
      split_ifs at h
      cases h
      have htail : tail = tail.take (packHalf l hi).toNat ++ a :: b :: rest := by
        rw [← hdrop, List.take_append_drop]
      simp only [encode, ubxFrameBytes, ubxBody, length_take_of_drop_eq_cons hdrop, BitVec.ofNat_toNat,
        BitVec.setWidth_eq, loByte_packHalf, hiByte_packHalf, List.cons_append, List.append_assoc, List.nil_append]
      rw [← htail]
    next => cases h
  next => cases h

theorem encode_of_decodeFrame {bs rest : List Byte} {i : Instr} (h : decodeFrame bs = .ok (i, rest)) :
    bs = encode i ++ rest := by
  unfold decodeFrame at h
  split at h
  next s1 s2 body =>
    split_ifs at h with hsync
    obtain ⟨rfl, rfl⟩ := hsync
    exact encode_of_decodeFrameBody h
  next => cases h

/-- What `nmea_decode` accepts: `$`, a body without marker, terminator and second `$`, and the tail with the body's own
checksum (R96, R261). -/
theorem nmeaDecode_ok {bs rest : List Byte} {fields : List (List Byte)} (h : nmeaDecode bs = .ok (fields, rest)) :
    ∃ body, bs = dollar :: body ++ nmeaTail (ckx body) ++ rest ∧ fields = splitCommas (dollar :: body) ∧
      ∀ b ∈ body, b ≠ star ∧ bodyStopper b = false := by
  unfold nmeaDecode at h
  split at h
  next => cases h
  next d after =>
    split_ifs at h with hd
    obtain rfl : d = dollar := not_not.mp hd
    split at h
    next => cases h
    next body tail hbody =>
      obtain ⟨hafter, hchars⟩ := takeBody_some _ _ _ hbody
      split at h
      next => cases h
      next more htail =>
        cases h
        refine ⟨body, ?_, rfl, hchars⟩
        rw [hafter, checkTail_ok _ _ _ htail]
        simp [nmeaTail]

/-- A sentence is read from its own bytes (R181, R261). -/
theorem encode_of_decodeSentence {bs rest : List Byte} {i : Instr} (h : decodeSentence bs = .ok (i, rest)) :
    bs = encode i ++ rest := by
  unfold decodeSentence at h
  split at h
  · cases h
  · cases h
  next tag fields after hdec =>
    cases h
    obtain ⟨body, hbs, hsplit, -⟩ := nmeaDecode_ok hdec
    have hjoined : nmeaJoined tag fields = dollar :: body := joined_splitCommas _ _ _ hsplit.symm
    rw [hbs, encode, nmeaEncode, hjoined]
    rfl
  · cases h

/-! ### The rows and the items of the agenda -/

theorem exec_frame {i : Instr} (s : State) (hf : i.format = .frame) : exec i s = .next (arriveBytes (encode i) s) := by
  cases i with
  | ubxFrame => rfl
  | _ => cases hf

theorem exec_sentence {i : Instr} (s : State) (hf : i.format = .sentence) :
    exec i s = .next (offerBytes (encode i) s) := by
  cases i with
  | nmeaSentence => rfl
  | _ => cases hf

section
variable {s : State} {bs : List Byte} {rest : List Event}

/-- Bytes arrive at the transport, a frame or not (R70, R71, R72; log 11). -/
theorem step_arrive (h : s.agenda = .arrive bs :: rest) : step s = .next (arriveBytes bs { s with agenda := rest }) := by
  cases hf : fetch (.arrive bs) with
  | none => exact step_performed s _ rest h (by simp) hf
  | some i =>
    have hdec : decodeFrame bs = .ok (i, []) := decode_of_decodeWhole hf
    rw [step_fetched s _ rest i h hf, exec_frame _ (decodeFrame_format hdec), encode_of_decodeFrame hdec,
      List.append_nil]

/-- Bytes are offered on `DIN`, a sentence or not (R77; log 11). -/
theorem step_putDin (h : s.agenda = .putDin bs :: rest) : step s = .next (offerBytes bs { s with agenda := rest }) := by
  cases hf : fetch (.putDin bs) with
  | none => exact step_performed s _ rest h (by simp) hf
  | some i =>
    have hdec : decodeSentence bs = .ok (i, []) := decode_of_decodeWhole hf
    rw [step_fetched s _ rest i h hf, exec_sentence _ (decodeSentence_format hdec), encode_of_decodeSentence hdec,
      List.append_nil]

end

end Sys2Proof.Machine

namespace Sys2Proof.Proofs

open Sys2Proof.Machine

/-- Settles O28: the rows' bytes written out, and the two items of the agenda. -/
theorem wireFormsArriveByteByByte : Obligations.WireFormsArriveByteByByte := by
  refine ⟨fun s c i p a b => ?_, fun s tag fields => ?_, fun s bs rest => ⟨step_arrive, step_putDin⟩⟩
  · rw [← loByte_ofNat, ← hiByte_ofNat]
    rfl
  · rw [← hexchar_eq_hexDigit, ← hexchar_eq_hexDigit]
    rfl

end Sys2Proof.Proofs
end

section
/-! The symbols on `SIN` (R74, R186, R188): what the sentence encoder does with the first that waits, and the rows that put
one there. -/

namespace Sys2Proof.Machine

open Sys2Proof.Config

/-! ### The first symbol that waits -/

section
variable {s : State} {y : Symbol} {rest : List Symbol}

theorem stepTFirst_nil (h : s.sin = []) : stepTFirst s = .next s := by
  simp only [stepTFirst, h]

theorem stepTFirst_dollar (hsink : s.txReady = true) (h : s.sin = .ch dollar :: rest) :
    stepTFirst s = .next (emitTx dollar (goTo .tBody { s with sin := rest })) := by
  simp only [stepTFirst, h, if_pos, txStep_ready _ _ s hsink]

theorem stepTFirst_other (h : s.sin = y :: rest) (hy : y ≠ .ch dollar) :
    stepTFirst s = .next (complete .errTextFormat { s with sin := rest }) := by
  simp only [stepTFirst, h, if_neg hy]

theorem stepTBody_nil (h : s.sin = []) : stepTBody s = .next s := by
  simp only [stepTBody, h]

theorem stepTBody_ch {b : Byte} (hsink : s.txReady = true) (h : s.sin = .ch b :: rest) :
    stepTBody s = .next (emitTx b (foldXacc b { s with sin := rest })) := by
  simp only [stepTBody, h, txStep_ready _ _ s hsink]

theorem stepTBody_fs (hsink : s.txReady = true) (h : s.sin = .fs :: rest) :
    stepTBody s = .next (emitTx comma (foldXacc comma { s with sin := rest })) := by
  simp only [stepTBody, h, txStep_ready _ _ s hsink]

theorem stepTBody_endMsg (hsink : s.txReady = true) (h : s.sin = .endMsg :: rest) :
    stepTBody s = .next (emitTx star (goTo .tHexHi { s with sin := rest })) := by
  simp only [stepTBody, h, txStep_ready _ _ s hsink]

theorem stepTBody_reserved (h : s.sin = .reserved :: rest) :
    stepTBody s = .next (complete .errTextFormat { s with sin := rest }) := by
  simp only [stepTBody, h]

/-- A symbol whose byte finds no ready sink stays where it is (R73, R195; log 15). -/
theorem stepTFirst_wait (hsink : s.txReady = false) (h : s.sin = .ch dollar :: rest) : stepTFirst s = .next s := by
  simp only [stepTFirst, h, if_pos, txStep_wait _ _ s hsink]

theorem stepTBody_wait (hsink : s.txReady = false) (h : s.sin = y :: rest) (hy : y ≠ .reserved) :
    stepTBody s = .next s := by
  cases y with
  | ch | fs | endMsg => simp only [stepTBody, h, txStep_wait _ _ s hsink]
  | reserved => exact absurd rfl hy

end

/-! ### The rows that offer a symbol -/

theorem exec_symbolRow (y : Symbol) (d : Byte) (s : State) : exec (symbolRow y d) s = offerSymbol y s := by
  cases y <;> rfl

section
variable {s : State} {y : Symbol}

theorem offerSymbol_tFirst (ho : s.opstate = .tFirst) : offerSymbol y s = stepTFirst { s with sin := s.sin ++ [y] } := by
  simp only [offerSymbol, takeSymbol, ho]

theorem offerSymbol_tBody (ho : s.opstate = .tBody) : offerSymbol y s = stepTBody { s with sin := s.sin ++ [y] } := by
  simp only [offerSymbol, takeSymbol, ho]

theorem offerSymbol_elsewhere (hfirst : s.opstate ≠ .tFirst) (hbody : s.opstate ≠ .tBody) :
    offerSymbol y s = .next { s with sin := s.sin ++ [y] } := by
  unfold offerSymbol takeSymbol
  split
  next ho => exact absurd ho hfirst
  next ho => exact absurd ho hbody
  next => rfl

/-- With nothing on `SIN` an offered symbol is the first that waits, and taking it leaves the stream as it was. -/
theorem eq_sin_nil (h : s.sin = []) : ∃ u : State, s = { u with sin := [] } :=
  ⟨s, by rw [← h]⟩

end

end Sys2Proof.Machine

namespace Sys2Proof.Proofs

open Sys2Proof.Machine

/-- Settles O31: the offered symbol is the first that waits, so the encoder's rule for it is the step; elsewhere it only
waits. -/
theorem symbolRowsOfferASymbol : Obligations.SymbolRowsOfferASymbol := by
  intro s d
  refine ⟨fun ho he => ?_, fun ho he => ?_, fun y hy => ?_⟩
  · obtain ⟨u, rfl⟩ := eq_sin_nil he
    exact ⟨fun hsink => (offerSymbol_tFirst ho).trans (stepTFirst_dollar (rest := []) hsink rfl),
      fun y hy => (exec_symbolRow y d _).trans ((offerSymbol_tFirst ho).trans (stepTFirst_other rfl hy))⟩
  · obtain ⟨u, rfl⟩ := eq_sin_nil he
    exact ⟨fun b hsink => (offerSymbol_tBody ho).trans (stepTBody_ch (rest := []) hsink rfl),
      fun hsink => (offerSymbol_tBody ho).trans (stepTBody_fs (rest := []) hsink rfl),
      fun hsink => (offerSymbol_tBody ho).trans (stepTBody_endMsg (rest := []) hsink rfl),
      (offerSymbol_tBody ho).trans (stepTBody_reserved rfl)⟩
  · rw [exec_symbolRow]
    rcases hy with ⟨hfirst, hbody⟩ | ⟨ho, he, hsink, rfl⟩ | ⟨ho, he, hsink, hy⟩
    · exact offerSymbol_elsewhere hfirst hbody
    · obtain ⟨u, rfl⟩ := eq_sin_nil he
      exact (offerSymbol_tFirst ho).trans (stepTFirst_wait hsink rfl)
    · obtain ⟨u, rfl⟩ := eq_sin_nil he
      exact (offerSymbol_tBody ho).trans (stepTBody_wait hsink rfl hy)

end Sys2Proof.Proofs
end

section
/-! What waits (R73, R167, R195, R279): a transition that cannot happen answers the same state, and so does every run of
them (log 15). -/

namespace Sys2Proof.Machine

open Sys2Proof.Config

section
variable {s : State}

/-- A state that a step leaves as it is stays for ever. -/
theorem run_of_step_self (h : step s = .next s) (k : Nat) : run k s = .next s := by
  induction k with
  | zero => rfl
  | succ k ih => rw [run_step k s s h, ih]

theorem run_of_blockMove_self (hturn : BlockTurn s) (h : blockMove s = .next s) (k : Nat) : run k s = .next s :=
  run_of_step_self ((step_blockTurn s hturn).trans h) k

/-! ### The transitions of the states that wait for more than a byte or the sink (R31) -/

theorem blockMove_tFirst (ho : s.opstate = .tFirst) : blockMove s = stepTFirst s := by
  rw [blockMove, ho]

theorem blockMove_tBody (ho : s.opstate = .tBody) : blockMove s = stepTBody s := by
  rw [blockMove, ho]

theorem blockMove_nStart (ho : s.opstate = .nStart) : blockMove s = onDin dinStart s := by
  rw [blockMove, ho, stepNStart]

theorem blockMove_nBody (ho : s.opstate = .nBody) : blockMove s = onDin dinBody s := by
  rw [blockMove, ho, stepNBody]

theorem blockMove_nLf (ho : s.opstate = .nLf) : blockMove s = onDin dinLf s := by
  rw [blockMove, ho, stepNLf]

/-! ### A sink that takes nothing, and a decoder without a byte -/

/-- The frame encoder waits for its sink, in `E_PAY` before it looks at the payload (R163, R167). -/
theorem frameEncoder_wait (hsink : s.txReady = false) (hu : s.opstate.unit = some .frameEncoder) :
    blockMove s = .next s := by
  unfold blockMove
  cases ho : s.opstate with
  | eSync1 | eSync2 | eCls | eId | eLen0 | eLen1 | eCkA | eCkB => exact txStep_wait _ _ s hsink
  | ePay => exact if_neg (by simp [hsink])
  | _ => simp [ho, OpState.unit] at hu

/-- The sentence encoder waits for its sink behind the marker (R190 to R193, R195). -/
theorem sentenceTail_wait (hsink : s.txReady = false) (ho : s.opstate ∈ [.tHexHi, .tHexLo, .tCr, .tLf]) :
    blockMove s = .next s := by
  unfold blockMove
  cases h : s.opstate with
  | tHexHi | tHexLo | tCr | tLf => exact txStep_wait _ _ s hsink
  | _ => simp [h] at ho

/-- The sentence decoder waits for a byte (R77, R279). -/
theorem textDecoder_wait (hu : s.opstate.unit = some .textDecoder) (hd : s.din = []) : blockMove s = .next s := by
  unfold blockMove
  cases ho : s.opstate with
  | nStart | nBody | nHex1 | nHex2 | nCr | nLf => exact onDin_nil _ s hd
  | _ => simp [ho, OpState.unit] at hu

/-! ### A decoder whose symbol the host does not take: the byte stays (R279) -/

theorem dinEmit_wait (y : Symbol) (f : State → State) (taken : State) (hhost : s.soutWanted = 0) :
    dinEmit y f taken s = .next s := by
  simp [dinEmit, hhost]

variable {rest : List Byte}

theorem nStart_wait (ho : s.opstate = .nStart) (hd : s.din = dollar :: rest) (hhost : s.soutWanted = 0) :
    blockMove s = .next s := by
  rw [blockMove_nStart ho, onDin_cons _ s _ _ hd, dinStart, if_pos rfl, dinEmit_wait _ _ _ hhost]

theorem nBody_wait {b : Byte} (ho : s.opstate = .nBody) (hd : s.din = b :: rest) (hb : b ∉ [star, cr, lf, dollar])
    (hhost : s.soutWanted = 0) : blockMove s = .next s := by
  simp only [List.mem_cons, List.not_mem_nil, or_false, not_or] at hb
  obtain ⟨hstar, hstop⟩ := hb
  have hbody : ¬ bodyStopper b = true := by simp [(bodyStopper_false_iff b).mpr hstop]
  rw [blockMove_nBody ho, onDin_cons _ s _ _ hd, dinBody, if_neg hstar, if_neg hbody, dinEmit_wait _ _ _ hhost,
    dinEmit_wait _ _ _ hhost, ite_self]

theorem nLf_wait (ho : s.opstate = .nLf) (hd : s.din = lf :: rest) (hok : s.rxck = s.xacc) (hhost : s.soutWanted = 0) :
    blockMove s = .next s := by
  rw [blockMove_nLf ho, onDin_cons _ s _ _ hd, dinLf, if_pos rfl, if_pos hok, dinEmit_wait _ _ _ hhost]

end

end Sys2Proof.Machine

namespace Sys2Proof.Proofs

open Sys2Proof.Machine

/-- Settles O37: in each case the transition is one that waits. -/
theorem aWaitingBlockStays : Obligations.AWaitingBlockStays := by
  intro s k hturn
  have hstay (h : blockMove s = .next s) : run k s = .next s := run_of_blockMove_self hturn h k
  refine ⟨fun hsink ho => ?_, fun rest hsink ho hs => ?_, fun y rest hsink ho hs hy => ?_, fun ho hs => ?_,
    fun ho hd => ?_, fun rest ho hd hhost => hstay (nStart_wait ho hd hhost),
    fun b rest ho hd hb hhost => hstay (nBody_wait ho hd hb hhost),
    fun rest ho hd hok hhost => hstay (nLf_wait ho hd hok hhost)⟩
  · rcases ho with hu | ho
    · exact hstay (frameEncoder_wait hsink ((isUbxEncoder_iff_unit _).mp hu))
    · exact hstay (sentenceTail_wait hsink ho)
  · exact hstay ((blockMove_tFirst ho).trans (stepTFirst_wait hsink hs))
  · have hres : y ≠ .reserved := by rintro rfl; simp at hy
    exact hstay ((blockMove_tBody ho).trans (stepTBody_wait hsink hs hres))
  · rcases ho with ho | ho
    · exact hstay ((blockMove_tFirst ho).trans (stepTFirst_nil hs))
    · exact hstay ((blockMove_tBody ho).trans (stepTBody_nil hs))
  · exact hstay (textDecoder_wait ((mem_textDecoder_iff_unit _).mp ho) hd)

end Sys2Proof.Proofs
end

section
/-! The encodings (R90, R93, R96, R100, R101, R107, R112, R300): each decoder reads a well-formed row back from its
bytes, and what it reads is well formed. That the bytes taken are the row's encoding is known for frames and sentences;
here it is added for the formats of fixed length. -/

namespace Sys2Proof.Machine

open Sys2Proof.Config

/-! ### Command bytes (R100, R101) -/

theorem decodeCommand_of_not_definedOp {op : Byte} (h : definedOp op = false) : decodeCommand op = .reservedCmd op := by
  have hne (k : Byte) (hk : definedOp k = true) : op ≠ k := by
    rintro rfl
    exact absurd (h.symm.trans hk) nofun
  simp only [decodeCommand, if_neg (hne 0x01 rfl), if_neg (hne 0x02 rfl), if_neg (hne 0x03 rfl), if_neg (hne 0x04 rfl),
    if_neg (hne 0x05 rfl), if_neg (hne 0x06 rfl), if_neg (hne 0x07 rfl)]

/-- The seven codes of R100 are the only ones with a command of their own. -/
theorem decodeCommand_of_definedOp {op : Byte} (h : definedOp op = true) :
    (decodeCommand op).wf = true ∧ encode (decodeCommand op) = [op] := by
  revert op
  decide

theorem decodeCommand_wf_encode (op : Byte) : (decodeCommand op).wf = true ∧ encode (decodeCommand op) = [op] := by
  cases h : definedOp op with
  | true => exact decodeCommand_of_definedOp h
  | false =>
    rw [decodeCommand_of_not_definedOp h]
    exact ⟨by simp [Instr.wf, h], rfl⟩

/-! ### Symbol words (R107, R108; log 23) -/

theorem symbolWord_data (lo hi : Byte) : ((packHalf lo hi).setWidth 10).extractLsb' 0 8 = lo := by
  apply BitVec.eq_of_toNat_eq
  rw [BitVec.extractLsb'_toNat, BitVec.toNat_setWidth, packHalf_toNat, Nat.shiftRight_zero]
  omega

theorem symbolWord_kind (lo hi : Byte) : ((packHalf lo hi).setWidth 10).extractLsb' 8 2 = hi.setWidth 2 := by
  apply BitVec.eq_of_toNat_eq
  rw [BitVec.extractLsb'_toNat, BitVec.toNat_setWidth, BitVec.toNat_setWidth, packHalf_toNat,
    Nat.shiftRight_eq_div_pow]
  omega

/-- A word's kind and data bits are those of its row. -/
theorem encode_decodeSymbol (w : BitVec 10) :
    (decodeSymbol w).wf = true ∧ encode (decodeSymbol w) = symbolBytes (w.extractLsb' 8 2) (w.extractLsb' 0 8) := by
  have hkind : ∀ k : BitVec 2, k ≠ 0b00 → k ≠ 0b01 → k ≠ 0b10 → k = 0b11 := by decide
  unfold decodeSymbol
  dsimp only
  split_ifs with h0 h1 h2
  · rw [h0]; exact ⟨rfl, rfl⟩
  · rw [h1]; exact ⟨rfl, rfl⟩
  · rw [h2]; exact ⟨rfl, rfl⟩
  · rw [hkind _ h0 h1 h2]; exact ⟨rfl, rfl⟩

/-- The second byte of a symbol word holds the kind and nothing else. -/
theorem kindByte_of_lt {hi : Byte} (h : hi < 4) : (hi.setWidth 2).setWidth 8 = hi := by
  revert hi
  decide

theorem kindByte_lt (kind : BitVec 2) : kind.setWidth 8 < (4 : Byte) := by
  revert kind
  decide

theorem decode_symbolBytes (kind : BitVec 2) (d : Byte) (rest : List Byte) :
    decode .sym10 (symbolBytes kind d ++ rest)
      = .ok (decodeSymbol ((packHalf d (kind.setWidth 8)).setWidth 10), rest) :=
  if_pos (kindByte_lt kind)

/-- What the symbol decoder reads is the row of a word that stands in the two bytes. -/
theorem decode_sym10 {bs rest : List Byte} {i : Instr} (h : decode .sym10 bs = .ok (i, rest)) :
    ∃ w : BitVec 10, i = decodeSymbol w ∧ bs = symbolBytes (w.extractLsb' 8 2) (w.extractLsb' 0 8) ++ rest := by
  unfold decode at h
  dsimp only at h
  split at h
  next lo hi tail =>
    split_ifs at h with hlt
    cases h
    refine ⟨_, rfl, ?_⟩
    rw [symbolWord_kind, symbolWord_data, symbolBytes, kindByte_of_lt hlt]
    rfl
  next => cases h

/-- The four kinds of R107. -/
theorem decodeSymbol_packHalf (kind : BitVec 2) (d : Byte) :
    decodeSymbol ((packHalf d (kind.setWidth 8)).setWidth 10) =
      if kind = 0b00 then .symCh d else if kind = 0b01 then .symFs d else if kind = 0b10 then .symEnd d
      else .symReserved d := by
  have hkind : (kind.setWidth 8).setWidth 2 = kind := by revert kind; decide
  simp only [decodeSymbol, symbolWord_kind, symbolWord_data, hkind]
  rfl

/-! ### Names and outcomes (R112, R300) -/

theorem decodeName_wf_encode {n : Byte} {i : Instr} (h : decodeName n = some i) : i.wf = true ∧ encode i = [n] := by
  unfold decodeName at h
  split_ifs at h <;> cases h <;> subst_vars <;> exact ⟨rfl, rfl⟩

theorem decodeResult_wf_encode {c : Byte} {i : Instr} (h : decodeResult c = some i) :
    i.wf = true ∧ i.format = .result8 ∧ encode i = [c] := by
  unfold decodeResult at h
  split_ifs at h <;> cases h <;> subst_vars <;> exact ⟨rfl, rfl, rfl⟩

section
variable {bs rest : List Byte} {i : Instr}

theorem decode_cidrom (h : decode .cidrom bs = .ok (i, rest)) : ∃ n, bs = n :: rest ∧ decodeName n = some i := by
  unfold decode at h
  dsimp only at h
  split at h
  next n tail =>
    split at h <;> cases h
    exact ⟨n, rfl, by assumption⟩
  next => cases h

theorem decode_result8 (h : decode .result8 bs = .ok (i, rest)) : ∃ c, bs = c :: rest ∧ decodeResult c = some i := by
  unfold decode at h
  dsimp only at h
  split at h
  next c tail =>
    split at h <;> cases h
    exact ⟨c, rfl, by assumption⟩
  next => cases h

end

/-! ### Frames (R90, R93, R94) -/

/-- A length field is negative where it is above 32767 (R94). -/
theorem getLsbD_sign (n : Half) : n.getLsbD 15 = decide (lenMax < n.toNat) :=
  (BitVec.msb_eq_getLsbD_last n).symm.trans (BitVec.msb_eq_decide n)

theorem decodeFrame_ubxFrameBytes {c i a b : Byte} {p : List Byte} (rest : List Byte) (hlen : p.length ≤ lenMax)
    (hck : ck2 (ubxBody c i p) = (a, b)) :
    decodeFrame (ubxFrameBytes c i p a b ++ rest) = .ok (.ubxFrame c i p a b, rest) := by
  have hnat : (BitVec.ofNat 16 p.length).toNat = p.length :=
    Nat.mod_eq_of_lt (Nat.lt_of_le_of_lt hlen (by decide))
  have hsign : (BitVec.ofNat 16 p.length).getLsbD 15 = false := by
    rw [getLsbD_sign, hnat]
    exact decide_eq_false (Nat.not_lt.mpr hlen)
  have hbytes : ubxFrameBytes c i p a b ++ rest = sync1 :: sync2 :: c :: i :: loByte (BitVec.ofNat 16 p.length)
      :: hiByte (BitVec.ofNat 16 p.length) :: (p ++ a :: b :: rest) := by
    simp [ubxFrameBytes, ubxBody]
  simp only [hbytes, decodeFrame, decodeFrameBody, packHalf_lo_hi, hsign, hnat, List.drop_left, List.take_left, hck,
    and_self, if_true, Bool.false_eq_true, if_false]

theorem decodeFrameBody_wf {bs rest : List Byte} {i : Instr} (h : decodeFrameBody bs = .ok (i, rest)) :
    i.wf = true := by
  unfold decodeFrameBody at h
  split at h
  next c k l hi tail =>
    dsimp only at h
    split_ifs at h with hsign
    split at h
    next a b after hdrop =>
      split_ifs at h with hck
      cases h
      have hlen : (tail.take (packHalf l hi).toNat).length ≤ lenMax := by
        rw [length_take_of_drop_eq_cons hdrop]
        rw [getLsbD_sign, decide_eq_true_iff] at hsign
        exact Nat.not_lt.mp hsign
      exact Bool.and_eq_true_iff.mpr ⟨decide_eq_true hlen, decide_eq_true hck⟩
    next => cases h
  next => cases h

theorem decodeFrame_wf {bs rest : List Byte} {i : Instr} (h : decodeFrame bs = .ok (i, rest)) : i.wf = true := by
  unfold decodeFrame at h
  split at h
  next =>
    split_ifs at h
    exact decodeFrameBody_wf h
  next => cases h

/-! ### Sentences (R96, R98, R278) -/

/-- A byte that may stand between `$` and the marker (R261). -/
def BodyText (body : List Byte) : Prop := ∀ b ∈ body, b ≠ star ∧ bodyStopper b = false

/-- A sentence with the given digits, whether or not they are its checksum (R96). -/
def sentenceBytes (body : List Byte) (h l : BitVec 4) : List Byte :=
  dollar :: body ++ [star, hexDigit h, hexDigit l, cr, lf]

/-- A tail of the right form is judged by its digits alone (R274). -/
theorem checkTail_digits (c : Byte) (h l : BitVec 4) (rest : List Byte) :
    checkTail c (hexDigit h :: hexDigit l :: cr :: lf :: rest)
      = if packByte h l = c then .ok rest else .error .checksum := by
  simp [checkTail]

theorem sentenceBytes_append (body : List Byte) (h l : BitVec 4) (rest : List Byte) :
    sentenceBytes body h l ++ rest
      = dollar :: (body ++ star :: hexDigit h :: hexDigit l :: cr :: lf :: rest) := by
  simp [sentenceBytes]

/-- The value of `nmea_decode` on the form of a sentence. -/
theorem nmeaDecode_sentenceBytes {body : List Byte} (hbody : BodyText body) (h l : BitVec 4) (rest : List Byte) :
    nmeaDecode (sentenceBytes body h l ++ rest) =
      if packByte h l = ckx body then .ok (splitCommas (dollar :: body), rest) else .error .checksum := by
  rw [sentenceBytes_append, nmeaDecode, if_neg (not_not.mpr rfl), takeBody_append body _ hbody]
  simp only [checkTail_digits]
  split_ifs <;> rfl

/-- The characters of the fields of a well-formed sentence, and their commas, are no marker and no terminator. -/
theorem fieldBytes_chars {fields : List (List Byte)} (h : ∀ f ∈ fields, ∀ b ∈ f, fieldChar b = true) :
    BodyText (fieldBytes fields) := by
  induction fields with
  | nil => nofun
  | cons f fs ih =>
    intro b hb
    rw [fieldBytes, List.mem_cons, List.mem_append] at hb
    rcases hb with rfl | hb | hb
    · decide
    · obtain ⟨-, hstar, hstop⟩ := (fieldChar_iff b).mp (h f (by simp) b hb)
      exact ⟨hstar, (bodyStopper_false_iff b).mpr hstop⟩
    · exact ih (fun g hg => h g (by simp [hg])) b hb

/-- What `Instr.wf` asks of a sentence (R96, R278). -/
theorem nmeaSentence_wf_iff (tag : List Byte) (fields : List (List Byte)) :
    (Instr.nmeaSentence tag fields).wf = true ↔
      ∃ t, tag = dollar :: t ∧ (∀ b ∈ t, fieldChar b = true) ∧ ∀ f ∈ fields, ∀ b ∈ f, fieldChar b = true := by
  cases tag with
  | nil => simp [Instr.wf, tagOk]
  | cons d t => simp [Instr.wf, tagOk, and_assoc]

/-- A sentence's own digits are those of its checksum (R67, R98). -/
theorem nmeaEncode_eq_sentenceBytes (t : List Byte) (fields : List (List Byte)) :
    nmeaEncode (dollar :: t) fields = sentenceBytes (t ++ fieldBytes fields) (hiNibble (ckx (t ++ fieldBytes fields)))
      (loNibble (ckx (t ++ fieldBytes fields))) := by
  rw [sentenceBytes, ← hexchar_eq_hexDigit, ← hexchar_eq_hexDigit]
  rfl

theorem decodeSentence_nmeaEncode {tag : List Byte} {fields : List (List Byte)} (rest : List Byte)
    (h : (Instr.nmeaSentence tag fields).wf = true) :
    decodeSentence (nmeaEncode tag fields ++ rest) = .ok (.nmeaSentence tag fields, rest) := by
  obtain ⟨t, rfl, htag, hfields⟩ := (nmeaSentence_wf_iff tag fields).mp h
  have hbody : BodyText (t ++ fieldBytes fields) := by
    intro b hb
    rcases List.mem_append.mp hb with hb | hb
    · obtain ⟨-, hstar, hstop⟩ := (fieldChar_iff b).mp (htag b hb)
      exact ⟨hstar, (bodyStopper_false_iff b).mpr hstop⟩
    · exact fieldBytes_chars hfields b hb
  have hcomma {f : List Byte} (hf : ∀ b ∈ f, fieldChar b = true) : ∀ b ∈ f, b ≠ comma :=
    fun b hb => ((fieldChar_iff b).mp (hf b hb)).1
  have htagComma : ∀ b ∈ dollar :: t, b ≠ comma := List.forall_mem_cons.mpr ⟨by decide, hcomma htag⟩
  have hsplit : splitCommas (dollar :: (t ++ fieldBytes fields)) = (dollar :: t) :: fields :=
    splitCommas_joined (dollar :: t) fields htagComma fun f hf => hcomma (hfields f hf)
  have hdec : nmeaDecode (nmeaEncode (dollar :: t) fields ++ rest) = .ok ((dollar :: t) :: fields, rest) := by
    rw [nmeaEncode_eq_sentenceBytes, nmeaDecode_sentenceBytes hbody, if_pos (packByte_hi_lo _), hsplit]
  simp only [decodeSentence, hdec]

/-- A first byte that is no comma goes to the first field. -/
theorem splitCommas_cons {b : Byte} (hb : b ≠ comma) (bs : List Byte) :
    ∃ f fs, splitCommas bs = f :: fs ∧ splitCommas (b :: bs) = (b :: f) :: fs := by
  cases h : splitCommas bs with
  | nil => exact absurd h (splitCommas_ne_nil bs)
  | cons f fs => exact ⟨f, fs, rfl, by simp [splitCommas, hb, h]⟩

theorem decodeSentence_wf {bs rest : List Byte} {i : Instr} (h : decodeSentence bs = .ok (i, rest)) : i.wf = true := by
  unfold decodeSentence at h
  split at h
  · cases h
  · cases h
  next tag fields after hdec =>
    cases h
    obtain ⟨body, -, hsplit, hbody⟩ := nmeaDecode_ok hdec
    obtain ⟨t, fs, ht, hcons⟩ := splitCommas_cons (show dollar ≠ comma by decide) body
    obtain ⟨rfl, rfl⟩ := List.cons.inj (hsplit.trans hcons)
    have hchar : ∀ f ∈ t :: fields, ∀ b ∈ f, fieldChar b = true := by
      rw [← ht]
      intro f hf b hb
      obtain ⟨hcomma, hmem⟩ := splitCommas_no_comma body f hf b hb
      obtain ⟨hstar, hstop⟩ := hbody b hmem
      exact (fieldChar_iff b).mpr ⟨hcomma, hstar, (bodyStopper_false_iff b).mp hstop⟩
    exact (nmeaSentence_wf_iff _ _).mpr ⟨t, rfl, hchar t (by simp), fun f hf => hchar f (by simp [hf])⟩
  · cases h

end Sys2Proof.Machine

namespace Sys2Proof.Proofs

open Sys2Proof Sys2Proof.Machine

/-- Settles O1: one format after the other; the decoder of a frame and of a sentence finds the end by itself. -/
theorem decodeOfEncode : Obligations.DecodeOfEncode := by
  intro i rest hwf hformat
  cases i with
  | ck2 | ckx | lookup | ubxenc | ubxrecv | nmeaenc | nmeadec => rfl
  | reservedCmd op =>
    exact congrArg (fun i => Except.ok (i, rest)) (decodeCommand_of_not_definedOp (by simpa [Instr.wf] using hwf))
  | symCh d | symFs d | symEnd d | symReserved d =>
    exact (decode_symbolBytes _ d rest).trans (by rw [decodeSymbol_packHalf]; rfl)
  | ubxFrame c k p a b =>
    obtain ⟨hlen, hck⟩ := Bool.and_eq_true_iff.mp hwf
    exact decodeFrame_ubxFrameBytes rest (of_decide_eq_true hlen) (of_decide_eq_true hck)
  | nmeaSentence tag fields => exact decodeSentence_nmeaEncode rest hwf
  | nameCfgMsg | nameCfgNav5 | nameCfgCfg | nameGll | nameRmc | nameGsv => rfl
  | resIdle | resOk | resNoMessage | errPayloadTooLarge | errUnknownMessageType | errFraming | errChecksumMismatch
  | errTransport | errTextFormat | errBadCommand => rfl
  | ubxencNamed | pubxSetbaud | pubxSetrate | exchange | ubxdecode => exact absurd rfl hformat

/-- Settles O2: one format after the other. -/
theorem decodedBytesAreTheEncoding : Obligations.DecodedBytesAreTheEncoding := by
  intro f bs rest i h
  cases f with
  | frame => exact ⟨decodeFrame_wf h, decodeFrame_format h, encode_of_decodeFrame h⟩
  | sentence => exact ⟨decodeSentence_wf h, decodeSentence_format h, encode_of_decodeSentence h⟩
  | pseudo => cases h
  | cmd8 =>
    match bs, h with
    | op :: _, rfl =>
      obtain ⟨hwf, hbytes⟩ := decodeCommand_wf_encode op
      exact ⟨hwf, decodeCommand_format op, by rw [hbytes]; rfl⟩
  | sym10 =>
    obtain ⟨w, rfl, rfl⟩ := decode_sym10 h
    obtain ⟨hwf, hbytes⟩ := encode_decodeSymbol w
    exact ⟨hwf, decodeSymbol_format w, by rw [hbytes]⟩
  | cidrom =>
    obtain ⟨n, rfl, hn⟩ := decode_cidrom h
    obtain ⟨hwf, hbytes⟩ := decodeName_wf_encode hn
    exact ⟨hwf, decodeName_format hn, by rw [hbytes]; rfl⟩
  | result8 =>
    obtain ⟨c, rfl, hc⟩ := decode_result8 h
    obtain ⟨hwf, hformat, hbytes⟩ := decodeResult_wf_encode hc
    exact ⟨hwf, hformat, by rw [hbytes]; rfl⟩

/-- Settles O3: each word is the encoding of its row, which decodes to it. -/
theorem writtenWordsDecode : Obligations.WrittenWordsDecode :=
  ⟨decodeOfEncode .ubxrecv [] rfl nofun, decodeOfEncode (.reservedCmd 0x08) [] rfl nofun,
    decodeOfEncode (.symCh 0x24) [] rfl nofun, decodeOfEncode (.symFs 0xFF) [] rfl nofun,
    decodeOfEncode (.ubxFrame 0x06 0x01 [0xF0, 0x01, 0x00] 0xFB 0x11) [] (by decide) nofun,
    decodeOfEncode (.nmeaSentence [0x24, 0x50, 0x55, 0x42, 0x58] []) [] (by decide) nofun,
    decodeOfEncode .nameRmc [] rfl nofun, decodeOfEncode .errChecksumMismatch [] rfl nofun⟩

end Sys2Proof.Proofs
end

section
/-! The commands that end in the step that accepts them (R101, R113, R152), the names (R112; log 9) and the expansions
of the pseudo-operations (R119; log 12). -/

namespace Sys2Proof.Machine

open Sys2Proof.Config

/-- The codes outside 0x01 to 0x07 are reserved (R101). -/
theorem not_definedOp_of_reserved {op : Byte} (h : op = 0x00 ∨ 0x08 ≤ op) : definedOp op = false := by
  rcases h with rfl | h
  · rfl
  · refine decide_eq_false fun ⟨_, hle⟩ => ?_
    have : ¬ (0x08 : Byte) ≤ 0x07 := by decide
    exact this (BitVec.le_trans h hle)

/-! ### The name table (R112, R113) -/

/-- The six entries of CIDROM: index, class, id (R112). -/
def cidEntries : List (Byte × Byte × Byte) :=
  [(0x00, 0x06, 0x01), (0x01, 0x06, 0x24), (0x02, 0x06, 0x09), (0x80, 0xF0, 0x01), (0x81, 0xF0, 0x04),
    (0x82, 0xF0, 0x03)]

theorem cidRom_of_mem {n c i : Byte} (h : (n, c, i) ∈ cidEntries) : cidRom n = some (c, i) := by
  simp only [cidEntries, List.mem_cons, List.not_mem_nil, or_false, Prod.mk.injEq] at h
  rcases h with ⟨rfl, rfl, rfl⟩ | ⟨rfl, rfl, rfl⟩ | ⟨rfl, rfl, rfl⟩ | ⟨rfl, rfl, rfl⟩ | ⟨rfl, rfl, rfl⟩ |
    ⟨rfl, rfl, rfl⟩ <;> rfl

/-- Every other index names nothing, in the table and for the decoder (R113). -/
theorem cidRom_eq_none {n : Byte} (h : n ∉ [0x00, 0x01, 0x02, 0x80, 0x81, 0x82]) :
    cidRom n = none ∧ decodeName n = none := by
  simp only [List.mem_cons, List.not_mem_nil, or_false, not_or] at h
  simp only [cidRom, decodeName, h, if_false, and_self]

/-! ### LOOKUP on an idle block (R152) -/

section
variable {s : State} {c i : Byte} (hb : s.busy = false)
include hb

theorem lookup_known (h : cidRom s.argName = some (c, i)) :
    onCmd lookupEffect s = .next { s with argClsid := packHalf c i, result := 0x01, done := true } := by
  have haccept : cidRom (acceptCmd s).argName = some (c, i) := h
  rw [onCmd_idle _ s hb, lookupEffect, haccept]
  rfl

theorem lookup_unknown (h : cidRom s.argName = none) :
    onCmd lookupEffect s = .next { s with result := 0x11, done := true } := by
  have haccept : cidRom (acceptCmd s).argName = none := h
  rw [onCmd_idle _ s hb, lookupEffect, haccept]
  rfl

/-- `WR ARG_NAME, n` (R41). -/
theorem writeReg_argName_byte (n : Byte) : writeReg .argName (n.setWidth 32) s = { s with argName := n } := by
  rw [writeReg_argName_of_idle _ s hb, BitVec.setWidth_setWidth_of_le n (by decide), BitVec.setWidth_eq]

theorem namedLookup_known {n : Byte} (h : (n, c, i) ∈ cidEntries) :
    namedLookup n s = .next { s with argName := n, argClsid := packHalf c i, result := 0x01, done := true } := by
  rw [namedLookup, writeReg_argName_byte hb]
  exact lookup_known (s := { s with argName := n }) hb (cidRom_of_mem h)

theorem namedLookup_unknown {n : Byte} (h : n ∉ [0x00, 0x01, 0x02, 0x80, 0x81, 0x82]) :
    namedLookup n s = .next { s with argName := n, result := 0x11, done := true } := by
  rw [namedLookup, writeReg_argName_byte hb]
  exact lookup_unknown (s := { s with argName := n }) hb (cidRom_eq_none h).1

end

/-- An index that names nothing is no row, and is looked up in vain (R113; log 9). -/
theorem step_name_unknown {s : State} {n : Byte} {rest : List Event} (hb : s.busy = false)
    (ha : s.agenda = .name n :: rest) (hn : n ∉ [0x00, 0x01, 0x02, 0x80, 0x81, 0x82]) :
    step s = .next { s with agenda := rest, argName := n, result := 0x11, done := true } :=
  (step_performed s (.name n) rest ha (by simp) (cidRom_eq_none hn).2).trans
    (namedLookup_unknown (s := { s with agenda := rest }) hb hn)

/-- The part of a payload that TXBUF can hold (R64; log 12). -/
theorem length_txbufPart (p : List Byte) : (txbufPart p).length = min 32768 p.length := List.length_take

end Sys2Proof.Machine

namespace Sys2Proof.Proofs

open Sys2Proof Sys2Proof.Machine

/-- Settles O14: a reserved code is the row of that code, whose effect does not look at it. -/
theorem reservedCodesAreRefused : Obligations.ReservedCodesAreRefused :=
  fun _ hop => ⟨decodeCommand_of_not_definedOp (not_definedOp_of_reserved hop), fun s hb => onCmd_idle _ s hb⟩

/-- Settles O9: the six entries of the table, and the indices outside it. -/
theorem lookupReadsTheTable : Obligations.LookupReadsTheTable := by
  refine ⟨rfl, fun s hb => ?_⟩
  have hknown (n c i : Byte) (hmem : (n, c, i) ∈ cidEntries) (hn : s.argName = n) :
      exec .lookup s = .next { s with argClsid := packHalf c i, result := 0x01, done := true } :=
    lookup_known hb (hn ▸ cidRom_of_mem hmem)
  exact ⟨hknown 0x00 0x06 0x01 (by decide), hknown 0x01 0x06 0x24 (by decide), hknown 0x02 0x06 0x09 (by decide),
    hknown 0x80 0xF0 0x01 (by decide), hknown 0x81 0xF0 0x04 (by decide), hknown 0x82 0xF0 0x03 (by decide),
    fun hn => lookup_unknown hb (cidRom_eq_none hn).1⟩

/-- Settles O10: a name row is the named lookup of its index. -/
theorem namesLoadTheirCodes : Obligations.NamesLoadTheirCodes := by
  refine ⟨fun s n rest hb ha hn => step_name_unknown hb ha hn, fun s hb => ?_⟩
  have hknown (n c i : Byte) (hmem : (n, c, i) ∈ cidEntries) := namedLookup_known (s := s) hb hmem
  exact ⟨hknown 0x00 0x06 0x01 (by decide), hknown 0x01 0x06 0x24 (by decide), hknown 0x02 0x06 0x09 (by decide),
    hknown 0x80 0xF0 0x01 (by decide), hknown 0x81 0xF0 0x04 (by decide), hknown 0x82 0xF0 0x03 (by decide)⟩

/-- Settles O58: the sequences as they are defined, with the number of bytes that go to TXBUF. -/
theorem pseudoOperationsExpand : Obligations.PseudoOperationsExpand := by
  intro s
  refine ⟨fun name p => ?_, fun _ _ _ _ _ => rfl, fun _ _ _ _ _ _ _ _ => rfl, fun c i p v => ?_, fun tag fields v => ?_,
    fun _ => rfl⟩
  · rw [← length_txbufPart]
    rfl
  · change Host.Outcome.next (prepend (exchangeSeq (.binary c i p) v) s) = _
    simp only [prepend, exchangeSeq, sendMessage, List.append_assoc, List.cons_append, List.nil_append]
    rfl
  · change Host.Outcome.next (prepend (exchangeSeq (.text tag fields) v) s) = _
    simp only [prepend, exchangeSeq, sendMessage, List.append_assoc, List.cons_append, List.nil_append]
    rfl

end Sys2Proof.Proofs
end

section
/-! UBXENC.NAMED (R170; log 12): the name is looked up before anything else is done, the payload is written to TXBUF
byte by byte, and UBXENC is accepted or refuses the length (R156). -/

namespace Sys2Proof.Machine

open Sys2Proof.Config

/-! ### A payload written to TXBUF (R64) -/

/-- A buffer after bytes are written to it from address `a` on. -/
def Memory.writeFrom (m : Memory) : Nat → List Byte → Memory
  | _, [] => m
  | a, b :: bs => Memory.writeFrom (m.write a b) (a + 1) bs

theorem Memory.read_writeFrom (m : Memory) (a : Nat) (bs : List Byte) (x : Nat) :
    (m.writeFrom a bs).read x = if a ≤ x ∧ x < a + bs.length then bs[x - a]? else m.read x := by
  induction bs generalizing m a with
  | nil =>
    rw [if_neg (by simp)]
    rfl
  | cons b bs ih =>
    rw [Memory.writeFrom, ih, List.length_cons, Memory.read_write]
    by_cases hhead : x = a
    · subst hhead
      simp
    · by_cases hin : a + 1 ≤ x ∧ x < a + 1 + bs.length
      · rw [if_pos hin, if_pos (by omega), show x - a = (x - (a + 1)) + 1 by omega, List.getElem?_cons_succ]
      · rw [if_neg hin, if_neg hhead, if_neg (by omega)]

theorem holds_writeFrom_zero (m : Memory) (bs : List Byte) : Holds (m.writeFrom 0 bs) bs := by
  intro a ha
  rw [Memory.read_writeFrom, if_pos (by omega), Nat.sub_zero]

theorem read_writeFrom_zero_above (m : Memory) (bs : List Byte) {a : Nat} (ha : bs.length ≤ a) :
    (m.writeFrom 0 bs).read a = m.read a := by
  rw [Memory.read_writeFrom, if_neg (by omega)]

theorem length_bufferWrites (a : Nat) (bs : List Byte) : (bufferWrites a bs).length = bs.length := by
  induction bs generalizing a with
  | nil => rfl
  | cons b bs ih => rw [bufferWrites, List.length_cons, List.length_cons, ih]

/-- Outside a UBXENC the host's writes are carried out, one a step (R64, R351). -/
theorem run_bufferWrites {s : State} {a : Nat} {bs : List Byte} {rest : List Event}
    (henc : s.opstate.isUbxEncoder = false) (ha : s.agenda = bufferWrites a bs ++ rest)
    (hfit : a + bs.length ≤ pbufBytes) :
    run bs.length s = .next { s with agenda := rest, txbuf := s.txbuf.writeFrom a bs } := by
  induction bs generalizing s a with
  | nil =>
    rw [← show s.agenda = rest from ha]
    rfl
  | cons b bs ih =>
    rw [List.length_cons] at hfit ⊢
    have haddr : (BitVec.ofNat 15 a).toNat = a := Nat.mod_eq_of_lt (by unfold pbufBytes at hfit; omega)
    have hstep : step s = .next { s with agenda := bufferWrites (a + 1) bs ++ rest, txbuf := s.txbuf.write a b } := by
      rw [step_wrbuf _ b ha, hostWriteTxbuf, if_neg (by simp [henc]), haddr]
      rfl
    rw [run_step _ _ _ hstep]
    exact ih (s := { s with agenda := bufferWrites (a + 1) bs ++ rest, txbuf := s.txbuf.write a b }) henc rfl
      (by omega)

/-! ### The other items of the sequence -/

/-- A run is its first step and what follows it. -/
theorem run_of_step {k : Nat} {s t : State} {r : Result} (h : step s = .next t) (hr : run k t = r) :
    run (k + 1) s = r :=
  (run_step k s t h).trans hr

/-- A run is its first part and what follows it. -/
theorem run_of_run {k l : Nat} {s t : State} {r : Result} (h : run k s = .next t) (hr : run l t = r) :
    run (k + l) s = r :=
  (run_add k l s t h).trans hr

/-- A command of a host sequence is the command of its code (R35, R118). -/
theorem step_cmdEvent {s : State} {op : Byte} {rest : List Event} (ha : s.agenda = cmdEvent op :: rest) :
    step s = exec (decodeCommand op) { s with agenda := rest } := by
  refine step_fetched s _ rest _ ha ?_
  rw [cmdEvent, fetch, BitVec.setWidth_setWidth_of_le op (by decide), BitVec.setWidth_eq]

section
variable {s : State} {code : Byte} {n : Nat} {rest : List Event}

/-- The host passes over `n` actions if `RESULT` is the code it looks for (R170). -/
theorem step_skipIf_eq (ha : s.agenda = .skipIf code n :: rest) (hcode : s.result = code) :
    step s = .next { s with agenda := rest.drop n } :=
  (step_performed s _ rest ha (by simp) rfl).trans (congrArg _ (if_pos hcode))

theorem step_skipIf_ne (ha : s.agenda = .skipIf code n :: rest) (hcode : s.result ≠ code) :
    step s = .next { s with agenda := rest } :=
  (step_performed s _ rest ha (by simp) rfl).trans (congrArg _ (if_neg hcode))

end

/-! ### The sequence (R170) -/

/-- What the host has still to do of `UBXENC.NAMED` after the lookup. -/
def payloadEvents (p : List Byte) : List Event :=
  bufferWrites 0 (txbufPart p) ++ [.wr .argLen (argLenOf p), cmdEvent 0x04]

/-- The state in which a named encode comes to its UBXENC. -/
def namedReady (s : State) (name c i : Byte) (p : List Byte) (rest : List Event) : State :=
  { s with
    agenda := cmdEvent 0x04 :: rest, argName := name, argClsid := packHalf c i, result := 0x01, done := true,
    txbuf := s.txbuf.writeFrom 0 (txbufPart p), argLen := BitVec.ofNat 16 (min p.length 65535) }

theorem length_payloadEvents (p : List Byte) : (payloadEvents p).length = (txbufPart p).length + 2 := by
  rw [payloadEvents, List.length_append, length_bufferWrites]
  rfl

theorem setWidth_argLenOf (p : List Byte) : (argLenOf p).setWidth 16 = BitVec.ofNat 16 (min p.length 65535) := by
  rw [argLenOf, BitVec.setWidth_ofNat_of_le (by decide)]

section
variable {s : State} {rest : List Event} {name c i : Byte} {v : Word} {p : List Byte} (hb : s.busy = false)
include hb

theorem step_wr_argName (ha : s.agenda = .wr .argName (name.setWidth 32) :: rest) :
    step s = .next { s with agenda := rest, argName := name } := by
  rw [step_wr s _ _ rest ha (by decide), writeReg_argName_byte (by exact hb)]

theorem step_wr_argLen (ha : s.agenda = .wr .argLen v :: rest) :
    step s = .next { s with agenda := rest, argLen := v.setWidth 16 } := by
  rw [step_wr s _ _ rest ha (by decide), writeReg_argLen_of_idle _ _ (by exact hb)]

theorem step_lookup_known (ha : s.agenda = cmdEvent 0x03 :: rest) (h : cidRom s.argName = some (c, i)) :
    step s = .next { s with agenda := rest, argClsid := packHalf c i, result := 0x01, done := true } :=
  (step_cmdEvent ha).trans (lookup_known (s := { s with agenda := rest }) hb h)

theorem step_lookup_unknown (ha : s.agenda = cmdEvent 0x03 :: rest) (h : cidRom s.argName = none) :
    step s = .next { s with agenda := rest, result := 0x11, done := true } :=
  (step_cmdEvent ha).trans (lookup_unknown (s := { s with agenda := rest }) hb h)

/-- The refusal of a length above 32767 by UBXENC, and its acceptance of any other (R156). -/
theorem step_ubxenc_tooLarge (ha : s.agenda = cmdEvent 0x04 :: rest) (hlen : 32767 < s.argLen.toNat) :
    step s = .next { s with agenda := rest, result := 0x10, done := true } :=
  (step_cmdEvent ha).trans ((onCmd_idle _ { s with agenda := rest } hb).trans (if_pos hlen))

theorem step_ubxenc_fits (ha : s.agenda = cmdEvent 0x04 :: rest) (hlen : s.argLen.toNat ≤ 32767) :
    step s = .next
      { s with
        agenda := rest, done := false, cls := loByte s.argClsid, id := hiByte s.argClsid, len := s.argLen, ckA := 0,
        ckB := 0, cnt := 0, busy := true, opstate := .eSync1 } :=
  (step_cmdEvent ha).trans ((onCmd_idle _ { s with agenda := rest } hb).trans (if_neg (Nat.not_lt.mpr hlen)))

/-- The name comes first: `WR ARG_NAME`, with LOOKUP, the choice of R170 and the payload still ahead. -/
theorem run_named_lookup (ha : s.agenda = .call (.ubxencNamed name p) :: rest) :
    run 2 s = .next
      { s with
        agenda := cmdEvent 0x03 :: .skipIf 0x11 ((txbufPart p).length + 2) :: (payloadEvents p ++ rest),
        argName := name } :=
  run_of_step (step_fetched s _ rest _ ha rfl) (run_of_step (step_wr_argName hb rfl) rfl)

/-- A name that is not in the table ends the sequence: the payload and UBXENC are passed over. -/
theorem run_named_unknown (ha : s.agenda = .call (.ubxencNamed name p) :: rest)
    (hname : name ∉ [0x00, 0x01, 0x02, 0x80, 0x81, 0x82]) :
    run 4 s = .next { s with agenda := rest, argName := name, result := 0x11, done := true } := by
  have hdrop : (payloadEvents p ++ rest).drop ((txbufPart p).length + 2) = rest := by
    rw [← length_payloadEvents, List.drop_left]
  refine run_of_run (l := 2) (run_named_lookup hb ha) ?_
  refine run_of_step (step_lookup_unknown hb rfl (cidRom_eq_none hname).1) ?_
  refine run_of_step (step_skipIf_eq rfl rfl) ?_
  rw [hdrop]
  rfl

/-- The payload goes to TXBUF and its length to `ARG_LEN`; UBXENC is next. -/
theorem run_payloadEvents (ho : s.opstate = .idle) (ha : s.agenda = payloadEvents p ++ rest) :
    run ((txbufPart p).length + 1) s = .next
      { s with
        agenda := cmdEvent 0x04 :: rest, txbuf := s.txbuf.writeFrom 0 (txbufPart p),
        argLen := BitVec.ofNat 16 (min p.length 65535) } := by
  have hfit : 0 + (txbufPart p).length ≤ pbufBytes := by
    rw [length_txbufPart, pbufBytes]
    omega
  rw [payloadEvents, List.append_assoc] at ha
  refine run_of_run (run_bufferWrites (by rw [ho]; rfl) ha hfit) ?_
  refine run_of_step (step_wr_argLen hb rfl) ?_
  rw [setWidth_argLenOf]
  rfl

/-- A name of the table brings the sequence to UBXENC, with the payload in TXBUF. -/
theorem run_named_known (ho : s.opstate = .idle) (ha : s.agenda = .call (.ubxencNamed name p) :: rest)
    (hname : (name, c, i) ∈ cidEntries) :
    run (2 + ((txbufPart p).length + 1 + 1 + 1)) s = .next (namedReady s name c i p rest) := by
  refine run_of_run (run_named_lookup hb ha) ?_
  refine run_of_step (step_lookup_known hb rfl (cidRom_of_mem hname)) ?_
  refine run_of_step (step_skipIf_ne rfl (show (0x01 : Byte) ≠ 0x11 by decide)) ?_
  exact run_payloadEvents hb ho rfl

end

end Sys2Proof.Machine

namespace Sys2Proof.Proofs

open Sys2Proof.Machine

/-- Settles O59: the lookup decides whether the sequence goes on to UBXENC, and UBXENC decides by the length. -/
theorem namedEncodeLooksUpFirst : Obligations.NamedEncodeLooksUpFirst := by
  intro s name p rest hb ho ha
  refine ⟨run_named_unknown hb ha, fun c i hname => ?_⟩
  have hrun := run_named_known hb ho ha hname
  have hcount : 6 + min 32768 p.length = 2 + ((txbufPart p).length + 1 + 1 + 1) + 1 := by
    rw [length_txbufPart]
    omega
  have hargLen : (namedReady s name c i p rest).argLen.toNat = min p.length 65535 :=
    Nat.mod_eq_of_lt (show min p.length 65535 < 2 ^ 16 by omega)
  have habove (a : Nat) (h : p.length ≤ a ∨ 32768 ≤ a) :
      (s.txbuf.writeFrom 0 (txbufPart p)).read a = s.txbuf.read a :=
    read_writeFrom_zero_above _ _ (by rw [length_txbufPart]; omega)
  rw [hcount]
  by_cases hlen : p.length ≤ 32767
  · have hfits := step_ubxenc_fits (s := namedReady s name c i p rest) hb rfl (by omega)
    have hmin : min p.length 65535 = p.length := by omega
    exact ⟨_, _, run_of_run hrun (run_of_step hfits rfl), holds_writeFrom_zero _ _, habove, rfl, rfl, rfl, rfl, rfl,
      rfl, fun _ => ⟨rfl, rfl, rfl, loByte_packHalf c i, hiByte_packHalf c i, congrArg (BitVec.ofNat 16) hmin⟩,
      fun h => absurd hlen (Nat.not_le.mpr h)⟩
  · have hlarge := step_ubxenc_tooLarge (s := namedReady s name c i p rest) hb rfl (by omega)
    exact ⟨_, _, run_of_run hrun (run_of_step hlarge rfl), holds_writeFrom_zero _ _, habove, rfl, rfl, rfl, rfl, rfl,
      rfl, fun h => absurd h hlen, fun _ => ⟨ho, hb, rfl, rfl⟩⟩

end Sys2Proof.Proofs
end

section
/-! The sentence encoder from `NMEAENC` to `RES_OK` (R107, R181 to R194): each symbol of the text is taken in the step
that offers it (log 10), and four steps end the sentence. -/

namespace Sys2Proof.Machine

open Sys2Proof.Config

section
variable {s : State}

/-- With nothing on the agenda and no tick due it is the block's turn. -/
theorem blockTurn_of_nil (ha : s.agenda = []) (hl : s.line = []) : BlockTurn s :=
  ⟨.inl ha, fun rest h => by rw [hl] at h; cases h⟩

/-! ### The four bytes after the marker (R190 to R193) -/

section
variable (hsink : s.txReady = true)
include hsink

theorem blockMove_tHexHi (ho : s.opstate = .tHexHi) :
    blockMove s = .next { s with tx := s.tx ++ [hexchar (hiNibble s.xacc)], opstate := .tHexLo } := by
  rw [blockMove, ho]
  exact txStep_ready _ _ s hsink

theorem blockMove_tHexLo (ho : s.opstate = .tHexLo) :
    blockMove s = .next { s with tx := s.tx ++ [hexchar (loNibble s.xacc)], opstate := .tCr } := by
  rw [blockMove, ho]
  exact txStep_ready _ _ s hsink

theorem blockMove_tCr (ho : s.opstate = .tCr) : blockMove s = .next { s with tx := s.tx ++ [cr], opstate := .tLf } := by
  rw [blockMove, ho]
  exact txStep_ready _ _ s hsink

theorem blockMove_tLf (ho : s.opstate = .tLf) :
    blockMove s = .next
      { s with tx := s.tx ++ [lf], result := 0x01, busy := false, done := true, opstate := .idle } := by
  rw [blockMove, ho]
  exact txStep_ready _ _ s hsink

/-- Behind the marker the encoder needs no more of the host. -/
theorem run_sentenceTail (ha : s.agenda = []) (hl : s.line = []) (ho : s.opstate = .tHexHi) :
    run 4 s = .next
      { s with
        tx := s.tx ++ [hexchar (hiNibble s.xacc), hexchar (loNibble s.xacc), cr, lf], result := 0x01, busy := false,
        done := true, opstate := .idle } := by
  have hstep {u v : State} (hau : u.agenda = []) (hlu : u.line = []) (h : blockMove u = .next v) : step u = .next v :=
    (step_blockTurn u (blockTurn_of_nil hau hlu)).trans h
  refine run_of_step (hstep ha hl (blockMove_tHexHi hsink ho)) ?_
  refine run_of_step (hstep ha hl (blockMove_tHexLo hsink rfl)) ?_
  refine run_of_step (hstep ha hl (blockMove_tCr hsink rfl)) ?_
  refine run_of_step (hstep ha hl (blockMove_tLf hsink rfl)) ?_
  simp only [run_zero, List.append_assoc, List.cons_append, List.nil_append]

end

/-! ### The symbols of a text (R186, R188) -/

/-- The word of a symbol is read back as its row (R107). -/
theorem decodeSymbol_symbolWord (y : Symbol) : decodeSymbol (symbolWord y) = symbolRow y 0 := by
  cases y with
  | ch b =>
    have hword : symbolWord (.ch b) = (packHalf b ((0b00 : BitVec 2).setWidth 8)).setWidth 10 := by
      apply BitVec.eq_of_toNat_eq
      have hb := b.isLt
      rw [symbolWord, BitVec.toNat_setWidth, BitVec.toNat_setWidth, packHalf_toNat]
      simp
    rw [hword, decodeSymbol_packHalf]
    rfl
  | fs | endMsg | reserved => rfl

theorem step_putSym {y : Symbol} {rest : List Event} (ha : s.agenda = putSym y :: rest) :
    step s = offerSymbol y { s with agenda := rest } := by
  rw [step_fetched s _ rest (decodeSymbol (symbolWord y)) ha rfl, decodeSymbol_symbolWord, exec_symbolRow]

end

/-- A symbol stands for a byte of the text: a character for itself, a field separator for the comma (R188). -/
inductive Spells : Symbol → Byte → Prop
  | char (b : Byte) : Spells (.ch b) b
  | comma : Spells .fs comma

theorem spells_characters (f : List Byte) : List.Forall₂ Spells (f.map .ch) f :=
  List.forall₂_map_left_iff.mpr (List.forall₂_same.mpr fun b _ => .char b)

theorem spells_fields (fields : List (List Byte)) : List.Forall₂ Spells (fieldSymbols fields) (fieldBytes fields) := by
  induction fields with
  | nil => exact .nil
  | cons f fs ih => exact .cons .comma (List.rel_append (spells_characters f) ih)

/-- The symbols of a tag and fields spell their bytes joined with commas (R107, R181). -/
theorem spells_joined (tag : List Byte) (fields : List (List Byte)) :
    List.Forall₂ Spells (tag.map .ch ++ fieldSymbols fields) (nmeaJoined tag fields) :=
  List.rel_append (spells_characters tag) (spells_fields fields)

section
variable {s : State} {rest : List Event} {y : Symbol} {b : Byte} {ys : List Symbol} {bs : List Byte}

theorem step_nmeaenc (hb : s.busy = false) (ha : s.agenda = cmdEvent 0x06 :: rest) :
    step s = .next { s with agenda := rest, done := false, xacc := 0, busy := true, opstate := .tFirst } :=
  (step_cmdEvent ha).trans (onCmd_idle _ { s with agenda := rest } hb)

variable (hsink : s.txReady = true) (hs : s.sin = [])
include hsink hs

theorem step_putSym_dollar (ho : s.opstate = .tFirst) (ha : s.agenda = putSym (.ch dollar) :: rest) :
    step s = .next { s with agenda := rest, tx := s.tx ++ [dollar], opstate := .tBody } := by
  obtain ⟨u, rfl⟩ := eq_sin_nil hs
  exact (step_putSym ha).trans (Eq.trans (offerSymbol_tFirst ho) (stepTFirst_dollar (rest := []) hsink rfl))

theorem step_putSym_endMsg (ho : s.opstate = .tBody) (ha : s.agenda = putSym .endMsg :: rest) :
    step s = .next { s with agenda := rest, tx := s.tx ++ [star], opstate := .tHexHi } := by
  obtain ⟨u, rfl⟩ := eq_sin_nil hs
  exact (step_putSym ha).trans (Eq.trans (offerSymbol_tBody ho) (stepTBody_endMsg (rest := []) hsink rfl))

/-- A symbol of the text is emitted as its byte, which is folded. -/
theorem step_putSym_spells (ho : s.opstate = .tBody) (hy : Spells y b) (ha : s.agenda = putSym y :: rest) :
    step s = .next { s with agenda := rest, tx := s.tx ++ [b], xacc := ckxStep s.xacc b } := by
  obtain ⟨u, rfl⟩ := eq_sin_nil hs
  refine (step_putSym ha).trans (Eq.trans (offerSymbol_tBody ho) ?_)
  cases hy with
  | char b => exact stepTBody_ch (rest := []) hsink rfl
  | comma => exact stepTBody_fs (rest := []) hsink rfl

theorem run_putSym_spells (ho : s.opstate = .tBody) (h : List.Forall₂ Spells ys bs)
    (ha : s.agenda = ys.map putSym ++ rest) :
    run ys.length s = .next { s with agenda := rest, tx := s.tx ++ bs, xacc := ckxFrom s.xacc bs } := by
  induction h generalizing s with
  | nil =>
    rw [List.append_nil, ← show s.agenda = rest from ha]
    rfl
  | @cons y b ys bs hy _ ih =>
    rw [List.append_cons]
    exact run_of_step (step_putSym_spells hsink hs ho hy ha) (ih hsink hs ho rfl)

end

end Sys2Proof.Machine

namespace Sys2Proof.Proofs

open Sys2Proof.Machine

/-- Settles O32: the four states behind the marker, with the digits of the list. -/
theorem sentenceTail : Obligations.SentenceTail := by
  intro s hturn hsink
  rw [← hexchar_eq_hexDigit, ← hexchar_eq_hexDigit, step_blockTurn s hturn]
  exact ⟨blockMove_tHexHi hsink, blockMove_tHexLo hsink, blockMove_tCr hsink, blockMove_tLf hsink⟩

/-- Settles O33: the command, the `$`, the symbols of the rest of the text, `END`, and the four steps behind it. -/
theorem nmeaencEmitsTheSentence : Obligations.NmeaencEmitsTheSentence := by
  intro s t fields hb hs hl hsink ha
  have hevents : sendText (0x24 :: t) fields = cmdEvent 0x06 :: putSym (.ch Config.dollar)
      :: ((t.map Symbol.ch ++ fieldSymbols fields).map putSym ++ [putSym .endMsg]) := by
    simp only [sendText, messageSymbols, List.map_cons, List.cons_append, List.map_append, List.map_nil]
    rfl
  have hcount : (messageSymbols (0x24 :: t) fields).length + 5
      = (t.map Symbol.ch ++ fieldSymbols fields).length + (4 + 1) + 1 + 1 := by
    simp only [messageSymbols, List.map_cons, List.length_append, List.length_cons, List.length_nil]
    omega
  rw [hcount]
  refine run_of_step (step_nmeaenc hb (ha.trans hevents)) ?_
  refine run_of_step (step_putSym_dollar hsink hs rfl rfl) ?_
  refine run_of_run (run_putSym_spells hsink hs rfl (spells_joined t fields) rfl) ?_
  refine run_of_step (step_putSym_endMsg hsink hs rfl rfl) ?_
  refine Eq.trans (run_sentenceTail hsink rfl hl rfl) ?_
  simp only [nmeaEncode, nmeaTail, List.append_assoc, List.cons_append, List.nil_append]
  rfl

end Sys2Proof.Proofs
end

section
/-! The transitions of the sentence decoder on a byte (R264 to R274). -/

namespace Sys2Proof.Machine

open Sys2Proof.Config

/-- The bytes a state of the decoder does not go on from: they end the operation with `ERR_TEXT_FORMAT`. -/
def Rejects : OpState → Byte → Prop
  | .nStart, b => b ≠ dollar
  | .nBody, b => bodyStopper b = true
  | .nHex1, b | .nHex2, b => ∀ n, b ≠ hexDigit n
  | .nCr, b => b ≠ cr
  | .nLf, b => b ≠ lf
  | _, _ => False

theorem ne_comma_star_of_bodyStopper {b : Byte} (h : bodyStopper b = true) : b ≠ comma ∧ b ≠ star := by
  constructor <;> rintro rfl <;> exact absurd h (by decide)

section
variable {s : State} {b : Byte} {rest : List Byte}

theorem blockMove_nHex1 (ho : s.opstate = .nHex1) : blockMove s = onDin dinHex1 s := by
  rw [blockMove, ho, stepNHex1]

theorem blockMove_nHex2 (ho : s.opstate = .nHex2) : blockMove s = onDin dinHex2 s := by
  rw [blockMove, ho, stepNHex2]

theorem blockMove_nCr (ho : s.opstate = .nCr) : blockMove s = onDin dinCr s := by
  rw [blockMove, ho, stepNCr]

/-- A rejected byte is taken, and ends the operation. -/
theorem blockMove_rejects (hd : s.din = b :: rest) (h : Rejects s.opstate b) :
    blockMove s = .next (complete .errTextFormat { s with din := rest }) := by
  cases ho : s.opstate with
  | nStart =>
    rw [ho] at h
    exact (blockMove_nStart ho).trans ((onDin_cons _ s b rest hd).trans (if_neg h))
  | nBody =>
    rw [ho] at h
    obtain ⟨hcomma, hstar⟩ := ne_comma_star_of_bodyStopper h
    exact (blockMove_nBody ho).trans ((onDin_cons _ s b rest hd).trans
      ((if_neg hcomma).trans ((if_neg hstar).trans (if_pos h))))
  | nHex1 =>
    rw [ho] at h
    rw [blockMove_nHex1 ho, onDin_cons _ s b rest hd]
    simp only [dinHex1, (hexval_eq_none_iff b).mpr h]
    rfl
  | nHex2 =>
    rw [ho] at h
    rw [blockMove_nHex2 ho, onDin_cons _ s b rest hd]
    simp only [dinHex2, (hexval_eq_none_iff b).mpr h]
    rfl
  | nCr =>
    rw [ho] at h
    exact (blockMove_nCr ho).trans ((onDin_cons _ s b rest hd).trans (if_neg h))
  | nLf =>
    rw [ho] at h
    exact (blockMove_nLf ho).trans ((onDin_cons _ s b rest hd).trans (if_neg h))
  | _ =>
    rw [ho] at h
    exact h.elim

/-! ### The text (R264, R266) -/

theorem blockMove_nStart_dollar (ho : s.opstate = .nStart) (hd : s.din = dollar :: rest) (hhost : 0 < s.soutWanted) :
    blockMove s = .next
      { s with
        din := rest, sout := s.sout ++ [.ch dollar], soutWanted := s.soutWanted - 1, opstate := .nBody } := by
  rw [blockMove_nStart ho, onDin_cons _ s _ rest hd, dinStart, if_pos rfl, dinEmit, if_pos hhost]
  rfl

/-- A comma and a character are the same to the decoder but for the symbol. -/
theorem blockMove_nBody_text (ho : s.opstate = .nBody) (hd : s.din = b :: rest) (hb : b ≠ star ∧ bodyStopper b = false)
    (hhost : 0 < s.soutWanted) :
    blockMove s = .next
      { s with
        din := rest, sout := s.sout ++ byteSymbols [b], soutWanted := s.soutWanted - 1,
        xacc := ckxStep s.xacc b } := by
  obtain ⟨hstar, hstop⟩ := hb
  have hdin : dinBody b { s with din := rest } s
      = dinEmit (if b = comma then .fs else .ch b) (foldXacc b) { s with din := rest } s := by
    unfold dinBody
    by_cases hcomma : b = comma
    · rw [if_pos hcomma, if_pos hcomma, hcomma]
    · rw [if_neg hcomma, if_neg hcomma, if_neg hstar, if_neg (by simp [hstop])]
  rw [blockMove_nBody ho, onDin_cons _ s _ rest hd, hdin, dinEmit, if_pos hhost]
  rfl

theorem blockMove_nBody_star (ho : s.opstate = .nBody) (hd : s.din = star :: rest) :
    blockMove s = .next { s with din := rest, opstate := .nHex1 } := by
  rw [blockMove_nBody ho, onDin_cons _ s _ rest hd]
  rfl

/-! ### The digits, the terminator and the verdict (R268 to R274) -/

theorem blockMove_nHex1_digit (n : BitVec 4) (ho : s.opstate = .nHex1) (hd : s.din = hexDigit n :: rest) :
    blockMove s = .next { s with din := rest, rxck := packByte n (loNibble s.rxck), opstate := .nHex2 } := by
  rw [blockMove_nHex1 ho, onDin_cons _ s _ rest hd, dinHex1, hexval_hexDigit]
  rfl

theorem blockMove_nHex2_digit (n : BitVec 4) (ho : s.opstate = .nHex2) (hd : s.din = hexDigit n :: rest) :
    blockMove s = .next { s with din := rest, rxck := packByte (hiNibble s.rxck) n, opstate := .nCr } := by
  rw [blockMove_nHex2 ho, onDin_cons _ s _ rest hd, dinHex2, hexval_hexDigit]
  rfl

theorem blockMove_nCr_cr (ho : s.opstate = .nCr) (hd : s.din = cr :: rest) :
    blockMove s = .next { s with din := rest, opstate := .nLf } := by
  rw [blockMove_nCr ho, onDin_cons _ s _ rest hd]
  rfl

theorem blockMove_nLf_match (ho : s.opstate = .nLf) (hd : s.din = lf :: rest) (hck : s.rxck = s.xacc)
    (hhost : 0 < s.soutWanted) :
    blockMove s = .next
      { s with
        din := rest, sout := s.sout ++ [.endMsg], soutWanted := s.soutWanted - 1, result := 0x01, busy := false,
        done := true, opstate := .idle } := by
  rw [blockMove_nLf ho, onDin_cons _ s _ rest hd, dinLf, if_pos rfl, if_pos (by exact hck), dinEmit, if_pos hhost]
  rfl

theorem blockMove_nLf_mismatch (ho : s.opstate = .nLf) (hd : s.din = lf :: rest) (hck : s.rxck ≠ s.xacc) :
    blockMove s = .next { s with din := rest, result := 0x13, busy := false, done := true, opstate := .idle } := by
  rw [blockMove_nLf ho, onDin_cons _ s _ rest hd, dinLf, if_pos rfl, if_neg (by exact hck)]
  rfl

end

end Sys2Proof.Machine

namespace Sys2Proof.Proofs

open Sys2Proof.Machine

/-- Settles O35: the transitions behind the marker, and the bytes that each of these states rejects. -/
theorem decoderDigitsAndVerdict : Obligations.DecoderDigitsAndVerdict := by
  intro s b rest hturn hd
  rw [step_blockTurn s hturn]
  refine ⟨fun n hb => ?_, ?_, ?_, ?_, fun h => blockMove_rejects hd ?_⟩
  · subst hb
    exact ⟨fun ho => blockMove_nHex1_digit n ho hd, fun ho => blockMove_nHex2_digit n ho hd⟩
  · rintro ho rfl
    exact blockMove_nCr_cr ho hd
  · rintro ho rfl
    exact blockMove_nLf_match ho hd
  · rintro ho rfl
    exact blockMove_nLf_mismatch ho hd
  · rcases h with ⟨hb, ho | ho⟩ | ⟨ho, hb⟩ | ⟨ho, hb⟩ <;> rw [ho] <;> exact hb

end Sys2Proof.Proofs
end

section
/-! `NMEADEC` against `nmea_decode` (R261 to R279). `Decoding` says in which state the decoder is after which bytes: it
is the grammar of what can still become a sentence, the machine follows it byte by byte, and `nmea_decode` refuses
exactly the bytes that leave it. -/

namespace Sys2Proof.Machine

open Sys2Proof.Config

/-! ### The grammar -/

/-- `Decoding o text r bs`: after the bytes `bs`, of which `text` stands before the marker, the decoder is in the state
`o` with `r` in `RXCK`. -/
inductive Decoding : OpState → List Byte → Byte → List Byte → Prop
  | start : Decoding .nStart [] 0 []
  | body {body} (hbody : BodyText body) : Decoding .nBody (dollar :: body) 0 (dollar :: body)
  | marker {body} (hbody : BodyText body) : Decoding .nHex1 (dollar :: body) 0 (dollar :: body ++ [star])
  | high {body} (hbody : BodyText body) (h : BitVec 4) :
    Decoding .nHex2 (dollar :: body) (packByte h 0) (dollar :: body ++ [star, hexDigit h])
  | low {body} (hbody : BodyText body) (h l : BitVec 4) :
    Decoding .nCr (dollar :: body) (packByte h l) (dollar :: body ++ [star, hexDigit h, hexDigit l])
  | ret {body} (hbody : BodyText body) (h l : BitVec 4) :
    Decoding .nLf (dollar :: body) (packByte h l) (dollar :: body ++ [star, hexDigit h, hexDigit l, cr])

theorem BodyText.snoc {body : List Byte} {b : Byte} (hbody : BodyText body) (hstar : b ≠ star)
    (hstop : bodyStopper b = false) : BodyText (body ++ [b]) := by
  intro x hx
  rcases List.mem_append.mp hx with hx | hx
  · exact hbody x hx
  · rw [List.mem_singleton.mp hx]
    exact ⟨hstar, hstop⟩

/-- What the next byte can do: be rejected, lead to another state, or end a sentence. -/
theorem Decoding.next {o : OpState} {text bs : List Byte} {r : Byte} (hdec : Decoding o text r bs) (b : Byte) :
    Rejects o b ∨ (∃ o' text' r', Decoding o' text' r' (bs ++ [b])) ∨
      ∃ body h l, BodyText body ∧ bs ++ [b] = sentenceBytes body h l := by
  cases hdec with
  | start =>
    by_cases hb : b = dollar
    · subst hb
      exact .inr (.inl ⟨_, _, _, .body (body := []) nofun⟩)
    · exact .inl hb
  | @body body hbody =>
    by_cases hstar : b = star
    · subst hstar
      exact .inr (.inl ⟨_, _, _, .marker hbody⟩)
    · cases hstop : bodyStopper b with
      | true => exact .inl hstop
      | false => exact .inr (.inl ⟨_, _, _, .body (hbody.snoc hstar hstop)⟩)
  | @marker body hbody =>
    cases hv : hexval b with
    | none => exact .inl ((hexval_eq_none_iff b).mp hv)
    | some n =>
      rw [(hexval_eq_some_iff b n).mp hv, List.append_assoc]
      exact .inr (.inl ⟨_, _, _, .high hbody n⟩)
  | @high body hbody h =>
    cases hv : hexval b with
    | none => exact .inl ((hexval_eq_none_iff b).mp hv)
    | some n =>
      rw [(hexval_eq_some_iff b n).mp hv, List.append_assoc]
      exact .inr (.inl ⟨_, _, _, .low hbody h n⟩)
  | @low body hbody h l =>
    by_cases hb : b = cr
    · rw [hb, List.append_assoc]
      exact .inr (.inl ⟨_, _, _, .ret hbody h l⟩)
    · exact .inl hb
  | @ret body hbody h l =>
    by_cases hb : b = lf
    · rw [hb, List.append_assoc]
      exact .inr (.inr ⟨body, h, l, hbody, rfl⟩)
    · exact .inl hb

/-- The text is what stands before the marker. -/
theorem Decoding.text_eq {o : OpState} {text bs : List Byte} {r : Byte} (hdec : Decoding o text r bs) :
    beforeMarker bs = text := by
  have hdollar : decide (dollar ≠ star) = true := by decide
  have htext {body : List Byte} (hbody : BodyText body) : ∀ b ∈ dollar :: body, decide (b ≠ star) = true :=
    List.forall_mem_cons.mpr ⟨hdollar, fun b hb => decide_eq_true (hbody b hb).1⟩
  have hmarker {body : List Byte} (hbody : BodyText body) (tail : List Byte) :
      beforeMarker (dollar :: body ++ star :: tail) = dollar :: body := by
    rw [beforeMarker, List.takeWhile_append_of_pos (htext hbody), List.takeWhile_cons_of_neg (by simp), List.append_nil]
  cases hdec with
  | start => rfl
  | body hbody => exact List.takeWhile_eq_self_iff.mpr (htext hbody)
  | marker hbody | high hbody | low hbody | ret hbody => exact hmarker hbody _

theorem Decoding.state_mem {o : OpState} {text bs : List Byte} {r : Byte} (hdec : Decoding o text r bs) :
    o ∈ [.nStart, .nBody, .nHex1, .nHex2, .nCr, .nLf] := by
  cases hdec <;> decide

/-! ### What `nmea_decode` answers (R261) -/

theorem checkTail_of_ne_format {c : Byte} {bs : List Byte} (hne : checkTail c bs ≠ .error .format) :
    ∃ h l rest, bs = hexDigit h :: hexDigit l :: cr :: lf :: rest := by
  unfold checkTail at hne
  split at hne
  next b1 b2 b3 b4 rest =>
    split at hne
    next h l hh hl =>
      by_cases hends : b3 ≠ cr ∨ b4 ≠ lf
      · rw [if_pos hends] at hne
        exact absurd rfl hne
      · obtain ⟨rfl, rfl⟩ : b3 = cr ∧ b4 = lf := by simpa only [not_or, not_not] using hends
        rw [(hexval_eq_some_iff b1 h).mp hh, (hexval_eq_some_iff b2 l).mp hl]
        exact ⟨h, l, rest, rfl⟩
    next => exact absurd rfl hne
  next => exact absurd rfl hne

theorem nmeaDecode_sentenceBytes_ne_format {body : List Byte} (hbody : BodyText body) (h l : BitVec 4)
    (rest : List Byte) : nmeaDecode (sentenceBytes body h l ++ rest) ≠ .error .format := by
  rw [nmeaDecode_sentenceBytes hbody]
  split_ifs <;> nofun

/-- Whatever is no format error has that form. -/
theorem nmeaDecode_of_ne_format {bs : List Byte} (hne : nmeaDecode bs ≠ .error .format) :
    ∃ body h l rest, BodyText body ∧ bs = sentenceBytes body h l ++ rest := by
  unfold nmeaDecode at hne
  split at hne
  next => exact absurd rfl hne
  next d after =>
    split_ifs at hne with hd
    · exact absurd rfl hne
    · obtain rfl : d = dollar := not_not.mp hd
      split at hne
      next => exact absurd rfl hne
      next body tail htake =>
        obtain ⟨rfl, hbody⟩ := takeBody_some _ _ _ htake
        have htail : checkTail (ckx body) tail ≠ .error .format := by
          intro hformat
          rw [hformat] at hne
          exact hne rfl
        obtain ⟨h, l, rest, rfl⟩ := checkTail_of_ne_format htail
        exact ⟨body, h, l, rest, hbody, (sentenceBytes_append body h l rest).symm⟩

/-! ### `nmea_decode` along the grammar -/

theorem takeBody_stopped {body more : List Byte} {b : Byte} (hbody : BodyText body) (hb : bodyStopper b = true) :
    takeBody (body ++ b :: more) = none := by
  induction body with
  | nil =>
    obtain ⟨-, hstar⟩ := ne_comma_star_of_bodyStopper hb
    rw [List.nil_append, takeBody, if_neg hstar, if_pos hb]
  | cons x xs ih =>
    obtain ⟨hstar, hstop⟩ := hbody x (by simp)
    rw [List.cons_append, takeBody, if_neg hstar, if_neg (by simp [hstop]), ih fun y hy => hbody y (by simp [hy])]
    rfl

/-- The first marker ends the text, so bytes have the form of a sentence in one way. -/
theorem tail_eq_of_sentenceBytes {body body' tail rest : List Byte} {h l : BitVec 4} (hbody : BodyText body)
    (hbody' : BodyText body') (heq : dollar :: body ++ star :: tail = sentenceBytes body' h l ++ rest) :
    tail = hexDigit h :: hexDigit l :: cr :: lf :: rest := by
  rw [sentenceBytes_append, List.cons_append] at heq
  have htake := congrArg takeBody (List.cons.inj heq).2
  rw [takeBody_append body tail hbody, takeBody_append body' _ hbody'] at htake
  exact (Prod.mk.inj (Option.some.inj htake)).2

/-- A rejected byte makes a format error, whatever follows. -/
theorem Decoding.nmeaDecode_rejects {o : OpState} {text bs : List Byte} {r b : Byte} (hdec : Decoding o text r bs)
    (hb : Rejects o b) (more : List Byte) : nmeaDecode (bs ++ b :: more) = .error .format := by
  by_contra hne
  obtain ⟨body', h', l', rest, hbody', heq⟩ := nmeaDecode_of_ne_format hne
  cases hdec with
  | start => exact hb (List.cons.inj heq).1
  | @body body hbody =>
    rw [sentenceBytes_append, List.cons_append] at heq
    have htake := congrArg takeBody (List.cons.inj heq).2
    rw [takeBody_stopped hbody hb, takeBody_append body' _ hbody'] at htake
    cases htake
  | marker hbody =>
    rw [List.append_assoc] at heq
    obtain ⟨hhigh, -⟩ := List.cons_eq_cons.mp (tail_eq_of_sentenceBytes hbody hbody' heq)
    exact hb h' hhigh
  | high hbody h =>
    rw [List.append_assoc] at heq
    obtain ⟨-, htail⟩ := List.cons_eq_cons.mp (tail_eq_of_sentenceBytes hbody hbody' heq)
    obtain ⟨hlow, -⟩ := List.cons_eq_cons.mp htail
    exact hb l' hlow
  | low hbody h l =>
    rw [List.append_assoc] at heq
    have htail : hexDigit h :: hexDigit l :: b :: more = _ := tail_eq_of_sentenceBytes hbody hbody' heq
    simp only [List.cons.injEq] at htail
    obtain ⟨-, -, hcr, -⟩ := htail
    exact hb hcr
  | ret hbody h l =>
    rw [List.append_assoc] at heq
    have htail : hexDigit h :: hexDigit l :: cr :: b :: more = _ := tail_eq_of_sentenceBytes hbody hbody' heq
    simp only [List.cons.injEq] at htail
    obtain ⟨-, -, -, hlf, -⟩ := htail
    exact hb hlf

theorem Decoding.viable {o : OpState} {text bs : List Byte} {r : Byte} (hdec : Decoding o text r bs) : Viable bs := by
  have hviable {bs body more : List Byte} {h l : BitVec 4} (hbody : BodyText body)
      (heq : bs ++ more = sentenceBytes body h l) : Viable bs :=
    ⟨more, by
      have hne := nmeaDecode_sentenceBytes_ne_format hbody h l []
      rwa [List.append_nil, ← heq] at hne⟩
  cases hdec with
  | start => exact hviable (body := []) (h := 0) (l := 0) nofun (List.nil_append _)
  | body hbody => exact hviable (h := 0) (l := 0) hbody rfl
  | marker hbody => exact hviable (h := 0) (l := 0) hbody (List.append_assoc ..)
  | high hbody h => exact hviable (l := 0) hbody (List.append_assoc ..)
  | low hbody h l => exact hviable hbody (List.append_assoc ..)
  | ret hbody h l => exact hviable hbody (List.append_assoc ..)

/-- Viable bytes that begin no sentence are bytes of the grammar. -/
theorem decoding_of_viable {bs more : List Byte} (hformat : nmeaDecode (bs ++ more) = .error .format)
    (hviable : Viable bs) : ∃ o text r, Decoding o text r bs := by
  induction bs using List.reverseRecOn generalizing more with
  | nil => exact ⟨_, _, _, .start⟩
  | append_singleton bs b ih =>
    obtain ⟨tail, htail⟩ := hviable
    rw [List.append_assoc] at hformat htail
    obtain ⟨o, text, r, hdec⟩ := ih hformat ⟨_, htail⟩
    rcases hdec.next b with hb | hnext | ⟨body, h, l, hbody, heq⟩
    · exact absurd (hdec.nmeaDecode_rejects hb tail) htail
    · exact hnext
    · rw [← List.append_assoc, heq] at hformat
      exact absurd hformat (nmeaDecode_sentenceBytes_ne_format hbody h l more)

/-! ### The machine along the grammar -/

/-- The decoder of `s` after `NMEADEC`, in the state `o`, with `text` taken before the marker and `rest` still on
`DIN`. -/
def decodingText (s : State) (text rest : List Byte) (r : Byte) (o : OpState) : State :=
  { s with
    agenda := [], din := rest, sout := s.sout ++ byteSymbols text, soutWanted := s.soutWanted - text.length,
    xacc := ckx text.tail, rxck := r, busy := true, done := false, opstate := o }

section
variable {s : State}

theorem step_nmeadec {rest : List Event} (hb : s.busy = false) (ha : s.agenda = cmdEvent 0x07 :: rest) :
    step s = .next { s with agenda := rest, done := false, xacc := 0, rxck := 0, busy := true, opstate := .nStart } :=
  (step_cmdEvent ha).trans (onCmd_idle _ { s with agenda := rest } hb)

variable (hl : s.line = [])
include hl

theorem step_decodingText {text rest : List Byte} {r : Byte} {o : OpState} {t : State}
    (h : blockMove (decodingText s text rest r o) = .next t) : step (decodingText s text rest r o) = .next t :=
  (step_blockTurn _ (blockTurn_of_nil (s := decodingText s text rest r o) rfl hl)).trans h

theorem step_decodingText_body {text rest : List Byte} {r b : Byte} (hb : b ≠ star ∧ bodyStopper b = false)
    (hhost : (dollar :: text).length < s.soutWanted) :
    step (decodingText s (dollar :: text) (b :: rest) r .nBody)
      = .next (decodingText s (dollar :: (text ++ [b])) rest r .nBody) := by
  have hsymbols : byteSymbols (dollar :: (text ++ [b])) = byteSymbols (dollar :: text) ++ byteSymbols [b] :=
    List.map_append (l₁ := dollar :: text)
  have hlength : (dollar :: (text ++ [b])).length = (dollar :: text).length + 1 :=
    List.length_append (as := dollar :: text)
  have hfold : ckx (text ++ [b]) = ckxStep (ckx text) b := ckxFrom_append 0 text [b]
  refine (step_decodingText hl (blockMove_nBody_text rfl rfl hb (Nat.sub_pos_of_lt hhost))).trans ?_
  simp only [decodingText, hsymbols, hlength, hfold, List.tail_cons, List.append_assoc, Nat.sub_sub]

theorem run_decodingText_body {text body rest : List Byte} {r : Byte} (hbody : BodyText body)
    (hhost : (dollar :: text).length + body.length ≤ s.soutWanted) :
    run body.length (decodingText s (dollar :: text) (body ++ rest) r .nBody)
      = .next (decodingText s (dollar :: (text ++ body)) rest r .nBody) := by
  induction body generalizing text with
  | nil =>
    rw [List.append_nil]
    rfl
  | cons b bs ih =>
    obtain ⟨hb, hbs⟩ := List.forall_mem_cons.mp hbody
    simp only [List.length_cons] at hhost ih
    rw [List.append_cons]
    refine run_of_step (step_decodingText_body hl hb (by simp only [List.length_cons]; omega)) (ih hbs ?_)
    rw [List.length_append, List.length_singleton]
    omega

theorem step_decodingText_dollar {rest : List Byte} {r : Byte} (hhost : 0 < s.soutWanted) :
    step (decodingText s [] (dollar :: rest) r .nStart) = .next (decodingText s [dollar] rest r .nBody) := by
  refine (step_decodingText hl (blockMove_nStart_dollar rfl rfl (by exact hhost))).trans ?_
  simp only [decodingText, byteSymbols, List.map_nil, List.append_nil]
  rfl

end

/-- `NMEADEC` on an idle block, with nothing else to happen: what the runs from here have in common. -/
structure DecodeStarts (s : State) : Prop where
  busy : s.busy = false
  agenda : s.agenda = [.wr .cmd 0x07]
  line : s.line = []

section
variable {s : State} (hs : DecodeStarts s)
include hs

theorem run_to_nStart : run 1 s = .next (decodingText s [] s.din 0 .nStart) := by
  refine run_of_step (step_nmeadec hs.busy hs.agenda) ?_
  simp only [decodingText, byteSymbols, List.map_nil, List.append_nil]
  rfl

variable {body rest : List Byte} (hbody : BodyText body) (hhost : body.length < s.soutWanted)
include hbody hhost

theorem run_to_nBody (hd : s.din = dollar :: body ++ rest) :
    run (1 + (body.length + 1)) s = .next (decodingText s (dollar :: body) rest 0 .nBody) := by
  have hstart := run_to_nStart hs
  rw [hd] at hstart
  have hdollar := step_decodingText_dollar (r := 0) (rest := body ++ rest) hs.line (Nat.zero_lt_of_lt hhost)
  have htext := run_decodingText_body (text := []) (r := 0) (rest := rest) hs.line hbody
    (by rw [List.length_singleton]; omega)
  rw [Nat.add_comm body.length]
  exact run_of_run hstart (run_of_run (k := 1) (run_of_step hdollar rfl) htext)

theorem run_to_nHex1 (hd : s.din = dollar :: body ++ star :: rest) :
    run (1 + (body.length + 1 + 1)) s = .next (decodingText s (dollar :: body) rest 0 .nHex1) :=
  run_of_run (l := 1) (run_to_nBody hs hbody hhost hd)
    (run_of_step (step_decodingText hs.line (blockMove_nBody_star rfl rfl)) rfl)

theorem run_to_nHex2 {h : BitVec 4} (hd : s.din = dollar :: body ++ star :: hexDigit h :: rest) :
    run (1 + (body.length + 1 + 2)) s = .next (decodingText s (dollar :: body) rest (packByte h 0) .nHex2) :=
  run_of_run (l := 1) (run_to_nHex1 hs hbody hhost hd)
    (run_of_step (step_decodingText hs.line (blockMove_nHex1_digit h rfl rfl)) rfl)

theorem run_to_nCr {h l : BitVec 4} (hd : s.din = dollar :: body ++ star :: hexDigit h :: hexDigit l :: rest) :
    run (1 + (body.length + 1 + 3)) s = .next (decodingText s (dollar :: body) rest (packByte h l) .nCr) := by
  refine run_of_run (l := 1) (run_to_nHex2 hs hbody hhost hd)
    (run_of_step (step_decodingText hs.line (blockMove_nHex2_digit l rfl rfl)) ?_)
  have hrxck : packByte (hiNibble (packByte h 0)) l = packByte h l := by rw [hiNibble_packByte]
  rw [← hrxck]
  rfl

theorem run_to_nLf {h l : BitVec 4} (hd : s.din = dollar :: body ++ star :: hexDigit h :: hexDigit l :: cr :: rest) :
    run (1 + (body.length + 1 + 4)) s = .next (decodingText s (dollar :: body) rest (packByte h l) .nLf) :=
  run_of_run (l := 1) (run_to_nCr hs hbody hhost hd)
    (run_of_step (step_decodingText hs.line (blockMove_nCr_cr rfl rfl)) rfl)

end

/-- The machine follows the grammar: after bytes of it, what stands before the marker has been emitted and folded. -/
theorem run_decoding {s : State} (hs : DecodeStarts s) {o : OpState} {text bs rest : List Byte} {r : Byte}
    (hdec : Decoding o text r bs) (hd : s.din = bs ++ rest) (hhost : bs.length ≤ s.soutWanted) :
    run (1 + bs.length) s = .next (decodingText s text rest r o) := by
  have hlength (body tail : List Byte) : (dollar :: body ++ tail).length = body.length + 1 + tail.length :=
    List.length_append
  cases hdec with
  | start =>
    rw [← show s.din = rest from hd]
    exact run_to_nStart hs
  | body hbody => exact run_to_nBody hs hbody hhost hd
  | marker hbody =>
    rw [hlength] at hhost ⊢
    exact run_to_nHex1 hs hbody (by omega) (hd.trans (List.append_assoc ..))
  | high hbody h =>
    rw [hlength] at hhost ⊢
    exact run_to_nHex2 hs hbody (by omega) (hd.trans (List.append_assoc ..))
  | low hbody h l =>
    rw [hlength] at hhost ⊢
    exact run_to_nCr hs hbody (by omega) (hd.trans (List.append_assoc ..))
  | ret hbody h l =>
    rw [hlength] at hhost ⊢
    exact run_to_nLf hs hbody (by omega) (hd.trans (List.append_assoc ..))

/-! ### A whole sentence, and a rejected byte -/

section
variable {s : State} (hs : DecodeStarts s)
include hs

section
variable {body rest : List Byte} {h l : BitVec 4} (hbody : BodyText body) (hd : s.din = sentenceBytes body h l ++ rest)
include hbody hd

theorem run_sentence_match (hhost : body.length + 1 < s.soutWanted) (hck : packByte h l = ckx body) :
    run (7 + body.length) s = .next
      { s with
        agenda := [], din := rest, sout := s.sout ++ (byteSymbols (dollar :: body) ++ [.endMsg]),
        soutWanted := s.soutWanted - (body.length + 1 + 1), xacc := ckx body, rxck := ckx body, result := 0x01,
        busy := false, done := true, opstate := .idle } := by
  have hlast := run_to_nLf hs hbody (by omega) (hd.trans (sentenceBytes_append body h l rest))
  rw [hck] at hlast
  rw [show 7 + body.length = 1 + (body.length + 1 + 4) + 1 by omega, ← List.append_assoc, ← Nat.sub_sub]
  exact run_of_run hlast
    (run_of_step (step_decodingText hs.line (blockMove_nLf_match rfl rfl rfl (Nat.sub_pos_of_lt hhost))) rfl)

theorem run_sentence_mismatch (hhost : body.length < s.soutWanted) (hck : packByte h l ≠ ckx body) :
    run (7 + body.length) s = .next
      { s with
        agenda := [], din := rest, sout := s.sout ++ byteSymbols (dollar :: body),
        soutWanted := s.soutWanted - (1 + body.length), xacc := ckx body, rxck := packByte h l, result := 0x13,
        busy := false, done := true, opstate := .idle } := by
  have hlast := run_to_nLf hs hbody hhost (hd.trans (sentenceBytes_append body h l rest))
  rw [show 7 + body.length = 1 + (body.length + 1 + 4) + 1 by omega, Nat.add_comm 1 body.length]
  exact run_of_run hlast (run_of_step (step_decodingText hs.line (blockMove_nLf_mismatch rfl rfl hck)) rfl)

end

theorem run_rejects {o : OpState} {text bs rest : List Byte} {r b : Byte} (hdec : Decoding o text r bs)
    (hb : Rejects o b) (hd : s.din = bs ++ b :: rest) (hhost : bs.length ≤ s.soutWanted) :
    run (2 + bs.length) s = .next
      { s with
        agenda := [], din := rest, sout := s.sout ++ byteSymbols text, soutWanted := s.soutWanted - text.length,
        xacc := ckx text.tail, rxck := r, result := 0x15, busy := false, done := true, opstate := .idle } := by
  rw [show 2 + bs.length = 1 + bs.length + 1 by omega]
  exact run_of_run (run_decoding hs hdec hd hhost)
    (run_of_step (step_decodingText hs.line (blockMove_rejects rfl hb)) rfl)

end

/-- The symbols of the fields are those of the text they are the split of (R107, R276). -/
theorem symbols_of_splitCommas {bs tag : List Byte} {fields : List (List Byte)} (h : splitCommas bs = tag :: fields) :
    tag.map Symbol.ch ++ fieldSymbols fields = byteSymbols bs := by
  induction bs generalizing tag fields with
  | nil =>
    obtain ⟨rfl, rfl⟩ := List.cons.inj h
    rfl
  | cons b bs ih =>
    by_cases hb : b = comma
    · rw [splitCommas, if_pos hb] at h
      obtain ⟨rfl, rfl⟩ := List.cons.inj h
      cases hsplit : splitCommas bs with
      | nil => exact absurd hsplit (splitCommas_ne_nil bs)
      | cons f fs => simp [fieldSymbols, ih hsplit, byteSymbols, hb]
    · obtain ⟨f, fs, hsplit, hcons⟩ := splitCommas_cons hb bs
      obtain ⟨rfl, rfl⟩ := List.cons.inj (h.symm.trans hcons)
      rw [List.map_cons, List.cons_append, ih hsplit]
      simp [byteSymbols, hb]

end Sys2Proof.Machine

namespace Sys2Proof.Proofs

open Sys2Proof.Machine

/-- Settles O36: what is no format error has the form of a sentence, whose digits decide; what is one leaves the grammar
at the first byte that no sentence goes on from, or not at all. -/
theorem nmeadecComputesNmeaDecode : Obligations.NmeadecComputesNmeaDecode := by
  intro s bs hb ha hl hd hhost
  have hs : DecodeStarts s := ⟨hb, ha, hl⟩
  have hlength (body : List Byte) (h l : BitVec 4) (rest : List Byte) :
      (sentenceBytes body h l ++ rest).length = body.length + 6 + rest.length := by
    simp only [sentenceBytes, List.length_append, List.length_cons, List.length_nil]
  refine ⟨fun tag fields rest hok => ?_, fun hchecksum => ?_,
    fun hformat => ⟨fun pre b rest hbs hpre hnext => ?_, fun hbs => ?_⟩⟩
  · obtain ⟨body, h, l, rest', hbody, rfl⟩ := nmeaDecode_of_ne_format (bs := bs) (by rw [hok]; nofun)
    rw [nmeaDecode_sentenceBytes hbody] at hok
    split_ifs at hok with hck
    obtain ⟨hsplit, rfl⟩ := Prod.mk.inj (Except.ok.inj hok)
    rw [hlength] at hhost
    have hsymbols : messageSymbols tag fields = byteSymbols (Config.dollar :: body) ++ [.endMsg] :=
      congrArg (· ++ [Symbol.endMsg]) (symbols_of_splitCommas hsplit)
    have hcount : (byteSymbols (Config.dollar :: body) ++ [Symbol.endMsg]).length = body.length + 1 + 1 := by
      simp only [byteSymbols, List.length_append, List.length_map, List.length_cons, List.length_nil]
    rw [hsymbols, hcount, joined_splitCommas _ _ _ hsplit, hlength,
      show 1 + (body.length + 6 + rest'.length - rest'.length) = 7 + body.length by omega]
    exact run_sentence_match hs hbody hd (by omega) hck
  · obtain ⟨body, h, l, rest, hbody, rfl⟩ := nmeaDecode_of_ne_format (bs := bs) (by rw [hchecksum]; nofun)
    rw [nmeaDecode_sentenceBytes hbody] at hchecksum
    split_ifs at hchecksum with hck
    rw [hlength] at hhost
    refine ⟨body, h, l, rest, rfl, fun b hmem => ?_, hck, run_sentence_mismatch hs hbody hd (by omega) hck⟩
    obtain ⟨hstar, hstop⟩ := hbody b hmem
    simp only [List.mem_cons, List.not_mem_nil, or_false, not_or]
    exact ⟨hstar, (bodyStopper_false_iff b).mp hstop⟩
  · obtain ⟨o, text, r, hdec⟩ := decoding_of_viable (hbs ▸ hformat) hpre
    subst hbs
    rw [hdec.text_eq]
    rcases hdec.next b with hreject | ⟨_, _, _, hdec'⟩ | ⟨body, h, l, hbody, heq⟩
    · rw [List.length_append] at hhost
      exact ⟨r, run_rejects hs hdec hreject hd (by omega)⟩
    · exact absurd hdec'.viable hnext
    · rw [List.append_cons, heq] at hformat
      exact absurd hformat (nmeaDecode_sentenceBytes_ne_format hbody h l rest)
  · obtain ⟨o, text, r, hdec⟩ := decoding_of_viable (more := []) (by rwa [List.append_nil]) hbs
    rw [hdec.text_eq]
    exact ⟨r, o, hdec.state_mem, run_decoding hs hdec (by rwa [List.append_nil]) hhost⟩

end Sys2Proof.Proofs
end

section
/-! The dual sum and the XOR fold as functions of a byte sequence (R130 to R136). -/

namespace Sys2Proof.Machine

/-! ### The closed form of the dual sum (R131, R132) -/

/-- The sum of the bytes, without the modulus (R132). -/
def byteSum (bs : List Byte) : Nat := (bs.map BitVec.toNat).sum

/-- The sum of the bytes, each weighted by its distance from the end, without the modulus (R132). -/
def weightedSum (bs : List Byte) : Nat := (bs.zipIdx.map fun x => (bs.length - x.2) * x.1.toNat).sum

theorem byteSum_cons (x : Byte) (bs : List Byte) : byteSum (x :: bs) = x.toNat + byteSum bs := List.sum_cons

theorem byteSum_append (us vs : List Byte) : byteSum (us ++ vs) = byteSum us + byteSum vs := by
  simp only [byteSum, List.map_append, List.sum_append]

theorem byteSum_perm {us vs : List Byte} (h : us.Perm vs) : byteSum us = byteSum vs := (h.map _).sum_eq

/-- A byte in front has the weight of the whole length, and the weights behind it stay. -/
theorem weightedSum_cons (x : Byte) (bs : List Byte) :
    weightedSum (x :: bs) = (bs.length + 1) * x.toNat + weightedSum bs := by
  simp only [weightedSum, List.zipIdx_cons', List.map_cons, List.map_map, List.sum_cons, List.length_cons, Nat.sub_zero]
  congr 3
  funext y
  simp only [Function.comp_apply, Prod.map_fst, Prod.map_snd, id_eq, Nat.add_sub_add_right]

/-- The first sum goes on from where it stands (R130). -/
theorem ck2From_fst_toNat (p : Byte × Byte) (bs : List Byte) :
    (ck2From p bs).1.toNat = (p.1.toNat + byteSum bs) % 256 := by
  induction bs generalizing p with
  | nil => exact (Nat.mod_eq_of_lt p.1.isLt).symm
  | cons x bs ih =>
    have hstep : (ck2Step p x).1.toNat = (p.1.toNat + x.toNat) % 256 := BitVec.toNat_add ..
    rw [ck2From_cons, ih, hstep, byteSum_cons]
    omega

/-- The second sum takes up the first sum once for every byte that follows (R130). -/
theorem ck2From_snd_toNat (p : Byte × Byte) (bs : List Byte) :
    (ck2From p bs).2.toNat = (p.2.toNat + bs.length * p.1.toNat + weightedSum bs) % 256 := by
  induction bs generalizing p with
  | nil =>
    rw [List.length_nil, Nat.zero_mul]
    exact (Nat.mod_eq_of_lt p.2.isLt).symm
  | cons x bs ih =>
    have hfst : (ck2Step p x).1.toNat = (p.1.toNat + x.toNat) % 256 := BitVec.toNat_add ..
    have hsnd : (ck2Step p x).2.toNat = (p.2.toNat + (ck2Step p x).1.toNat) % 256 := BitVec.toNat_add ..
    have hcarry : bs.length * ((p.1.toNat + x.toNat) % 256) % 256 = bs.length * (p.1.toNat + x.toNat) % 256 :=
      Nat.mul_mod_mod ..
    rw [ck2From_cons, ih, hsnd, hfst, weightedSum_cons, List.length_cons]
    simp only [Nat.add_mul, Nat.mul_add, Nat.one_mul] at hcarry ⊢
    omega

theorem ck2_fst_toNat (bs : List Byte) : (ck2 bs).1.toNat = byteSum bs % 256 := by
  simp [ck2, ck2From_fst_toNat]

theorem ck2_snd_toNat (bs : List Byte) : (ck2 bs).2.toNat = weightedSum bs % 256 := by
  simp [ck2, ck2From_snd_toNat]

/-! ### What the dual sum tells apart (R133) -/

theorem ck2_fst_perm {us vs : List Byte} (h : us.Perm vs) : (ck2 us).1 = (ck2 vs).1 :=
  BitVec.eq_of_toNat_eq (by rw [ck2_fst_toNat, ck2_fst_toNat, byteSum_perm h])

/-- One step loses nothing: the first sum gives the old one back, and then the second does. -/
theorem ck2Step_left_injective (x : Byte) : Function.Injective (ck2Step · x) := by
  rintro ⟨a, b⟩ ⟨c, d⟩ h
  obtain ⟨hfst, hsnd⟩ := Prod.mk.inj h
  obtain rfl : a = c := add_right_cancel hfst
  obtain rfl : b = d := add_right_cancel hsnd
  rfl

/-- Different sums stay different, whatever bytes follow. -/
theorem ck2From_left_injective (bs : List Byte) : Function.Injective (ck2From · bs) := by
  induction bs with
  | nil => exact fun _ _ h => h
  | cons x bs ih => exact ih.comp (ck2Step_left_injective x)

/-- The order of two neighbours is seen: the second sum takes up the first of them twice. -/
theorem ck2Step_swap_ne {x y : Byte} (h : x ≠ y) (p : Byte × Byte) :
    ck2Step (ck2Step p x) y ≠ ck2Step (ck2Step p y) x := by
  intro heq
  obtain ⟨hfst, hsnd⟩ := Prod.mk.inj heq
  rw [hfst] at hsnd
  exact h (add_left_cancel (add_left_cancel (add_right_cancel hsnd)))

theorem ck2_swap_ne {x y : Byte} (h : x ≠ y) (u v : List Byte) : ck2 (u ++ x :: y :: v) ≠ ck2 (u ++ y :: x :: v) := by
  simp only [ck2, ck2From_append, ck2From_cons]
  exact (ck2From_left_injective v).ne (ck2Step_swap_ne h _)

/-! ### The XOR fold (R134, R135) -/

theorem ckxStep_right_comm (a x y : Byte) : ckxStep (ckxStep a x) y = ckxStep (ckxStep a y) x := by
  simp only [ckxStep, BitVec.xor_assoc, BitVec.xor_comm x y]

theorem ckxStep_cancel (a x : Byte) : ckxStep (ckxStep a x) x = a := by
  simp only [ckxStep, BitVec.xor_assoc, BitVec.xor_self, BitVec.xor_zero]

theorem ckxFrom_perm {us vs : List Byte} (h : us.Perm vs) (a : Byte) : ckxFrom a us = ckxFrom a vs :=
  h.foldl_eq' (fun x _ y _ a => ckxStep_right_comm a x y) a

theorem ckxFrom_cancel (a x : Byte) (bs : List Byte) : ckxFrom a (x :: x :: bs) = ckxFrom a bs := by
  rw [ckxFrom_cons, ckxFrom_cons, ckxStep_cancel]

end Sys2Proof.Machine

namespace Sys2Proof.Proofs

open Sys2Proof.Machine

/-- Settles O55: `byteSum` and `weightedSum` are the two sums, and the fold from `(0, 0)` is each of them modulo 256. -/
theorem dualSumClosedForm : Obligations.DualSumClosedForm :=
  fun bs => ⟨ck2_fst_toNat bs, ck2_snd_toNat bs⟩

/-- Settles O56: a changed byte changes the sum by less than 256; a swap leaves the sum and changes the pair, hence its
second part. -/
theorem dualSumDetectsChanges : Obligations.DualSumDetectsChanges := by
  refine ⟨fun u v x y hne heq => hne (BitVec.eq_of_toNat_eq ?_), fun u v x y hne => ?_⟩
  · have hsum := congrArg BitVec.toNat heq
    simp only [ck2_fst_toNat, byteSum_append, byteSum_cons] at hsum
    have hx := x.isLt
    have hy := y.isLt
    omega
  · have hfst : (ck2 (u ++ x :: y :: v)).1 = (ck2 (u ++ y :: x :: v)).1 :=
      ck2_fst_perm ((List.Perm.swap y x v).append_left u)
    exact ⟨hfst, fun hsnd => ck2_swap_ne hne u v (Prod.ext hfst hsnd)⟩

/-- Settles O57: the steps commute, and a step with the same byte undoes the one before. -/
theorem xorIgnoresTheOrder : Obligations.XorIgnoresTheOrder :=
  ⟨fun _ _ h => ckxFrom_perm h 0, fun us x => ckxFrom_cancel 0 x us⟩

end Sys2Proof.Proofs
end

section
/-! `CK2` and `CKX` on an idle block (R138, R140): what an operand that is written answers, and one that is too long. -/

namespace Sys2Proof.Machine

/-- A run from 0 on answers the bytes that stand there. -/
theorem readFrom_of_holds {m : Memory} {bs : List Byte} (h : Holds m bs) : m.readFrom 0 bs.length = .ok bs :=
  Memory.readFrom_ok m 0 bs fun i hi => by rw [Nat.zero_add, h i hi]

section
variable (k : List Byte → State → State) {s : State} (hb : s.busy = false)
include hb

/-- A written operand is given to the command, which ends with `RES_OK`. -/
theorem onCmd_foldTxbuf_of_holds {bs : List Byte} (hlen : s.argLen.toNat = bs.length)
    (hmax : bs.length ≤ Config.pbufBytes) (hbytes : Holds s.txbuf bs) :
    onCmd (foldTxbuf k) s = .next (report .resOk (k bs (acceptCmd s))) := by
  have haccept : (acceptCmd s).argLen.toNat = bs.length := hlen
  have hread : (acceptCmd s).txbuf.readFrom 0 bs.length = .ok bs := readFrom_of_holds hbytes
  rw [onCmd_idle _ s hb, foldTxbuf, haccept, if_neg (Nat.not_lt.mpr hmax), hread]

/-- A count above the buffer is refused before any byte is read (R301). -/
theorem onCmd_foldTxbuf_of_too_large (h : Config.pbufBytes < s.argLen.toNat) :
    onCmd (foldTxbuf k) s = .next (report .errPayloadTooLarge (acceptCmd s)) :=
  (onCmd_idle _ s hb).trans (if_pos h)

end

end Sys2Proof.Machine

namespace Sys2Proof.Proofs

open Sys2Proof.Machine

/-- Settles O6: `CK2` is the command that gives the operand to `setCk2`. -/
theorem ckTwoFoldsTheBuffer : Obligations.CkTwoFoldsTheBuffer :=
  ⟨rfl, fun _ _ hb hlen hmax hbytes => onCmd_foldTxbuf_of_holds setCk2 hb hlen hmax hbytes,
    fun _ hb hlarge => onCmd_foldTxbuf_of_too_large setCk2 hb hlarge⟩

/-- Settles O7: `CKX` is the command that gives the operand to `setCkx`. -/
theorem ckxFoldsTheBuffer : Obligations.CkxFoldsTheBuffer :=
  ⟨rfl, fun _ _ hb hlen hmax hbytes => onCmd_foldTxbuf_of_holds setCkx hb hlen hmax hbytes,
    fun _ hb hlarge => onCmd_foldTxbuf_of_too_large setCkx hb hlarge⟩

end Sys2Proof.Proofs
end

section
/-! The frame encoder from `UBXENC` to `RES_OK` (R156 to R166): the header, the payload out of TXBUF and the two
checksum bytes, one byte a step while the sink is ready. -/

namespace Sys2Proof.Machine

open Sys2Proof.Config

/-- A state whose index and `OPSTATE` are known. -/
theorem eq_with_cnt_opstate {s : State} {n : Half} {o : OpState} (hcnt : s.cnt = n) (ho : s.opstate = o) :
    s = { s with cnt := n, opstate := o } := by
  subst hcnt ho
  rfl

/-! ### The bytes of a frame, and a run of TXBUF -/

/-- The sync bytes, class, id and length of a frame stand before its payload and checksum (R90). -/
theorem ubxFrameBytes_eq (c i a b : Byte) (p : List Byte) :
    ubxFrameBytes c i p a b = [sync1, sync2, c, i, loByte (BitVec.ofNat 16 p.length),
      hiByte (BitVec.ofNat 16 p.length)] ++ (p ++ [a, b]) := rfl

/-- A run of bytes that succeeds begins with its first byte, and the others follow (R12). -/
theorem Memory.readFrom_cons_ok {m : Memory} {a n : Nat} {b : Byte} {bs : List Byte}
    (h : m.readFrom a (n + 1) = .ok (b :: bs)) : m.read a = some b ∧ m.readFrom (a + 1) n = .ok bs := by
  rw [Memory.readFrom] at h
  split at h
  next => cases h
  next x hx =>
    split at h
    next => cases h
    next ys hys =>
      cases h
      exact ⟨hx, hys⟩

section
variable {s : State}

/-- In the block's turn a step goes where the transition goes. -/
theorem step_of_blockMove {t : State} (hturn : BlockTurn s) (h : blockMove s = .next t) : step s = .next t :=
  (step_blockTurn s hturn).trans h

variable (hsink : s.txReady = true)
include hsink

/-! ### The nine states (R157 to R165) -/

theorem blockMove_eSync1 (ho : s.opstate = .eSync1) :
    blockMove s = .next { s with tx := s.tx ++ [sync1], opstate := .eSync2 } := by
  rw [blockMove, ho]
  exact txStep_ready _ _ s hsink

theorem blockMove_eSync2 (ho : s.opstate = .eSync2) :
    blockMove s = .next { s with tx := s.tx ++ [sync2], opstate := .eCls } := by
  rw [blockMove, ho]
  exact txStep_ready _ _ s hsink

theorem blockMove_eCls (ho : s.opstate = .eCls) :
    blockMove s = .next
      { s with
        tx := s.tx ++ [s.cls], ckA := (ck2Step (s.ckA, s.ckB) s.cls).1, ckB := (ck2Step (s.ckA, s.ckB) s.cls).2,
        opstate := .eId } := by
  rw [blockMove, ho]
  exact txStep_ready _ _ s hsink

theorem blockMove_eId (ho : s.opstate = .eId) :
    blockMove s = .next
      { s with
        tx := s.tx ++ [s.id], ckA := (ck2Step (s.ckA, s.ckB) s.id).1, ckB := (ck2Step (s.ckA, s.ckB) s.id).2,
        opstate := .eLen0 } := by
  rw [blockMove, ho]
  exact txStep_ready _ _ s hsink

theorem blockMove_eLen0 (ho : s.opstate = .eLen0) :
    blockMove s = .next
      { s with
        tx := s.tx ++ [loByte s.len], ckA := (ck2Step (s.ckA, s.ckB) (loByte s.len)).1,
        ckB := (ck2Step (s.ckA, s.ckB) (loByte s.len)).2, opstate := .eLen1 } := by
  rw [blockMove, ho]
  exact txStep_ready _ _ s hsink

/-- An empty payload is passed over (R162). -/
theorem blockMove_eLen1 (ho : s.opstate = .eLen1) :
    blockMove s = .next
      { s with
        tx := s.tx ++ [hiByte s.len], ckA := (ck2Step (s.ckA, s.ckB) (hiByte s.len)).1,
        ckB := (ck2Step (s.ckA, s.ckB) (hiByte s.len)).2, opstate := if s.len = 0 then .eCkA else .ePay } := by
  rw [blockMove, ho]
  exact txStep_ready _ _ s hsink

/-- A payload byte that is written and inside TXBUF is emitted (R163). -/
theorem blockMove_ePay {x : Byte} (ho : s.opstate = .ePay) (hcnt : s.cnt.toNat ≤ lenMax)
    (hread : s.txbuf.read s.cnt.toNat = some x) :
    blockMove s = .next
      { s with
        tx := s.tx ++ [x], ckA := (ck2Step (s.ckA, s.ckB) x).1, ckB := (ck2Step (s.ckA, s.ckB) x).2, cnt := s.cnt + 1,
        opstate := if s.cnt + 1 = s.len then .eCkA else .ePay } := by
  rw [blockMove, ho]
  simp only [stepEPay, if_pos hsink, if_neg (Nat.not_lt.mpr hcnt), hread]
  exact txStep_ready _ _ s hsink

theorem blockMove_eCkA (ho : s.opstate = .eCkA) :
    blockMove s = .next { s with tx := s.tx ++ [s.ckA], opstate := .eCkB } := by
  rw [blockMove, ho]
  exact txStep_ready _ _ s hsink

theorem blockMove_eCkB (ho : s.opstate = .eCkB) :
    blockMove s = .next
      { s with tx := s.tx ++ [s.ckB], result := 0x01, busy := false, done := true, opstate := .idle } := by
  rw [blockMove, ho]
  exact txStep_ready _ _ s hsink

/-! ### The parts of a frame -/

variable (hturn : BlockTurn s)
include hturn

/-- The six bytes before the payload, the last four of them folded. -/
theorem run_frameHead (ho : s.opstate = .eSync1) :
    run 6 s = .next
      { s with
        tx := s.tx ++ [sync1, sync2, s.cls, s.id, loByte s.len, hiByte s.len],
        ckA := (ck2From (s.ckA, s.ckB) [s.cls, s.id, loByte s.len, hiByte s.len]).1,
        ckB := (ck2From (s.ckA, s.ckB) [s.cls, s.id, loByte s.len, hiByte s.len]).2,
        opstate := if s.len = 0 then .eCkA else .ePay } := by
  refine run_of_step (step_of_blockMove hturn (blockMove_eSync1 hsink ho)) ?_
  refine run_of_step (step_of_blockMove hturn (blockMove_eSync2 hsink rfl)) ?_
  refine run_of_step (step_of_blockMove hturn (blockMove_eCls hsink rfl)) ?_
  refine run_of_step (step_of_blockMove hturn (blockMove_eId hsink rfl)) ?_
  refine run_of_step (step_of_blockMove hturn (blockMove_eLen0 hsink rfl)) ?_
  refine run_of_step (step_of_blockMove hturn (blockMove_eLen1 hsink rfl)) ?_
  simp only [run_zero, List.append_assoc, List.cons_append, List.nil_append]
  rfl

/-- What is left of the payload, which may be nothing: `CNT` counts up to `LEN` (R162, R163). -/
theorem run_framePayload {bs : List Byte} (ho : s.opstate = if s.cnt = s.len then .eCkA else .ePay)
    (hlen : s.cnt.toNat + bs.length = s.len.toNat) (hmax : s.len.toNat ≤ lenMax)
    (hread : s.txbuf.readFrom s.cnt.toNat bs.length = .ok bs) :
    run bs.length s = .next
      { s with
        tx := s.tx ++ bs, ckA := (ck2From (s.ckA, s.ckB) bs).1, ckB := (ck2From (s.ckA, s.ckB) bs).2, cnt := s.len,
        opstate := .eCkA } := by
  induction bs generalizing s with
  | nil =>
    have hcnt : s.cnt = s.len := BitVec.eq_of_toNat_eq hlen
    rw [if_pos hcnt] at ho
    rw [List.append_nil]
    exact congrArg Host.Outcome.next (eq_with_cnt_opstate hcnt ho)
  | cons x bs ih =>
    obtain ⟨hx, hrest⟩ := Memory.readFrom_cons_ok hread
    rw [List.length_cons] at hlen
    have hlt : s.cnt.toNat < s.len.toNat := by omega
    have hsucc := toNat_succ_of_lt hlt
    rw [if_neg (fun he => Nat.ne_of_lt hlt (congrArg BitVec.toNat he))] at ho
    rw [List.append_cons]
    refine run_of_step (step_of_blockMove hturn (blockMove_ePay hsink ho (by omega) hx)) ?_
    refine ih hsink hturn rfl ?_ hmax ?_
    · show (s.cnt + 1).toNat + bs.length = s.len.toNat
      omega
    · show s.txbuf.readFrom (s.cnt + 1).toNat bs.length = .ok bs
      rwa [hsucc]

/-- The two checksum bytes, and the end (R164, R165). -/
theorem run_frameTail (ho : s.opstate = .eCkA) :
    run 2 s = .next
      { s with tx := s.tx ++ [s.ckA, s.ckB], result := 0x01, busy := false, done := true, opstate := .idle } := by
  refine run_of_step (step_of_blockMove hturn (blockMove_eCkA hsink ho)) ?_
  refine run_of_step (step_of_blockMove hturn (blockMove_eCkB hsink rfl)) ?_
  simp only [run_zero, List.append_assoc, List.cons_append, List.nil_append]

/-- A whole frame, from the first sync byte on, with the checksum of class, id, length and payload (R166). -/
theorem run_frame {p : List Byte} (ho : s.opstate = .eSync1) (hck : s.ckA = 0 ∧ s.ckB = 0) (hcnt : s.cnt = 0)
    (hlen : s.len = BitVec.ofNat 16 p.length) (hmax : p.length ≤ lenMax) (hread : Holds s.txbuf p) :
    run (6 + (p.length + 2)) s = .next
      { s with
        tx := s.tx ++ ubxFrameBytes s.cls s.id p (ck2 (ubxBody s.cls s.id p)).1 (ck2 (ubxBody s.cls s.id p)).2,
        ckA := (ck2 (ubxBody s.cls s.id p)).1, ckB := (ck2 (ubxBody s.cls s.id p)).2, cnt := s.len, result := 0x01,
        busy := false, done := true, opstate := .idle } := by
  have hnat : s.len.toNat = p.length := by
    rw [hlen]
    exact Nat.mod_eq_of_lt (Nat.lt_of_le_of_lt hmax (by decide))
  have hbody : ck2 (ubxBody s.cls s.id p)
      = ck2From (ck2From (s.ckA, s.ckB) [s.cls, s.id, loByte s.len, hiByte s.len]) p := by
    rw [hck.1, hck.2, hlen]
    rfl
  rw [hbody, ubxFrameBytes_eq, ← hlen, ← List.append_assoc, ← List.append_assoc]
  refine run_of_run (run_frameHead hsink hturn ho) ?_
  refine run_of_run (run_framePayload (by exact hsink) (by exact hturn) ?_ ?_ ?_ ?_) (run_frameTail hsink hturn rfl)
  · simp only [hcnt, eq_comm]
  · show s.cnt.toNat + p.length = s.len.toNat
    rw [hcnt, hnat]
    exact Nat.zero_add _
  · exact hnat.trans_le hmax
  · show s.txbuf.readFrom s.cnt.toNat p.length = .ok p
    rw [hcnt]
    exact readFrom_of_holds hread

end

end Sys2Proof.Machine

namespace Sys2Proof.Proofs

open Sys2Proof.Machine

/-- Settles O11: the length decides between the refusal and the acceptance. -/
theorem ubxencAcceptance : Obligations.UbxencAcceptance :=
  ⟨rfl, fun s hb => ⟨fun hlarge => (onCmd_idle _ s hb).trans (if_pos hlarge),
    fun hfits => (onCmd_idle _ s hb).trans (if_neg (Nat.not_lt.mpr hfits))⟩⟩

/-- Settles O15: one transition for each of the nine states. -/
theorem encoderTransitions : Obligations.EncoderTransitions := by
  intro s hturn hsink
  rw [step_blockTurn s hturn]
  exact ⟨blockMove_eSync1 hsink, blockMove_eSync2 hsink, blockMove_eCls hsink, blockMove_eId hsink,
    blockMove_eLen0 hsink, blockMove_eLen1 hsink, fun _ ho hcnt hread => blockMove_ePay hsink ho hcnt hread,
    blockMove_eCkA hsink, blockMove_eCkB hsink⟩

/-- Settles O16: the acceptance of the command and then the frame, or the refusal. -/
theorem ubxencEmitsTheFrame : Obligations.UbxencEmitsTheFrame := by
  intro s p hb ha hl hsink hlen c i
  refine ⟨fun hmax hread => ?_, fun hlarge => ⟨ubxEncode_error c i p hlarge, ?_⟩⟩
  · have hargLen : s.argLen = BitVec.ofNat 16 p.length := by rw [← hlen, BitVec.ofNat_toNat, BitVec.setWidth_eq]
    refine ⟨_, ubxEncode_ok c i p hmax, ?_, ?_⟩
    · rw [ubxFrameBytes_eq, ← hargLen, List.append_assoc]
      rfl
    · rw [show 9 + p.length = 6 + (p.length + 2) + 1 by omega]
      refine run_of_step (step_ubxenc_fits hb ha (hlen.trans_le hmax)) ?_
      exact run_frame (by exact hsink) (blockTurn_of_nil rfl (by exact hl)) rfl ⟨rfl, rfl⟩ rfl hargLen hmax hread
  · exact run_of_step (step_ubxenc_tooLarge hb ha (hlen ▸ hlarge)) rfl

end Sys2Proof.Proofs
end

section
/-! A valid frame through the receiver (R216 to R232): the header, the payload into RXBUF and the two checksum bytes, one
byte a step while no deadline has passed. -/

namespace Sys2Proof.Machine

open Sys2Proof.Config

/-! ### The receiver on a byte (R216 to R232) -/

/-- What each of the eight mid-frame states does with a byte. -/
def midFrameRule : OpState → Option (Byte → State → Result)
  | .rSync2 => some rxSync2
  | .rCls => some rxCls
  | .rId => some rxId
  | .rLen0 => some rxLen0
  | .rLen1 => some rxLen1
  | .rPay => some rxPay
  | .rCkA => some rxCkA
  | .rCkB => some rxCkB
  | _ => none

section
variable {s : State} {b : Byte} {rest : List LineEvent}

/-- A mid-frame state makes the common tests and then follows its own rule. -/
theorem blockMove_midFrame {f : Byte → State → Result} (hrule : midFrameRule s.opstate = some f) :
    s.opstate.isReceiver = true ∧ blockMove s = onLine (midFrame f) s := by
  unfold blockMove
  cases ho : s.opstate with
  | rSync2 | rCls | rId | rLen0 | rLen1 | rPay | rCkA | rCkB =>
    rw [ho] at hrule
    cases hrule
    exact ⟨rfl, rfl⟩
  | _ =>
    rw [ho] at hrule
    cases hrule

theorem deadlinePassed_of_not_expired (h : expired s = false) : deadlinePassed s = false := by
  rw [deadlinePassed, h, Bool.and_false]

/-- `MAX_PAYLOAD` has 15 bits (R9). -/
theorem maxPayload_le_lenMax (s : State) : s.maxPayload.toNat ≤ lenMax := Nat.le_of_lt_succ s.maxPayload.isLt

/-- A length up to `MAX_PAYLOAD` passes the test; it is not negative (R228). -/
theorem badLength_eq_false {l : Half} (h : l.toNat ≤ s.maxPayload.toNat) : badLength s l = false := by
  have hmax : l.toNat ≤ lenMax := h.trans (maxPayload_le_lenMax s)
  rw [badLength, getLsbD_sign, decide_eq_false (Nat.not_lt.mpr hmax), decide_eq_false (Nat.not_lt.mpr h), Bool.or_false]

variable (hwaits : HostWaits s) (hl : s.line = .rx (some b) :: rest)
include hwaits hl

theorem step_midFrame {f : Byte → State → Result} {t : State} (hdeadline : deadlinePassed s = false)
    (hrule : midFrameRule s.opstate = some f) (hbyte : f b { s with line := rest } = .next t) : step s = .next t := by
  obtain ⟨hreceiver, hmove⟩ := blockMove_midFrame hrule
  rw [step_receiver s hwaits hreceiver, hmove, onLine_rx _ s _ rest hl]
  exact (midFrame_byte f b { s with line := rest } hdeadline).trans hbyte

theorem step_seek_sync1 (ho : s.opstate = .rSeek) (hexpired : expired s = false) (hb : b = sync1) :
    step s = .next { s with line := rest, opstate := .rSync2 } := by
  have hmove : blockMove s = onLine rxSeek s := by rw [blockMove, ho, stepRSeek]
  have htimer : expired { s with line := rest } = false := hexpired
  rw [step_receiver s hwaits (by rw [ho]; rfl), hmove, onLine_rx _ s _ rest hl, rxSeek, htimer, hb]
  rfl

variable (hdeadline : deadlinePassed s = false)
include hdeadline

theorem step_rSync2_sync2 (ho : s.opstate = .rSync2) (hb : b = sync2) :
    step s = .next { s with line := rest, ckA := 0, ckB := 0, opstate := .rCls } :=
  step_midFrame hwaits hl hdeadline (congrArg midFrameRule ho) (if_pos hb)

theorem step_rCls (ho : s.opstate = .rCls) :
    step s = .next
      { s with
        line := rest, cls := b, ckA := (ck2Step (s.ckA, s.ckB) b).1, ckB := (ck2Step (s.ckA, s.ckB) b).2,
        opstate := .rId } :=
  step_midFrame hwaits hl hdeadline (congrArg midFrameRule ho) rfl

theorem step_rId (ho : s.opstate = .rId) :
    step s = .next
      { s with
        line := rest, id := b, ckA := (ck2Step (s.ckA, s.ckB) b).1, ckB := (ck2Step (s.ckA, s.ckB) b).2,
        opstate := .rLen0 } :=
  step_midFrame hwaits hl hdeadline (congrArg midFrameRule ho) rfl

theorem step_rLen0 (ho : s.opstate = .rLen0) :
    step s = .next
      { s with
        line := rest, len := packHalf b (hiByte s.len), ckA := (ck2Step (s.ckA, s.ckB) b).1,
        ckB := (ck2Step (s.ckA, s.ckB) b).2, opstate := .rLen1 } :=
  step_midFrame hwaits hl hdeadline (congrArg midFrameRule ho) rfl

/-- A length that passes the test leads to the payload, or past an empty one (R228). -/
theorem step_rLen1_fits {l : Half} (ho : s.opstate = .rLen1) (hlen : packHalf (loByte s.len) b = l)
    (hfits : badLength s l = false) :
    step s = .next
      { s with
        line := rest, len := l, cnt := 0, ckA := (ck2Step (s.ckA, s.ckB) b).1, ckB := (ck2Step (s.ckA, s.ckB) b).2,
        opstate := if l = 0 then .rCkA else .rPay } := by
  subst hlen
  refine step_midFrame hwaits hl hdeadline (congrArg midFrameRule ho) ((if_neg (ne_true_of_eq_false hfits)).trans ?_)
  split <;> rfl

theorem step_rPay (ho : s.opstate = .rPay) (hcnt : s.cnt.toNat ≤ lenMax) :
    step s = .next
      { s with
        line := rest, rxbuf := s.rxbuf.write s.cnt.toNat b, cnt := s.cnt + 1, ckA := (ck2Step (s.ckA, s.ckB) b).1,
        ckB := (ck2Step (s.ckA, s.ckB) b).2, opstate := if s.cnt + 1 = s.len then .rCkA else .rPay } :=
  step_midFrame hwaits hl hdeadline (congrArg midFrameRule ho) (if_neg (Nat.not_lt.mpr hcnt))

theorem step_rCkA (ho : s.opstate = .rCkA) : step s = .next { s with line := rest, rckA := b, opstate := .rCkB } :=
  step_midFrame hwaits hl hdeadline (congrArg midFrameRule ho) rfl

theorem step_rCkB_match (ho : s.opstate = .rCkB) (hck : s.rckA = s.ckA ∧ b = s.ckB) :
    step s = .next
      { s with
        line := rest, rckB := b, msgCls := s.cls, msgId := s.id, msgLen := s.len, msgValid := true, result := 0x01,
        busy := false, done := true, opstate := .idle } :=
  step_midFrame hwaits hl hdeadline (congrArg midFrameRule ho) (if_pos hck)

end

/-! ### The parts of a frame -/

section
variable {s : State} {rest : List LineEvent} (hwaits : HostWaits s)
include hwaits

/-- The six bytes before the payload. -/
theorem run_receiveHead {c i : Byte} {n : Half} (ho : s.opstate = .rSeek) (hexpired : expired s = false)
    (hfits : badLength s n = false)
    (hl : s.line = answers [sync1, sync2, c, i, loByte n, hiByte n] ++ rest) :
    run 6 s = .next
      { s with
        line := rest, cls := c, id := i, len := n, cnt := 0, ckA := (ck2 [c, i, loByte n, hiByte n]).1,
        ckB := (ck2 [c, i, loByte n, hiByte n]).2, opstate := if n = 0 then .rCkA else .rPay } := by
  have hdeadline := deadlinePassed_of_not_expired hexpired
  refine run_of_step (step_seek_sync1 hwaits hl ho hexpired rfl) ?_
  refine run_of_step (step_rSync2_sync2 hwaits rfl hdeadline rfl rfl) ?_
  refine run_of_step (step_rCls hwaits rfl hdeadline rfl) ?_
  refine run_of_step (step_rId hwaits rfl hdeadline rfl) ?_
  refine run_of_step (step_rLen0 hwaits rfl hdeadline rfl) ?_
  have hlen (hi : Byte) : packHalf (loByte (packHalf (loByte n) hi)) (hiByte n) = n := by
    rw [loByte_packHalf, packHalf_lo_hi]
  refine run_of_step (step_rLen1_fits (by exact hwaits) rfl (by exact hdeadline) rfl (by exact hlen _) ?_) rfl
  exact hfits

/-- What is left of the payload, which may be nothing: each byte goes to RXBUF at `CNT` (R228, R230). -/
theorem run_receivePayload {p : List Byte} (ho : s.opstate = if s.cnt = s.len then .rCkA else .rPay)
    (hlen : s.cnt.toNat + p.length = s.len.toNat) (hmax : s.len.toNat ≤ lenMax) (hdeadline : deadlinePassed s = false)
    (hl : s.line = answers p ++ rest) :
    run p.length s = .next
      { s with
        line := rest, rxbuf := s.rxbuf.writeFrom s.cnt.toNat p, ckA := (ck2From (s.ckA, s.ckB) p).1,
        ckB := (ck2From (s.ckA, s.ckB) p).2, cnt := s.len, opstate := .rCkA } := by
  induction p generalizing s with
  | nil =>
    have hcnt : s.cnt = s.len := BitVec.eq_of_toNat_eq hlen
    rw [if_pos hcnt] at ho
    rw [← show s.line = rest from hl]
    exact congrArg Host.Outcome.next (eq_with_cnt_opstate hcnt ho)
  | cons b p ih =>
    rw [List.length_cons] at hlen
    have hlt : s.cnt.toNat < s.len.toNat := by omega
    have hsucc := toNat_succ_of_lt hlt
    rw [if_neg (fun he => Nat.ne_of_lt hlt (congrArg BitVec.toNat he))] at ho
    rw [Memory.writeFrom, ← hsucc]
    refine run_of_step (step_rPay hwaits hl hdeadline ho (hlt.le.trans hmax)) ?_
    refine ih hwaits rfl ?_ hmax hdeadline rfl
    show (s.cnt + 1).toNat + p.length = s.len.toNat
    omega

/-- The two checksum bytes where they are the sums, and the end (R231, R232). -/
theorem run_receiveTail (ho : s.opstate = .rCkA) (hdeadline : deadlinePassed s = false)
    (hl : s.line = answers [s.ckA, s.ckB] ++ rest) :
    run 2 s = .next
      { s with
        line := rest, rckA := s.ckA, rckB := s.ckB, msgCls := s.cls, msgId := s.id, msgLen := s.len, msgValid := true,
        result := 0x01, busy := false, done := true, opstate := .idle } := by
  refine run_of_step (step_rCkA hwaits hl hdeadline ho) ?_
  exact run_of_step (step_rCkB_match hwaits rfl hdeadline rfl ⟨rfl, rfl⟩) rfl

end

/-- The block after a valid frame of the message `c`, `i`, `p`, with `rest` still on the line (R232). -/
def frameReceived (s : State) (c i : Byte) (p : List Byte) (rest : List LineEvent) : State :=
  { s with
    line := rest, rxbuf := s.rxbuf.writeFrom 0 p, cls := c, id := i, len := BitVec.ofNat 16 p.length,
    cnt := BitVec.ofNat 16 p.length, ckA := (ck2 (ubxBody c i p)).1, ckB := (ck2 (ubxBody c i p)).2,
    rckA := (ck2 (ubxBody c i p)).1, rckB := (ck2 (ubxBody c i p)).2, msgCls := c, msgId := i,
    msgLen := BitVec.ofNat 16 p.length, msgValid := true, result := 0x01, busy := false, done := true,
    opstate := .idle }

theorem toNat_ofNat_length {s : State} {p : List Byte} (h : p.length ≤ s.maxPayload.toNat) :
    (BitVec.ofNat 16 p.length).toNat = p.length :=
  Nat.mod_eq_of_lt (h.trans_lt (s.maxPayload.isLt.trans (by decide)))

/-- A whole valid frame, from the seek on. -/
theorem run_receiveFrame {s : State} {c i : Byte} {p : List Byte} {rest : List LineEvent} (hwaits : HostWaits s)
    (ho : s.opstate = .rSeek) (hexpired : expired s = false) (hlen : p.length ≤ s.maxPayload.toNat)
    (hl : s.line = answers (ubxFrameBytes c i p (ck2 (ubxBody c i p)).1 (ck2 (ubxBody c i p)).2) ++ rest) :
    run (6 + (p.length + 2)) s = .next (frameReceived s c i p rest) := by
  have hdeadline := deadlinePassed_of_not_expired hexpired
  have hnat := toNat_ofNat_length hlen
  have hmax : (BitVec.ofNat 16 p.length).toNat ≤ lenMax :=
    hnat.trans_le (hlen.trans (maxPayload_le_lenMax s))
  have hline : s.line
      = answers [sync1, sync2, c, i, loByte (BitVec.ofNat 16 p.length), hiByte (BitVec.ofNat 16 p.length)]
        ++ (answers p ++ (answers [(ck2 (ubxBody c i p)).1, (ck2 (ubxBody c i p)).2] ++ rest)) := by
    rw [hl, ubxFrameBytes_eq]
    simp only [answers, List.map_append, List.append_assoc]
  refine run_of_run (run_receiveHead hwaits ho hexpired (badLength_eq_false (hnat.trans_le hlen)) hline) ?_
  refine run_of_run (run_receivePayload (by exact hwaits) ?_ ?_ hmax (by exact hdeadline) rfl)
    (run_receiveTail hwaits rfl hdeadline rfl)
  · simp only [eq_comm]
  · exact (Nat.zero_add _).trans hnat.symm

end Sys2Proof.Machine
end

section
/-! `UBXDECODE` of an encoded message (R244, R246): no tick stands among its bytes, so the timer stays at 0 and the frame
is received whole; the host then copies the message out (R290). -/

namespace Sys2Proof.Machine

section
variable {s : State} {rest : List Event}

theorem step_ubxrecv (hb : s.busy = false) (ha : s.agenda = cmdEvent 0x05 :: rest) :
    step s = .next
      { s with
        agenda := rest, done := false, elapsed := 0, feSync2 := false, msgValid := false, busy := true,
        opstate := .rSeek } :=
  (step_cmdEvent ha).trans (onCmd_idle _ { s with agenda := rest } hb)

/-- A host that waits goes on once `DONE = 1` (R118). -/
theorem step_wait_done (hd : s.done = true) (ha : s.agenda = .wait :: rest) :
    step s = .next { s with agenda := rest } :=
  step_performed s _ rest ha (by simp [hd]) rfl

section
variable {p : List Byte} (ho : s.opstate = .idle) (hlen : s.msgLen.toNat = p.length) (hread : Holds s.rxbuf p)
include ho hlen hread

/-- A message whose payload stands in RXBUF is copied out (R290). -/
theorem hostCopyMsg_of_holds :
    hostCopyMsg s = .next
      { s with seen := s.seen ++ [.message s.result (packHalf s.msgCls s.msgId) s.msgLen p] } := by
  rw [hostCopyMsg, ho, hlen, readFrom_of_holds hread]
  rfl

theorem step_copyMsg (ha : s.agenda = .copyMsg :: rest) :
    step s = .next
      { s with
        agenda := rest, seen := s.seen ++ [.message s.result (packHalf s.msgCls s.msgId) s.msgLen p] } :=
  (step_performed s _ rest ha (by simp) rfl).trans
    (hostCopyMsg_of_holds (s := { s with agenda := rest }) ho hlen hread)

end

/-- The block after `UBXDECODE` has put the bytes on the line and accepted its receive. -/
def decodeStarted (s : State) (bytes : List Byte) : State :=
  { s with
    agenda := [.wait, .copyMsg], line := answers bytes ++ s.line, done := false, elapsed := 0, feSync2 := false,
    msgValid := false, busy := true, opstate := .rSeek }

theorem run_decodeStarted {bytes : List Byte} (hb : s.busy = false) (ha : s.agenda = [.call (.ubxdecode bytes)]) :
    run 2 s = .next (decodeStarted s bytes) :=
  run_of_step (step_fetched s _ [] _ ha rfl) (run_of_step (step_ubxrecv hb rfl) rfl)

/-- A timer at 0 has not expired, whatever the timeout (R214). -/
theorem expired_decodeStarted (bytes : List Byte) : expired (decodeStarted s bytes) = false :=
  decide_eq_false (BitVec.not_lt_zero)

end

end Sys2Proof.Machine

namespace Sys2Proof.Proofs

open Sys2Proof.Machine

/-- Settles O60: the frame is put on the line, received whole, and copied out. -/
theorem decodeOfAnEncodedMessage : Obligations.DecodeOfAnEncodedMessage := by
  intro s c i p frame hb hlen hframe ha
  have hmax : p.length ≤ Config.lenMax := hlen.trans (maxPayload_le_lenMax s)
  have hbytes := Except.ok.inj ((ubxEncode_ok c i p hmax).symm.trans hframe)
  have hnat := toNat_ofNat_length hlen
  have hline := congrArg (answers · ++ s.line) hbytes.symm
  have hstart := run_decodeStarted hb ha
  have hreceive := run_receiveFrame (.inr ⟨_, rfl, rfl⟩) rfl (expired_decodeStarted frame) hlen hline
  have hwait := step_wait_done (s := frameReceived (decodeStarted s frame) c i p s.line) rfl rfl
  have hcopy := step_copyMsg (s := { frameReceived (decodeStarted s frame) c i p s.line with agenda := [.copyMsg] }) rfl
    hnat (holds_writeFrom_zero _ p) rfl
  rw [show 12 + p.length = 2 + (6 + (p.length + 2) + (1 + 1)) by omega]
  exact ⟨_, run_of_run hstart (run_of_run hreceive (run_of_step hwait (run_of_step hcopy rfl))), rfl, rfl, rfl, rfl,
    rfl, rfl⟩

end Sys2Proof.Proofs
end

section
/-! The acceptance of the text commands (R182, R262) and the sentence encoder on the symbol that waits (R186, R188), in
the block's turn. -/

namespace Sys2Proof.Proofs

open Sys2Proof.Machine

/-- Settles O13: an idle block takes the command's effect, and only `NMEADEC` clears the received checksum. -/
theorem textCommandsAcceptance : Obligations.TextCommandsAcceptance :=
  ⟨rfl, rfl, fun s hb => ⟨onCmd_idle nmeaencEffect s hb, onCmd_idle nmeadecEffect s hb⟩⟩

/-- Settles O29: the step is that of `T_FIRST`, for `$` with a ready sink or for any other symbol. -/
theorem firstSymbolMustBeDollar : Obligations.FirstSymbolMustBeDollar := by
  intro s y rest hturn ho hs
  rw [step_blockTurn s hturn, blockMove_tFirst ho]
  refine ⟨?dollar, fun hy => stepTFirst_other hs hy⟩
  case dollar =>
    rintro rfl hsink
    exact stepTFirst_dollar hsink hs

/-- Settles O30: the step is that of `T_BODY`, one case for each kind of symbol; the character is arbitrary. -/
theorem bodySymbols : Obligations.BodySymbols := by
  intro s y rest hturn ho hs
  rw [step_blockTurn s hturn, blockMove_tBody ho]
  refine ⟨?character, ?comma, ?marker, ?reserved⟩
  case character =>
    rintro b rfl hsink
    exact stepTBody_ch hsink hs
  case comma =>
    rintro rfl hsink
    exact stepTBody_fs hsink hs
  case marker =>
    rintro rfl hsink
    exact stepTBody_endMsg hsink hs
  case reserved =>
    rintro rfl
    exact stepTBody_reserved hs

end Sys2Proof.Proofs
end

section
/-! The receiver on every answer of the transport (R216 to R236): the common tests of the mid-frame states, the branches
that leave a frame, and a payload whose end is not reached. -/

namespace Sys2Proof.Machine

open Sys2Proof.Config

section
variable {s : State} {r : Option Byte} {rest : List LineEvent}

theorem expired_iff (s : State) : expired s = true ↔ s.timeout < s.elapsed := decide_eq_true_iff

theorem deadlinePassed_iff (s : State) : deadlinePassed s = true ↔ s.frameDeadline = true ∧ s.timeout < s.elapsed := by
  rw [deadlinePassed, Bool.and_eq_true, expired_iff]

theorem badLength_iff (s : State) (l : Half) :
    badLength s l = true ↔ l.getLsbD 15 = true ∨ s.maxPayload.toNat < l.toNat := by
  rw [badLength, Bool.or_eq_true, decide_eq_true_iff]

/-- The eight states behind the seek each have a rule of their own (R30). -/
theorem exists_midFrameRule {o : OpState} (hreceiver : o.isReceiver = true) (hseek : o ≠ .rSeek) :
    ∃ f, midFrameRule o = some f := by
  cases o with
  | rSeek => exact absurd rfl hseek
  | rSync2 | rCls | rId | rLen0 | rLen1 | rPay | rCkA | rCkB => exact ⟨_, rfl⟩
  | _ => cases hreceiver

variable (hwaits : HostWaits s)
include hwaits

/-! ### The common tests (R234, R236) -/

theorem midFrameTests_of_receiver (hreceiver : s.opstate.isReceiver = true) (hseek : s.opstate ≠ .rSeek) :
    MidFrameTests s := by
  intro r rest hl
  obtain ⟨f, hrule⟩ := exists_midFrameRule hreceiver hseek
  have hstep : step s = midFrame f r { s with line := rest } := by
    rw [step_receiver s hwaits hreceiver, (blockMove_midFrame hrule).2, onLine_rx _ s r rest hl]
  rw [hstep, ← deadlinePassed_iff]
  refine ⟨fun hpassed => if_pos hpassed, fun hopen hnone => ?_⟩
  subst hnone
  exact if_neg hopen

/-! ### The seek (R216) -/

variable (hl : s.line = .rx r :: rest)
include hl

theorem step_rSeek (ho : s.opstate = .rSeek) : step s = rxSeek r { s with line := rest } := by
  have hmove : blockMove s = onLine rxSeek s := by rw [blockMove, ho, stepRSeek]
  rw [step_receiver s hwaits (by rw [ho]; rfl), hmove, onLine_rx _ s r rest hl]

/-- An expired timer ends the seek, whatever the answer. -/
theorem step_rSeek_expired (ho : s.opstate = .rSeek) (hexpired : expired s = true) :
    step s = .next { s with line := rest, result := 0x02, busy := false, done := true, opstate := .idle } :=
  (step_rSeek hwaits hl ho).trans (if_pos hexpired)

/-- An idle poll, or a byte that is not the first sync byte, is dropped. -/
theorem step_rSeek_other (ho : s.opstate = .rSeek) (hexpired : expired s = false) (hr : r ≠ some sync1) :
    step s = .next { s with line := rest } :=
  (step_rSeek hwaits hl ho).trans ((if_neg (ne_true_of_eq_false hexpired)).trans (if_neg hr))

end

section
variable {s : State} {b : Byte} {rest : List LineEvent}
variable (hwaits : HostWaits s) (hl : s.line = .rx (some b) :: rest) (hdeadline : deadlinePassed s = false)
include hwaits hl hdeadline

/-! ### The branches that leave a frame (R222, R228, R232) -/

/-- A wrong second sync byte is recorded and discarded (R223). -/
theorem step_rSync2_other (ho : s.opstate = .rSync2) (hb : b ≠ sync2) :
    step s = .next { s with line := rest, feSync2 := true, opstate := .rSeek } :=
  step_midFrame hwaits hl hdeadline (congrArg midFrameRule ho) (if_neg hb)

theorem step_rLen1_bad {l : Half} (ho : s.opstate = .rLen1) (hlen : packHalf (loByte s.len) b = l)
    (hbad : badLength s l = true) :
    step s = .next
      { s with
        line := rest, len := l, cnt := 0, ckA := (ck2Step (s.ckA, s.ckB) b).1, ckB := (ck2Step (s.ckA, s.ckB) b).2,
        result := 0x12, busy := false, done := true, opstate := .idle } := by
  subst hlen
  exact step_midFrame hwaits hl hdeadline (congrArg midFrameRule ho) (if_pos hbad)

theorem step_rCkB_mismatch (ho : s.opstate = .rCkB) (hck : ¬ (s.rckA = s.ckA ∧ b = s.ckB)) :
    step s = .next
      { s with line := rest, rckB := b, result := 0x13, busy := false, done := true, opstate := .idle } :=
  step_midFrame hwaits hl hdeadline (congrArg midFrameRule ho) (if_neg hck)

end

/-! ### A payload on its way (R230) -/

/-- While fewer bytes than `LEN` are taken the receiver stays in the payload state. -/
theorem opstate_of_run_rPay {s t : State} {p : List Byte} {rest : List LineEvent} {k : Nat} (hrun : run k s = .next t)
    (hwaits : HostWaits s) (ho : s.opstate = .rPay) (hk : k ≤ p.length) (hlen : s.cnt.toNat + k < s.len.toNat)
    (hmax : s.len.toNat ≤ lenMax) (hdeadline : deadlinePassed s = false) (hl : s.line = answers p ++ rest) :
    t.opstate = .rPay := by
  induction k generalizing s p with
  | zero =>
    cases hrun
    exact ho
  | succ k ih =>
    cases p with
    | nil => cases hk
    | cons b p =>
      have hsucc : (s.cnt + 1).toNat = s.cnt.toNat + 1 := toNat_succ_of_lt (l := s.len) (by omega)
      have hmore : s.cnt + 1 ≠ s.len := fun he => by
        have := congrArg BitVec.toNat he
        omega
      have hstep := step_rPay hwaits hl hdeadline ho (by omega)
      rw [if_neg hmore] at hstep
      rw [run_step k s _ hstep] at hrun
      refine ih hrun hwaits rfl (Nat.le_of_succ_le_succ hk) ?_ hmax hdeadline rfl
      show (s.cnt + 1).toNat + k < s.len.toNat
      omega

end Sys2Proof.Machine

namespace Sys2Proof.Proofs

open Sys2Proof.Machine

/-- Settles O12: an idle block takes the command's effect, and the read request is the state it enters. -/
theorem ubxrecvAcceptance : Obligations.UbxrecvAcceptance := by
  refine ⟨rfl, fun s hb => ?_⟩
  have haccept := onCmd_idle ubxrecvEffect s hb
  refine ⟨haccept, fun t ht => ?_⟩
  cases haccept.symm.trans ht
  rfl

/-- Settles O17: the timer decides first, then the comparison with the first sync byte. -/
theorem seekOnAnAnswer : Obligations.SeekOnAnAnswer := by
  intro s r rest hwaits ho hl
  rw [← expired_iff, Bool.not_eq_true]
  refine ⟨step_rSeek_expired hwaits hl ho, fun hopen hr => ?_, step_rSeek_other hwaits hl ho⟩
  subst hr
  exact step_seek_sync1 hwaits hl ho hopen rfl

/-- Settles O18: the common tests, then the comparison with the second sync byte. -/
theorem secondSyncByte : Obligations.SecondSyncByte := by
  intro s r rest hwaits ho hl
  obtain ⟨hpassed, hshort⟩ := midFrameTests_of_receiver hwaits (by rw [ho]; rfl) (by rw [ho]; nofun) r rest hl
  refine ⟨hpassed, fun hopen => ⟨hshort hopen, ?_⟩⟩
  rw [← deadlinePassed_iff, Bool.not_eq_true] at hopen
  refine ⟨?sync, ?other⟩
  case sync =>
    rintro rfl
    exact step_rSync2_sync2 hwaits hl hopen ho rfl
  case other =>
    rintro b rfl hb
    exact step_rSync2_other hwaits hl hopen ho hb

/-- Settles O19: the tests come before the rule of each of the eight states. -/
theorem midFrameDeadlineAndShortRead : Obligations.MidFrameDeadlineAndShortRead :=
  fun _ => midFrameTests_of_receiver

/-- Settles O20: one rule for each of the three states. -/
theorem headerBytes : Obligations.HeaderBytes := by
  intro s hwaits ho
  refine ⟨?_, fun b rest hl hopen => ?_⟩
  · rcases ho with ho | ho | ho <;> exact midFrameTests_of_receiver hwaits (by rw [ho]; rfl) (by rw [ho]; nofun)
  · rw [← deadlinePassed_iff, Bool.not_eq_true] at hopen
    exact ⟨step_rCls hwaits hl hopen, step_rId hwaits hl hopen, step_rLen0 hwaits hl hopen⟩

/-- Settles O21: the test is made on the completed length, and 0 passes over the payload. -/
theorem lengthTest : Obligations.LengthTest := by
  intro s hwaits ho
  refine ⟨midFrameTests_of_receiver hwaits (by rw [ho]; rfl) (by rw [ho]; nofun), fun b rest hl hopen => ?_⟩
  rw [← deadlinePassed_iff, Bool.not_eq_true] at hopen
  intro l t
  rw [← badLength_iff, Bool.not_eq_true]
  refine ⟨step_rLen1_bad hwaits hl hopen ho rfl, fun hfits => ?_⟩
  have hstep := step_rLen1_fits hwaits hl hopen ho (l := l) rfl hfits
  refine ⟨fun hzero => ?_, fun hpay => ?_⟩
  · rwa [if_pos hzero] at hstep
  · rwa [if_neg hpay] at hstep

/-- Settles O22: one byte by the rule of the state, a whole payload by induction on its bytes. -/
theorem payloadIsTakenWhole : Obligations.PayloadIsTakenWhole := by
  refine ⟨fun s hwaits ho => ⟨?tests, ?oneByte⟩, ?whole⟩
  case tests => exact midFrameTests_of_receiver hwaits (by rw [ho]; rfl) (by rw [ho]; nofun)
  case oneByte =>
    intro b rest hl hopen hcnt
    rw [← deadlinePassed_iff, Bool.not_eq_true] at hopen
    exact ⟨_, step_rPay hwaits hl hopen ho hcnt, Memory.read_write_same _ _ _, fun a => Memory.read_write_other _ _ _ a⟩
  case whole =>
    intro s p rest hwaits ho hcnt hne hlen hmax hopen hl
    rw [← deadlinePassed_iff, Bool.not_eq_true] at hopen
    have hzero : s.cnt.toNat = 0 := congrArg BitVec.toNat hcnt
    have hpos : 0 < p.length := List.length_pos_iff.mpr hne
    refine ⟨fun k t hk hrun => ?_, s.rxbuf.writeFrom 0 p, ?_, holds_writeFrom_zero _ p,
      fun a => read_writeFrom_zero_above _ p⟩
    · exact opstate_of_run_rPay hrun hwaits ho hk.le (by omega) (hlen.trans_le hmax) hopen hl
    · have hstart : s.cnt ≠ s.len := fun he => by
        have := congrArg BitVec.toNat he
        omega
      rw [← hzero]
      exact run_receivePayload hwaits (ho.trans (if_neg hstart).symm) (by omega) (hlen.trans_le hmax) hopen hl

/-- Settles O23: the first byte is kept, the second is the verdict. -/
theorem checksumBytesAndVerdict : Obligations.ChecksumBytesAndVerdict := by
  intro s hwaits ho
  refine ⟨?_, fun b rest hl hopen => ?_⟩
  · rcases ho with ho | ho <;> exact midFrameTests_of_receiver hwaits (by rw [ho]; rfl) (by rw [ho]; nofun)
  · rw [← deadlinePassed_iff, Bool.not_eq_true] at hopen
    exact ⟨step_rCkA hwaits hl hopen, step_rCkB_match hwaits hl hopen, step_rCkB_mismatch hwaits hl hopen⟩

end Sys2Proof.Proofs
end

section
/-! A receive from the write to `CMD` to the verdict (R212 to R232), for a frame with any two checksum bytes. -/

namespace Sys2Proof.Machine

open Sys2Proof.Config

/-- The block with the payload of the message `c`, `i`, `p` in RXBUF and the two checksum bytes still to come (R230). -/
def payloadReceived (s : State) (c i : Byte) (p : List Byte) (rest : List LineEvent) : State :=
  { s with
    line := rest, rxbuf := s.rxbuf.writeFrom 0 p, cls := c, id := i, len := BitVec.ofNat 16 p.length,
    cnt := BitVec.ofNat 16 p.length, ckA := (ck2 (ubxBody c i p)).1, ckB := (ck2 (ubxBody c i p)).2, opstate := .rCkA }

section
variable {s : State} {rest : List LineEvent} (hwaits : HostWaits s)
include hwaits

/-- The frame up to its checksum, from the seek on. -/
theorem run_payloadReceived {c i a b : Byte} {p : List Byte} (ho : s.opstate = .rSeek) (hexpired : expired s = false)
    (hlen : p.length ≤ s.maxPayload.toNat) (hl : s.line = answers (ubxFrameBytes c i p a b) ++ rest) :
    run (6 + p.length) s = .next (payloadReceived s c i p (answers [a, b] ++ rest)) := by
  have hnat := toNat_ofNat_length hlen
  have hmax : (BitVec.ofNat 16 p.length).toNat ≤ lenMax := hnat.trans_le (hlen.trans (maxPayload_le_lenMax s))
  have hline : s.line
      = answers [sync1, sync2, c, i, loByte (BitVec.ofNat 16 p.length), hiByte (BitVec.ofNat 16 p.length)]
        ++ (answers p ++ (answers [a, b] ++ rest)) := by
    rw [hl, ubxFrameBytes_eq]
    simp only [answers, List.map_append, List.append_assoc]
  refine run_of_run (run_receiveHead hwaits ho hexpired (badLength_eq_false (hnat.trans_le hlen)) hline) ?_
  refine run_receivePayload (by exact hwaits) ?_ ?_ hmax (deadlinePassed_of_not_expired hexpired) rfl
  · simp only [eq_comm]
  · exact (Nat.zero_add _).trans hnat.symm

/-- Two checksum bytes that are not the sums, and the end: `MSG_*` stay (R232). -/
theorem run_receiveTail_mismatch {a b : Byte} (ho : s.opstate = .rCkA) (hdeadline : deadlinePassed s = false)
    (hck : ¬ (a = s.ckA ∧ b = s.ckB)) (hl : s.line = answers [a, b] ++ rest) :
    run 2 s = .next
      { s with
        line := rest, rckA := a, rckB := b, result := 0x13, busy := false, done := true, opstate := .idle } := by
  refine run_of_step (step_rCkA hwaits hl hdeadline ho) ?_
  exact run_of_step (step_rCkB_mismatch hwaits rfl hdeadline rfl hck) rfl

end

/-- The block after the acceptance of a receive (R212). -/
def receiveStarted (s : State) : State :=
  { s with
    agenda := [], done := false, elapsed := 0, feSync2 := false, msgValid := false, busy := true, opstate := .rSeek }

/-- A timer at 0 has not expired, whatever the timeout (R214). -/
theorem expired_receiveStarted (s : State) : expired (receiveStarted s) = false :=
  decide_eq_false BitVec.not_lt_zero

/-- From the write to `CMD` to the first checksum byte. -/
theorem run_receiveStarted {s : State} {c i a b : Byte} {p : List Byte} {rest : List LineEvent}
    (hb : s.busy = false) (ha : s.agenda = [.wr .cmd 0x05]) (hlen : p.length ≤ s.maxPayload.toNat)
    (hl : s.line = answers (ubxFrameBytes c i p a b) ++ rest) :
    run (6 + p.length + 1) s = .next (payloadReceived (receiveStarted s) c i p (answers [a, b] ++ rest)) :=
  run_of_step (step_ubxrecv hb ha)
    (run_payloadReceived (s := receiveStarted s) (.inl rfl) rfl (expired_receiveStarted s) hlen hl)

end Sys2Proof.Machine

namespace Sys2Proof.Proofs

open Sys2Proof.Machine

/-- Settles O24: the receive up to the checksum is one run, and the two last bytes decide how it ends. -/
theorem receiverJudgesEveryFrame : Obligations.ReceiverJudgesEveryFrame := by
  intro s c i p a b more hb ha hlen hl
  have hstart := run_receiveStarted hb ha hlen hl
  have hdeadline : deadlinePassed (payloadReceived (receiveStarted s) c i p (answers [a, b] ++ more)) = false :=
    deadlinePassed_of_not_expired (expired_receiveStarted s)
  rw [show 9 + p.length = 6 + p.length + 1 + 2 by omega]
  by_cases hck : ck2 (ubxBody c i p) = (a, b)
  case pos =>
    obtain rfl : (ck2 (ubxBody c i p)).1 = a := congrArg Prod.fst hck
    obtain rfl : (ck2 (ubxBody c i p)).2 = b := congrArg Prod.snd hck
    exact ⟨_, _, run_of_run hstart (run_receiveTail (.inl rfl) rfl hdeadline rfl), holds_writeFrom_zero _ p,
      fun _ => read_writeFrom_zero_above _ p, fun _ => rfl, fun hne => absurd hck hne⟩
  case neg =>
    have hsums : ¬ (a = (ck2 (ubxBody c i p)).1 ∧ b = (ck2 (ubxBody c i p)).2) :=
      fun ⟨hfst, hsnd⟩ => hck (Prod.ext hfst.symm hsnd.symm)
    exact ⟨_, _, run_of_run hstart (run_receiveTail_mismatch (.inl rfl) rfl hdeadline hsums rfl),
      holds_writeFrom_zero _ p, fun _ => read_writeFrom_zero_above _ p, fun he => absurd he hck, fun _ => rfl⟩

end Sys2Proof.Proofs
end

section
/-! The receiver on ticks, and the seek on everything but the first sync byte (R213, R216, R220, R240). -/

namespace Sys2Proof.Machine

open Sys2Proof.Config

section
variable {s : State} {rest : List LineEvent}

/-! ### Ticks -/

/-- A count that has not reached the timeout does not saturate (R213). -/
theorem tickEvent_below (hreceiver : s.opstate.isReceiver = true) (hlt : s.elapsed.toNat < s.timeout.toNat) :
    tickEvent s = { s with elapsed := s.elapsed + 1 } := by
  have hmax := s.timeout.isLt
  rw [tickEvent_receiver s hreceiver, if_neg]
  intro he
  have : s.elapsed.toNat = 4294967295 := congrArg BitVec.toNat he
  omega

variable (hwaits : HostWaits s)
include hwaits

theorem step_lineTick (hl : s.line = .tick :: rest) : step s = .next (tickEvent { s with line := rest }) :=
  (step_hostWaits s hwaits).trans (blockStep_tick s rest hl)

/-- Ticks alone only count, saturating (R213, R240). -/
theorem run_ticks {n : Nat} (hreceiver : s.opstate.isReceiver = true) (hl : s.line = List.replicate n .tick) :
    run n s = .next { s with line := [], elapsed := BitVec.ofNat 32 (min (s.elapsed.toNat + n) 4294967295) } := by
  induction n generalizing s with
  | zero =>
    have helapsed : BitVec.ofNat 32 (min (s.elapsed.toNat + 0) 4294967295) = s.elapsed := by
      rw [Nat.add_zero, Nat.min_eq_left (Nat.le_of_lt_succ s.elapsed.isLt), BitVec.ofNat_toNat, BitVec.setWidth_eq]
    rw [helapsed, ← show s.line = [] from hl]
    rfl
  | succ n ih =>
    have hstep := step_lineTick hwaits hl
    rw [tickEvent_elapsed _ (by exact hreceiver)] at hstep
    have hsum : min ((BitVec.ofNat 32 (min (s.elapsed.toNat + 1) 4294967295)).toNat + n) 4294967295
        = min (s.elapsed.toNat + (n + 1)) 4294967295 := by
      rw [BitVec.toNat_ofNat]
      omega
    rw [← hsum]
    exact run_of_step hstep (ih (by exact hwaits) (by exact hreceiver) rfl)

/-! ### The seek -/

/-- One quiet event, before the timer has expired, is passed over. -/
theorem step_rSeek_quiet {e : LineEvent} (ho : s.opstate = .rSeek) (hquiet : quiet e = true)
    (htimer : s.elapsed.toNat + tickCount [e] ≤ s.timeout.toNat) (hl : s.line = e :: rest) :
    step s = .next { s with line := rest, elapsed := s.elapsed + BitVec.ofNat 32 (tickCount [e]) } := by
  cases e with
  | tick =>
    have hreceiver : s.opstate.isReceiver = true := congrArg OpState.isReceiver ho
    rw [step_lineTick hwaits hl, tickEvent_below (by exact hreceiver) (by exact htimer)]
    rfl
  | rx r =>
    have hexpired : expired s = false := decide_eq_false (Nat.not_lt.mpr htimer)
    have hr : r ≠ some sync1 := by
      rintro rfl
      cases hquiet
    rw [step_rSeek_other hwaits hl ho hexpired hr, show tickCount [LineEvent.rx r] = 0 from rfl, BitVec.add_zero]

theorem run_rSeek_quiet {l : List LineEvent} (ho : s.opstate = .rSeek) (hquiet : l.all quiet = true)
    (htimer : s.elapsed.toNat + tickCount l ≤ s.timeout.toNat) (hl : s.line = l ++ rest) :
    run l.length s = .next { s with line := rest, elapsed := s.elapsed + BitVec.ofNat 32 (tickCount l) } := by
  induction l generalizing s with
  | nil =>
    rw [← show s.line = rest from hl, show tickCount [] = 0 from rfl, BitVec.add_zero]
    rfl
  | cons e l ih =>
    rw [List.all_cons, Bool.and_eq_true] at hquiet
    obtain ⟨hhead, htail⟩ := hquiet
    have hcount : tickCount (e :: l) = tickCount [e] + tickCount l := List.countP_append (l₁ := [e])
    rw [hcount, ← Nat.add_assoc] at htimer
    have hsum : (s.elapsed + BitVec.ofNat 32 (tickCount [e])).toNat = s.elapsed.toNat + tickCount [e] := by
      have := s.timeout.isLt
      rw [BitVec.toNat_add, BitVec.toNat_ofNat]
      omega
    refine run_of_step (step_rSeek_quiet hwaits ho hhead (by omega) hl) ?_
    rw [hcount, BitVec.ofNat_add, ← BitVec.add_assoc]
    exact ih (by exact hwaits) ho htail (by rw [hsum]; exact htimer) rfl

end

end Sys2Proof.Machine

namespace Sys2Proof.Proofs

open Sys2Proof.Machine

/-- Settles O25: one step for each event, by induction on them. -/
theorem seekPassesOverTheRest : Obligations.SeekPassesOverTheRest :=
  fun _ _ _ hwaits => run_rSeek_quiet hwaits

/-- Settles O26: with nothing on the line the step answers the same state, and a tick is only counted. -/
theorem onlyAnAnswerEndsAReceive : Obligations.OnlyAnAnswerEndsAReceive := by
  intro s hwaits hreceiver
  refine ⟨fun hl => run_of_step_self ?_, fun n => run_ticks hwaits hreceiver⟩
  obtain ⟨f, hmove⟩ := blockMove_receiver s hreceiver
  rw [step_receiver s hwaits hreceiver, hmove, onLine_nil f s hl]

end Sys2Proof.Proofs
end

section
/-! How a receive ends (R210, R218, R240): by one of five outcomes, in the block's own step on an answer. -/

namespace Sys2Proof.Machine

/-- If the step ends the operation, it does so with an outcome of R210 and takes an answer from the line. -/
def EndsReceive (s t : State) : Prop :=
  t.opstate = .idle → t.result ∈ [0x01, 0x02, 0x12, 0x13, 0x14] ∧ ∃ r, s.line = .rx r :: t.line

section
variable {s : State}

theorem endsReceive_of_running {t : State} (h : t.opstate ≠ .idle) : EndsReceive s t := fun ho => absurd ho h

/-- The five outcomes of a receive (R210). -/
theorem endsReceive_complete {c : ResultCode} {u : State} {r : Option Byte} (hl : s.line = .rx r :: u.line)
    (hc : c ∈ [.resOk, .resNoMessage, .errFraming, .errChecksumMismatch, .errTransport]) :
    EndsReceive s (complete c u) :=
  fun _ => ⟨List.mem_map_of_mem (f := resultCode) hc, r, hl⟩

/-! ### The block's own step -/

/-- Only an answer can end a receive; a tick and an empty line do not (R213, R240). -/
theorem onLine_endsReceive {f : Option Byte → State → Result} (hrun : s.opstate ≠ .idle)
    (h : ∀ r rest, s.line = .rx r :: rest → Answers (EndsReceive s) anyFault (f r { s with line := rest })) :
    Answers (EndsReceive s) anyFault (onLine f s) := by
  unfold onLine
  split
  next => exact endsReceive_of_running hrun
  next => exact endsReceive_of_running (by simpa using hrun)
  next hl => exact h _ _ hl

/-- What the mid-frame states share: the common tests end the receive with outcomes of it (R234, R236). -/
theorem midFrame_endsReceive {f : Byte → State → Result} (hrun : s.opstate ≠ .idle)
    (h : ∀ r b rest, s.line = .rx r :: rest → Answers (EndsReceive s) anyFault (f b { s with line := rest })) :
    Answers (EndsReceive s) anyFault (onLine (midFrame f) s) :=
  onLine_endsReceive hrun fun r rest hl =>
    answers_midFrame (endsReceive_complete hl (by decide)) (endsReceive_complete hl (by decide)) fun b => h r b rest hl

theorem blockMove_endsReceive (hreceiver : s.opstate.isReceiver = true) :
    Answers (EndsReceive s) anyFault (blockMove s) := by
  have hrun : s.opstate ≠ .idle := ne_idle_of_unit ((isReceiver_iff_unit _).mp hreceiver)
  unfold blockMove
  cases ho : s.opstate with
  | rSeek =>
    exact onLine_endsReceive hrun fun _ _ hl => answers_ite (fun _ => endsReceive_complete hl (by decide)) fun _ =>
      answers_ite (fun _ => endsReceive_of_running nofun) fun _ => endsReceive_of_running hrun
  | rSync2 =>
    exact midFrame_endsReceive hrun fun _ _ _ _ =>
      answers_ite (fun _ => endsReceive_of_running nofun) fun _ => endsReceive_of_running nofun
  | rCls | rId | rLen0 | rCkA =>
    refine midFrame_endsReceive hrun fun _ _ _ _ => ?_
    exact endsReceive_of_running nofun
  | rLen1 =>
    exact midFrame_endsReceive hrun fun _ _ _ hl => answers_ite (fun _ => endsReceive_complete hl (by decide)) fun _ =>
      answers_ite (fun _ => endsReceive_of_running nofun) fun _ => endsReceive_of_running nofun
  | rPay =>
    exact midFrame_endsReceive hrun fun _ _ _ _ => answers_ite (fun _ => trivial) fun _ =>
      endsReceive_of_running (ne_idle_of_unit (unit_ite (u := some .receiver) rfl rfl))
  | rCkB =>
    exact midFrame_endsReceive hrun fun _ _ _ hl => answers_ite (fun _ => endsReceive_complete hl (by decide)) fun _ =>
      endsReceive_complete hl (by decide)
  | _ => rw [ho] at hreceiver; cases hreceiver

theorem blockStep_endsReceive (hreceiver : s.opstate.isReceiver = true) :
    Answers (EndsReceive s) anyFault (blockStep s) := by
  rw [blockStep_receiver s hreceiver]
  exact blockMove_endsReceive hreceiver

/-! ### The agenda -/

/-- No row that can reach the block ends a receive: commands and names are ignored, the rest concerns the streams (R35,
R37, R40). -/
theorem exec_endsReceive (hreceiver : s.opstate.isReceiver = true) (hb : s.busy = true) (i : Instr)
    (hi : i.format ≠ .result8) : Answers (EndsReceive s) anyFault (exec i s) := by
  have hrun : s.opstate ≠ .idle := ne_idle_of_unit ((isReceiver_iff_unit _).mp hreceiver)
  have hsymbol (y : Symbol) : Answers (EndsReceive s) anyFault (offerSymbol y s) := by
    rw [offerSymbol_elsewhere (fun ho => by rw [ho] at hreceiver; cases hreceiver)
      (fun ho => by rw [ho] at hreceiver; cases hreceiver)]
    exact endsReceive_of_running hrun
  cases i with
  | ck2 | ckx | lookup | ubxenc | ubxrecv | nmeaenc | nmeadec | reservedCmd =>
    rw [exec_of_busy (.inl rfl) hb]
    exact endsReceive_of_running hrun
  | nameCfgMsg | nameCfgNav5 | nameCfgCfg | nameGll | nameRmc | nameGsv =>
    rw [exec_of_busy (.inr rfl) hb]
    exact endsReceive_of_running hrun
  | symCh | symFs | symEnd | symReserved => exact hsymbol _
  | ubxFrame | nmeaSentence | ubxencNamed | pubxSetbaud | pubxSetrate | exchange | ubxdecode =>
    exact endsReceive_of_running hrun
  | _ => exact absurd rfl hi

theorem perform_endsReceive (hreceiver : s.opstate.isReceiver = true) (e : Event) (hf : fetch e = none)
    (hrst : e ≠ .rst) : Answers (EndsReceive s) anyFault (perform e s) := by
  have hrun : s.opstate ≠ .idle := ne_idle_of_unit ((isReceiver_iff_unit _).mp hreceiver)
  cases e with
  | wr r v => exact endsReceive_of_running (by simpa using hrun)
  | wrbuf => exact answers_hostWriteTxbuf (endsReceive_of_running hrun)
  | rdbuf => exact answers_hostReadBuf (fun _ _ => trivial) fun _ => endsReceive_of_running hrun
  | copyMsg => exact answers_hostCopyMsg (fun _ _ => trivial) fun _ => endsReceive_of_running hrun
  | putSin | call => cases hf
  | name n =>
    exact (namedLookup_writes n).mono fun t hw => endsReceive_of_running (by rw [show t = _ from hw]; exact hrun)
  | skipIf c n =>
    show EndsReceive s (if _ then _ else _)
    split <;> exact endsReceive_of_running hrun
  | tick => exact endsReceive_of_running (by simpa using hrun)
  | rst => exact absurd rfl hrst
  | go => exact blockStep_endsReceive hreceiver
  | rd | arrive | putDin | getSout | wait | answer | sink => exact endsReceive_of_running hrun

theorem step_endsReceive (hreceiver : s.opstate.isReceiver = true) (hb : s.busy = true)
    (hrst : ∀ rest, s.agenda ≠ .rst :: rest) : Answers (EndsReceive s) anyFault (step s) :=
  answers_step (blockStep_endsReceive hreceiver)
    (fun _ rest i _ hf => exec_endsReceive (s := { s with agenda := rest }) hreceiver hb i (fetch_format hf))
    fun e rest ha hf =>
      perform_endsReceive (s := { s with agenda := rest }) hreceiver e hf (by rintro rfl; exact hrst rest ha)

end

end Sys2Proof.Machine

namespace Sys2Proof.Proofs

open Sys2Proof.Machine

/-- Settles O49: the block is busy in a receiver state, so no other operation begins, and its own step ends it. -/
theorem aReceiveEndsWithOneOfFiveResults : Obligations.AReceiveEndsWithOneOfFiveResults := by
  intro s t h hstep hreceiver ho hrst
  have hb : s.busy = true := h.busy_iff.mpr (ne_idle_of_unit ((isReceiver_iff_unit _).mp hreceiver))
  exact (step_endsReceive hreceiver hb hrst).of_next hstep ho

end Sys2Proof.Proofs
end

section
/-! The first byte and the body of an `NMEADEC` (R264, R266), in the block's turn. -/

namespace Sys2Proof.Machine

open Sys2Proof.Config

theorem bodyStopper_iff_mem (b : Byte) : bodyStopper b = true ↔ b ∈ [cr, lf, dollar] := by
  simp [bodyStopper]

theorem byteSymbols_character {b : Byte} (hb : b ≠ comma) : byteSymbols [b] = [.ch b] := by
  rw [byteSymbols, List.map_singleton, if_neg hb]

/-- Any byte but the five that R266 names is a field character. -/
theorem character_of_not_named {b : Byte} (hb : b ∉ [comma, star, cr, lf, dollar]) :
    b ≠ comma ∧ b ≠ star ∧ bodyStopper b = false := by
  rw [List.mem_cons, not_or, List.mem_cons, not_or] at hb
  obtain ⟨hcomma, hstar, hstop⟩ := hb
  exact ⟨hcomma, hstar, Bool.eq_false_iff.mpr (mt (bodyStopper_iff_mem b).mp hstop)⟩

end Sys2Proof.Machine

namespace Sys2Proof.Proofs

open Sys2Proof.Machine

/-- Settles O34: one rule for each kind of byte; a comma and a character are both text and differ in the symbol alone. -/
theorem decoderStartAndBody : Obligations.DecoderStartAndBody := by
  intro s b rest hturn hd
  rw [step_blockTurn s hturn]
  refine ⟨?dollar, ?noDollar, ?comma, ?marker, ?stopper, ?character⟩
  case dollar =>
    rintro ho rfl hhost
    exact blockMove_nStart_dollar ho hd hhost
  case noDollar =>
    intro ho hb
    exact blockMove_rejects hd (by rw [ho]; exact hb)
  case comma =>
    rintro ho rfl hhost
    exact blockMove_nBody_text ho hd (by decide) hhost
  case marker =>
    rintro ho rfl
    exact blockMove_nBody_star ho hd
  case stopper =>
    intro ho hb
    exact blockMove_rejects hd (by rw [ho]; exact (bodyStopper_iff_mem b).mpr hb)
  case character =>
    intro ho hb hhost
    obtain ⟨hcomma, htext⟩ := character_of_not_named hb
    rw [← byteSymbols_character hcomma]
    exact blockMove_nBody_text ho hd htext hhost

end Sys2Proof.Proofs
end
